-- ==== Sys2Proof/Word.lean ====
section
/-! DEFINITION. The block's bit vectors. The widths of this hardware (`HA`, `SW`, `PW`, the dictionary's sizes) are
arguments of the model (00_scope.md R8), so a vector's width is known only at run time: `bits[n]` of R11 is a list of
`n` bits, most significant first, which is also the order in which bits travel (20_memory.md R51). -/

namespace Sys2Proof

/-- `bits[n]` (R11): the list of its `n` bits, the most significant (the earliest in stream order) first. -/
abbrev Bits := List Bool

/-- `zeros(n)` (R11). -/
def zeros (n : Nat) : Bits := List.replicate n false

/-- `ones(n)` (R11). -/
def ones (n : Nat) : Bits := List.replicate n true

end Sys2Proof
end

