-- ==== Sys2Proof/Machine/Values.lean ====
section
/-! DEFINITION. The values the block handles: payload values, messages, listeners, faults (00_scope.md R16,
41_message_packer.md R130, R131, 10_state.md R35, 60_exceptions.md R251). -/

namespace Sys2Proof

/-- A payload value (40_payload_codecs.md R111 to R118): the raw bit vector of a bitset payload, or the integer of a
number or ranged payload. -/
inductive Payload where
  /-- a bitset value `v : bits[size]` -/
  | bits (b : Bits)
  /-- the integer a number or a ranged payload wraps -/
  | int (v : Int)
deriving DecidableEq, Repr

/-- A message `(i, p)` (R16, R130): the dictionary index, which is the tag of the union of R131 and from which the
header is derived, and the payload value. -/
structure Msg where
  idx     : Nat
  payload : Payload
deriving DecidableEq, Repr

/-- How an operation names an instruction of the dictionary: "an instruction name or index" (R136). -/
inductive InstrRef where
  | name (n : String)
  | index (i : Nat)
deriving DecidableEq, Repr

/-- The two directions of a connection, each with its own parameter set (00_scope.md R7). -/
inductive Direction where
  /-- to-device: the parameter set of the Encoder -/
  | toDevice
  /-- from-device: the parameter set of the Decoder -/
  | fromDevice
deriving DecidableEq, Repr

/-- A listener (10_state.md R35), by the name the text notation of R100 gives it: the halt listener of
44_environment.md R224, or any other callable of the environment. -/
inductive Listener where
  | halt
  | named (n : String)
deriving DecidableEq, Repr

/-- One call `notify(l, m)` (43_decoder.md R174), with the length `DEC.QUEUE` had when the listener ran: a listener
that inspects the queue finds it without the message (20_memory.md R61). -/
structure Call where
  listener : Listener
  msg      : Msg
  queued   : Nat
deriving DecidableEq, Repr

/-- The faults a Decoder latches, and the one a ranged codec raises (60_exceptions.md R251, codes 1 to 3), each with the
information recorded. -/
inductive BlockFault where
  /-- code 1: a header value `h >= N` at a message start -/
  | unknownHeader (h : Nat)
  /-- code 2: the stream ended with `DEC.fill` bits of a message held -/
  | streamUnderrun (fill : Nat)
  /-- code 3: a ranged value outside `[Min, Max]`, with the instruction's name -/
  | payloadOutOfRange (inst : String) (v : Int)
deriving DecidableEq, Repr

/-- What `raise F(info)` (R15) reports to the caller: one of the faults above, or `DecoderFaulted` with the latched
fault (R251, code 4). -/
inductive Raised where
  | fault (f : BlockFault)
  | decoderFaulted (f : BlockFault)
deriving DecidableEq, Repr

end Sys2Proof
end

