-- ==== Sys2Proof/Config.lean ====
section
/-! DEFINITION. The configuration of an agent: its parameter set (00_scope.md R7, R8; 10_state.md R22), as plain data.
Nothing of the block is left as a free value: every reset value is given and every operation is a function of the state
and the operands (93_implementation_defined.md, end of part 2). -/

namespace Sys2Proof

/-- The signedness `S` of a wrapped integer type (R8). -/
inductive Signedness where
  | unsigned
  | signed
deriving DecidableEq, Repr

/-- The wrapped integer type of a number or ranged payload: width `TW` and signedness `S` (R8). -/
structure IntType where
  width : Nat
  sign  : Signedness
deriving DecidableEq, Repr

/-- `DICT[i].kind` (R8): which codec of 40_payload_codecs.md the payload uses. -/
inductive Kind where
  | bitset
  | number (t : IntType)
  | ranged (t : IntType) (min max : Int)
deriving DecidableEq, Repr

/-- One dictionary entry `DICT[i]` (R8): an instruction. -/
structure Entry where
  name : String
  size : Nat
  kind : Kind
deriving DecidableEq, Repr

/-- A parameter set (R8). `halt` is the set's designated halt message, used by the environment alone (R222); `none`
where no source designates one (30_encoding.md R99). -/
structure ParamSet where
  ha   : Nat
  sw   : Nat
  pw   : Nat
  dict : List Entry
  halt : Option Msg
deriving DecidableEq, Repr

end Sys2Proof
end

