-- ==== Sys2Proof/Machine/Operands.lean ====
section
/-! DEFINITION. Operand forms: bit-vector operations (00_scope.md R11), `round_up` and `clog2` (R12, R13), the derived
constants of a parameter set (R10, 30_encoding.md R82 to R84), and which operands are well formed (R9,
41_message_packer.md R130, R136). -/

namespace Sys2Proof

/-! ### Bit vectors (R11) -/

/-- A bit vector read as an unsigned integer: `a ++ b = a * 2^width(b) + b`. -/
def Bits.toNat : Bits → Nat
  | [] => 0
  | b :: r => (if b then 2 ^ r.length else 0) + Bits.toNat r

/-- The `w`-bit vector of `n mod 2^w`. -/
def Bits.ofNat : Nat → Nat → Bits
  | 0, _ => []
  | w + 1, n => n.testBit w :: Bits.ofNat w n

/-- A fixed-width field as a bit vector. -/
def Bits.ofBitVec {w : Nat} (v : BitVec w) : Bits := Bits.ofNat w v.toNat

/-- A bit vector as a fixed-width field. -/
def Bits.toBitVec (w : Nat) (b : Bits) : BitVec w := BitVec.ofNat w (Bits.toNat b)

/-- `v[n-1:0]`, which is also `trunc_n(v)`: the low `n` bits. -/
def Bits.low (n : Nat) (v : Bits) : Bits := v.drop (v.length - n)

/-- The top `n` bits, the earliest in stream order. -/
def Bits.high (n : Nat) (v : Bits) : Bits := v.take n

/-- The top bit, which at a message start is the comma bit. -/
def Bits.top (v : Bits) : Bool := v.headD false

/-- `zext_n(v)`: widened to `n` bits with zeros on the left. -/
def Bits.zext (n : Nat) (v : Bits) : Bits := zeros (n - v.length) ++ v

/-- `(buf << width(v)) | v` in a register of `buf`'s width (10_state.md R26, R31). -/
def Bits.shiftIn (buf v : Bits) : Bits := (buf ++ v).drop v.length

/-- The first `n` pieces of `w` bits, most significant first (20_memory.md R52). -/
def Bits.chunks (w : Nat) : Nat → Bits → List Bits
  | 0, _ => []
  | n + 1, v => v.take w :: Bits.chunks w n (v.drop w)

/-! ### Integer functions (R12, R13) -/

/-- `round_up(x, a)` (R12): the least multiple of `a` that is `>= x`. -/
def roundUp (x a : Nat) : Nat := (x + a - 1) / a * a

/-- The search behind `clog2`: from `k` upwards, the first `k` with `2^k >= n`. -/
def clog2From : Nat → Nat → Nat → Nat
  | 0, k, _ => k
  | fuel + 1, k, n => if n ≤ 2 ^ k then k else clog2From fuel (k + 1) n

/-- `clog2(n)` (R13): the least `k >= 0` with `2^k >= n`. -/
def clog2 (n : Nat) : Nat := clog2From n 0 n

/-! ### Derived constants of a parameter set (R10) -/

/-- `N`, the number of dictionary entries. -/
def ParamSet.n (c : ParamSet) : Nat := c.dict.length

/-- `RATIO = PW / SW`. -/
def ParamSet.ratio (c : ParamSet) : Nat := c.pw / c.sw

/-- `IDXW = clog2(N)` (30_encoding.md R82). -/
def ParamSet.idxw (c : ParamSet) : Nat := clog2 c.n

/-- `HW = round_up(1 + IDXW, HA)` (R83). -/
def ParamSet.hw (c : ParamSet) : Nat := roundUp (1 + c.idxw) c.ha

/-- `WW[i] = max(round_up(HW + DICT[i].size, SW), PW)` (R84), for the entry `DICT[i]`. -/
def ParamSet.ww (c : ParamSet) (e : Entry) : Nat := max (roundUp (c.hw + e.size) c.sw) c.pw

/-- `MAXWW`, the largest word width of the dictionary. -/
def ParamSet.maxww (c : ParamSet) : Nat := (c.dict.map c.ww).foldr max 0

/-- `ENC_CAP = MAXWW + PW` (10_state.md R26). -/
def ParamSet.encCap (c : ParamSet) : Nat := c.maxww + c.pw

/-- `DEC_CAP = MAXWW` (10_state.md R31). -/
def ParamSet.decCap (c : ParamSet) : Nat := c.maxww

/-- `PADSW = 1 ++ zeros(SW-1)`, the padding sub-word the Encoder writes (30_encoding.md R90). -/
def ParamSet.padSubword (c : ParamSet) : Bits := true :: zeros (c.sw - 1)

/-! ### Well-formed operands -/

/-- The least value of an integer type. -/
def IntType.least (t : IntType) : Int :=
  match t.sign with
  | .unsigned => 0
  | .signed => -(2 ^ (t.width - 1))

/-- The greatest value of an integer type. -/
def IntType.greatest (t : IntType) : Int :=
  match t.sign with
  | .unsigned => 2 ^ t.width - 1
  | .signed => 2 ^ (t.width - 1) - 1

/-- `v` is a value of the integer type. -/
def IntType.contains (t : IntType) (v : Int) : Bool := decide (t.least ≤ v) && decide (v ≤ t.greatest)

/-- `TW >= 1` (R8). -/
def IntType.wf (t : IntType) : Bool := decide (1 ≤ t.width)

/-- `Min <= Max`, both representable in the type (R8). -/
def IntType.boundsWf (t : IntType) (min max : Int) : Bool :=
  t.wf && decide (min ≤ max) && t.contains min && t.contains max

/-- The constraints of R8 on a payload kind. -/
def Kind.wf : Kind → Bool
  | .bitset => true
  | .number t => t.wf
  | .ranged t min max => t.boundsWf min max

/-- `p` is a value of `e`'s payload type, its bound not looked at: the operand `MSG.make` takes (R136). -/
def Payload.typed (e : Entry) (p : Payload) : Bool :=
  match e.kind, p with
  | .bitset, .bits b => b.length == e.size
  | .number t, .int v => t.contains v
  | .ranged t _ _, .int v => t.contains v
  | _, _ => false

/-- `v` is inside the bound of a ranged kind; the other kinds have none (R116). -/
def Kind.inBound : Kind → Payload → Bool
  | .ranged _ min max, .int v => decide (min ≤ v) && decide (v ≤ max)
  | _, _ => true

/-- `p` is a payload value of the instruction `e` (R130): of its type and, for a ranged instruction, a value that
`RANGED.make` accepted. -/
def Payload.wf (e : Entry) (p : Payload) : Bool := Payload.typed e p && e.kind.inBound p

/-- `m` is a message of the dictionary of `c` (R130, R136). -/
def Msg.wf (c : ParamSet) (m : Msg) : Bool :=
  match c.dict[m.idx]? with
  | some e => Payload.wf e m.payload
  | none => false

/-- The constraints on a parameter set (R8, R9): a set that breaks one is refused. -/
def ParamSet.wf (c : ParamSet) : Bool :=
  decide (1 ≤ c.ha) && decide (1 ≤ c.sw) && decide (1 ≤ c.pw) && decide (c.pw % c.sw = 0) &&
    decide (1 ≤ c.n) && decide (c.dict.map Entry.name).Nodup && c.dict.all (fun e => e.kind.wf) &&
    (match c.halt with
      | some m => m.wf c
      | none => true)

/-- The index an instruction name or index stands for (R136); `none` where it is not in the dictionary. -/
def ParamSet.find (c : ParamSet) : InstrRef → Option Nat
  | .name n => c.dict.findIdx? (fun e => e.name == n)
  | .index i => if i < c.n then some i else none

end Sys2Proof
end

