-- ==== Sys2Proof/Machine/Codecs.lean ====
section
/-! DEFINITION. The payload codecs (40_payload_codecs.md R110 to R121) and the message packer
(41_message_packer.md R132 to R137), as the pure functions the spec gives; none touches the machine's state. -/

namespace Sys2Proof

/-! ### Payload codecs -/

/-- `BITSET.encode` (R111): the identity. -/
def bitsetEncode (v : Bits) : Bits := v

/-- `BITSET.decode` (R112): the identity. -/
def bitsetDecode (b : Bits) : Bits := b

/-- The bit pattern of an integer of the type (R121): `v mod 2^TW`. -/
def IntType.pattern (t : IntType) (v : Int) : Bits := Bits.ofNat t.width (v % 2 ^ t.width).toNat

/-- The integer a pattern stands for (R121): itself, or `pattern - 2^TW` for a signed type with the top bit set. -/
def IntType.value (t : IntType) (pat : Bits) : Int :=
  match t.sign with
  | .unsigned => (Bits.toNat pat : Int)
  | .signed => if Bits.top pat then (Bits.toNat pat : Int) - 2 ^ t.width else (Bits.toNat pat : Int)

/-- `NUMBER.encode` (R113): the pattern, zero-extended or truncated to `size` bits. -/
def numberEncode (t : IntType) (size : Nat) (v : Int) : Bits :=
  if t.width ≤ size then Bits.zext size (t.pattern v) else Bits.low size (t.pattern v)

/-- `NUMBER.decode` (R114): the payload bits, zero-extended or truncated to `TW` bits, read as the type. -/
def numberDecode (t : IntType) (b : Bits) : Int :=
  t.value (if b.length ≤ t.width then Bits.zext t.width b else Bits.low t.width b)

/-- `RANGED.make` (R116): the value, or `PayloadOutOfRange` with the instruction and the value. -/
def rangedMake (inst : String) (min max v : Int) : Except BlockFault Int :=
  if v < min ∨ max < v then .error (.payloadOutOfRange inst v) else .ok v

/-- `RANGED.encode` (R117): encoded as the number it wraps; `Min` is not subtracted. -/
def rangedEncode (t : IntType) (size : Nat) (v : Int) : Bits := numberEncode t size v

/-- `RANGED.decode` (R118): `NUMBER.decode`, then `RANGED.make`; it faults and does not clamp. -/
def rangedDecode (inst : String) (t : IntType) (min max : Int) (b : Bits) : Except BlockFault Int :=
  rangedMake inst min max (numberDecode t b)

/-- `PAYLOAD.eq` (R119), for two payload values of one instruction. -/
def payloadEq (p q : Payload) : Bool :=
  match p, q with
  | .bits a, .bits b => decide (a = b)
  | .int a, .int b => decide (a = b)
  | _, _ => false

/-- `encode(p)` of the codec of `DICT[i].kind` (R134). A payload of another type is refused before this is asked
(R136); it gives zeros here so that the function is total. -/
def encodePayload (e : Entry) (p : Payload) : Bits :=
  match e.kind, p with
  | .bitset, .bits b => bitsetEncode b
  | .number t, .int v => numberEncode t e.size v
  | .ranged t _ _, .int v => rangedEncode t e.size v
  | _, _ => zeros e.size

/-- `decode(b)` of the codec of `DICT[i].kind` (R135, 43_decoder.md R172 line 12). -/
def decodePayload (e : Entry) (b : Bits) : Except BlockFault Payload :=
  match e.kind with
  | .bitset => .ok (.bits (bitsetDecode b))
  | .number t => .ok (.int (numberDecode t b))
  | .ranged t min max =>
    match rangedDecode e.name t min max b with
    | .ok v => .ok (.int v)
    | .error f => .error f

/-- A valid payload value (R115, R120): of the instruction's type and bound, and unchanged by the round trip. -/
def Payload.valid (e : Entry) (p : Payload) : Bool :=
  Payload.wf e p &&
    (match e.kind, p with
      | .number t, .int v => decide (numberDecode t (numberEncode t e.size v) = v)
      | .ranged t _ _, .int v => decide (numberDecode t (numberEncode t e.size v) = v)
      | _, _ => true)

/-- A message with a valid payload (R138, R180). -/
def Msg.valid (c : ParamSet) (m : Msg) : Bool :=
  match c.dict[m.idx]? with
  | some e => Payload.valid e m.payload
  | none => false

/-! ### Message packer -/

/-- `header(i) = zext_HW(i)` (30_encoding.md R85; `MSG.header`, R132). -/
def ParamSet.header (c : ParamSet) (i : Nat) : Bits := Bits.ofNat c.hw i

/-- `MSG.pack` (R134) for the entry `e` at index `i`: header, zero padding bits, payload. -/
def packEntry (c : ParamSet) (i : Nat) (e : Entry) (p : Payload) : Bits :=
  c.header i ++ zeros (c.ww e - c.hw - e.size) ++ encodePayload e p

/-- `MSG.pack` (R134). A message whose index is not in the dictionary is refused before this is asked (R136). -/
def pack (c : ParamSet) (m : Msg) : Bits :=
  match c.dict[m.idx]? with
  | some e => packEntry c m.idx e m.payload
  | none => []

/-- What `MSG.unpack` answers. -/
inductive Unpacked where
  /-- the message the bits hold -/
  | msg (m : Msg)
  /-- the fault the operation raises -/
  | raised (f : BlockFault)
  /-- not exactly the bits of one message: `require ww = WW[h]` fails -/
  | wrongWidth
  /-- the first bit is 1: a padding sub-word, not a message (R135, R252) -/
  | notMessage
deriving DecidableEq, Repr

/-- `MSG.unpack` (R135), in the order of its pseudocode; bits whose first bit is 1 are no operand of it (60_exceptions.md
R251, R252). -/
def unpack (c : ParamSet) (raw : Bits) : Unpacked :=
  if raw.length < c.hw then .wrongWidth
  else if Bits.top raw then .notMessage
  else
    match c.dict[Bits.toNat (Bits.high c.hw raw)]? with
    | none => .raised (.unknownHeader (Bits.toNat (Bits.high c.hw raw)))
    | some e =>
      if raw.length = c.ww e then
        match decodePayload e (Bits.low e.size raw) with
        | .ok p => .msg ⟨Bits.toNat (Bits.high c.hw raw), p⟩
        | .error f => .raised f
      else .wrongWidth

/-- `MSG.eq` (R137) under `c`: the indices are the same, and the payloads are equal by `PAYLOAD.eq` or have `size = 0`,
the rule's corner case (DEDUCED for number and ranged payloads, log entry 32). -/
def msgEq (c : ParamSet) (m k : Msg) : Bool :=
  m.idx == k.idx && (c.dict[m.idx]?.any (fun e => e.size == 0) || payloadEq m.payload k.payload)

end Sys2Proof
end

