-- ==== Sys2Proof/Machine/ParameterSets.lean ====
section
/-! DEFINITION. The parameter sets the spec names: `REF8`, the source's only instance (30_encoding.md R98), and the
spec's invented test sets whose rows opcode_table.json holds (95_test_vectors.md section 2). -/

namespace Sys2Proof

/-- The parameter sets that have rows in opcode_table.json (R102). -/
inductive SetName where
  | ref8
  | cfg16
  | cfg64
  | cfg3
  | cfgs
  | cfg1
deriving DecidableEq, Repr

/-- A bitset entry. -/
def Entry.raw (name : String) (size : Nat) : Entry := ⟨name, size, .bitset⟩

/-- `REF8` (R98): `{A(0 bits), B(8 bits)}`, header alignment, sub-word and physical word 8. -/
def ref8 : ParamSet := ⟨8, 8, 8, [.raw "A" 0, .raw "B" 8], none⟩

def cfg16 : ParamSet := ⟨1, 8, 16, [.raw "X" 3, .raw "Y" 12, .raw "Z" 0, .raw "W" 14], none⟩

def cfg64 : ParamSet :=
  ⟨8, 64, 64, [.raw "P0" 0, .raw "P1" 56, .raw "P2" 57, ⟨"P3", 64, .number ⟨64, .unsigned⟩⟩,
    ⟨"P4", 3, .ranged ⟨8, .unsigned⟩ 0 5⟩], none⟩

def cfg3 : ParamSet := ⟨4, 4, 12, [.raw "N0" 0, .raw "N1" 4, .raw "N2" 9, .raw "N3" 1, .raw "N4" 20], none⟩

/-- The signed eight-bit type of `CFGS`. -/
def int8 : IntType := ⟨8, .signed⟩

def cfgs : ParamSet := ⟨8, 8, 8, [⟨"S", 8, .number int8⟩, ⟨"T", 4, .number int8⟩, ⟨"U", 12, .number int8⟩], none⟩

def cfg1 : ParamSet := ⟨1, 4, 4, [.raw "ONLY" 3], none⟩

/-- `CFGW`: entries `Q0` to `Q199`, `Qk` of size `k mod 5`; its rows follow the generic one (R102). -/
def cfgw : ParamSet :=
  ⟨8, 4, 8, (List.range 200).map (fun k => .raw ("Q" ++ toString k) (k % 5)), none⟩

/-- The parameter set a name stands for. -/
def SetName.params : SetName → ParamSet
  | .ref8 => Sys2Proof.ref8
  | .cfg16 => Sys2Proof.cfg16
  | .cfg64 => Sys2Proof.cfg64
  | .cfg3 => Sys2Proof.cfg3
  | .cfgs => Sys2Proof.cfgs
  | .cfg1 => Sys2Proof.cfg1

/-- The named sets, in the opcode table's order. -/
def SetName.all : List SetName := [.ref8, .cfg16, .cfg64, .cfg3, .cfgs, .cfg1]

/-- Which named set `c` is, its designated halt message (which is the environment's, R8) not looked at. -/
def setName? (c : ParamSet) : Option SetName :=
  SetName.all.find? (fun n => decide (n.params = { c with halt := none }))

end Sys2Proof
end

