-- ==== Sys2Proof/Syntax.lean ====
section
/-! DEFINITION. The instructions: one constructor per row of spec/opcode_table.json. The wire rows are the items that can
stand in the word stream (30_encoding.md R81, R86, R90, R93), arriving at the Decoder; the operation rows are the block's
named operations with the operands their rules give (40 to 43). -/

namespace Sys2Proof

inductive Instr where
  -- generic wire items
  /-- `MSG`: index, padding bits, payload bits (R86) -/
  | msg (i : Nat) (z p : Bits)
  /-- `PAD`: the filler bits (R90) -/
  | pad (x : Bits)
  /-- `ILLEGAL_HEADER`: the header value and the bits that complete its last sub-word (R93) -/
  | illegalHeader (h : Nat) (t : Bits)
  -- REF8
  | ref8A
  | ref8B (p : BitVec 8)
  | ref8Pad (x : BitVec 7)
  -- CFG16
  | cfg16X (z : BitVec 10) (p : BitVec 3)
  | cfg16Y (z : BitVec 1) (p : BitVec 12)
  | cfg16Z (z : BitVec 13)
  | cfg16W (z : BitVec 7) (p : BitVec 14)
  | cfg16Pad (x : BitVec 7)
  -- CFG64
  | cfg64P0 (z : BitVec 56)
  | cfg64P1 (p : BitVec 56)
  | cfg64P2 (z : BitVec 63) (p : BitVec 57)
  | cfg64P3 (z : BitVec 56) (p : BitVec 64)
  | cfg64P4 (z : BitVec 53) (p : BitVec 3)
  | cfg64Pad (x : BitVec 63)
  -- CFG3
  | cfg3N0 (z : BitVec 8)
  | cfg3N1 (z : BitVec 4) (p : BitVec 4)
  | cfg3N2 (z : BitVec 3) (p : BitVec 9)
  | cfg3N3 (z : BitVec 7) (p : BitVec 1)
  | cfg3N4 (p : BitVec 20)
  | cfg3Pad (x : BitVec 3)
  -- CFGS
  | cfgsS (p : BitVec 8)
  | cfgsT (z : BitVec 4) (p : BitVec 4)
  | cfgsU (z : BitVec 4) (p : BitVec 12)
  | cfgsPad (x : BitVec 7)
  -- CFG1
  | cfg1Only (p : BitVec 3)
  | cfg1Pad (x : BitVec 3)
  -- payload codecs
  | bitsetEncode (v : Bits)
  | bitsetDecode (b : Bits)
  | numberEncode (t : IntType) (size : Nat) (v : Int)
  | numberDecode (t : IntType) (b : Bits)
  | rangedMake (inst : String) (t : IntType) (min max v : Int)
  | rangedEncode (t : IntType) (min max : Int) (size : Nat) (v : Int)
  | rangedDecode (inst : String) (t : IntType) (min max : Int) (b : Bits)
  | payloadEq (e : Entry) (p q : Payload)
  -- message packer, on the dictionary of one direction
  | msgHeader (d : Direction) (m : Msg)
  | msgWordWidth (d : Direction) (i : Nat)
  | msgPack (d : Direction) (m : Msg)
  | msgUnpack (d : Direction) (raw : Bits)
  | msgMake (d : Direction) (r : InstrRef) (p : Payload)
  | msgEq (d : Direction) (m k : Msg)
  -- Encoder
  | encEncode (m : Msg)
  | encEncodeBatch (ms : List Msg)
  | encFlush
  | encReset
  -- Decoder
  | decDecode (w : Bits)
  | decSubword (s : Bits)
  | decAddListener (l : Listener)
  | decEndOfStream
  | decReset
deriving DecidableEq, Repr

end Sys2Proof
end

