-- ==== Sys2Proof/WellFormed.lean ====
section
/-! DEFINITION. Which instructions are well formed under the parameter sets of the two agents. What fails here is what
60_exceptions.md R256 calls a refusal: it "cannot be written down with the types of this spec". -/

namespace Sys2Proof

/-- The parameter set of a direction (00_scope.md R7). -/
def Direction.pick (d : Direction) (tx rx : ParamSet) : ParamSet :=
  match d with
  | .toDevice => tx
  | .fromDevice => rx

/-- The widths and ranges of a generic wire item under `c` (30_encoding.md R86, R90, R93); a row of a named parameter
set has its widths in its type. -/
def Instr.widthsOk (c : ParamSet) : Instr → Bool
  | .msg i z p =>
    match c.dict[i]? with
    | some e => p.length == e.size && z.length == c.ww e - c.hw - e.size
    | none => false
  | .pad x => x.length + 1 == c.sw
  | .illegalHeader h t =>
    decide (c.n ≤ h) && decide (h < 2 ^ (c.hw - 1)) && t.length + c.hw == roundUp c.hw c.sw
  | _ => true

/-- The operands of an operation are of the types its rule gives (40_payload_codecs.md, 41_message_packer.md,
42_encoder.md, 43_decoder.md). -/
def Instr.operandsOk (tx rx : ParamSet) : Instr → Bool
  | .numberEncode t _ v => t.wf && t.contains v
  | .numberDecode t _ => t.wf
  | .rangedMake _ t min max v => t.boundsWf min max && t.contains v
  | .rangedEncode t min max _ v => t.boundsWf min max && decide (min ≤ v) && decide (v ≤ max)
  | .rangedDecode _ t min max _ => t.boundsWf min max
  | .payloadEq e p q => e.kind.wf && Payload.wf e p && Payload.wf e q
  | .msgHeader d m => m.wf (d.pick tx rx)
  | .msgWordWidth d i => decide (i < (d.pick tx rx).n)
  | .msgPack d m => m.wf (d.pick tx rx)
  | .msgUnpack d raw =>
    decide (unpack (d.pick tx rx) raw ≠ .wrongWidth) && decide (unpack (d.pick tx rx) raw ≠ .notMessage)
  | .msgMake d r p =>
    match (d.pick tx rx).find r with
    | some i =>
      match (d.pick tx rx).dict[i]? with
      | some e => Payload.typed e p
      | none => false
    | none => false
  | .msgEq d m k => m.wf (d.pick tx rx) && k.wf (d.pick tx rx)
  | .encEncode m => m.wf tx
  | .encEncodeBatch ms => ms.all (fun m => m.wf tx)
  | .decDecode w => w.length == rx.pw
  | .decSubword s => s.length == rx.sw
  | _ => true

/-- Well formed under the to-device set `tx` and the from-device set `rx`: both sets are legal (R9), and the operands
are. -/
def WellFormed (tx rx : ParamSet) (i : Instr) : Bool := tx.wf && rx.wf && i.widthsOk rx && i.operandsOk tx rx

end Sys2Proof
end

