-- ==== Sys2Proof/Decode.lean ====
section
/-! DEFINITION. The wire format (30_encoding.md): the item that stands at a message start of a bit stream, under a
parameter set, and the encoder written from the same formats. Operations "have no bit pattern in the document" (R102),
so they have no encoding here either. -/

namespace Sys2Proof

/-- Why bits are no wire item. -/
inductive DecodeError where
  /-- the parameter set breaks R9 -/
  | illFormedParameters
  /-- the bits end inside the item: fewer than a sub-word, than the header's sub-words, or than `WW[h]` (R81) -/
  | incompleteItem
deriving DecidableEq, Repr

/-- The row of a padding sub-word with the filler `x` (R90): the named set's own row, else the generic one. -/
def padRow (n : Option SetName) (x : Bits) : Instr :=
  match n with
  | some .ref8 => .ref8Pad (Bits.toBitVec 7 x)
  | some .cfg16 => .cfg16Pad (Bits.toBitVec 7 x)
  | some .cfg64 => .cfg64Pad (Bits.toBitVec 63 x)
  | some .cfg3 => .cfg3Pad (Bits.toBitVec 3 x)
  | some .cfgs => .cfgsPad (Bits.toBitVec 7 x)
  | some .cfg1 => .cfg1Pad (Bits.toBitVec 3 x)
  | none => .pad x

/-- The row of a message with index `i`, padding bits `z` and payload bits `p` (R86): the named set's own row, else the
generic one. -/
def msgRow (n : Option SetName) (i : Nat) (z p : Bits) : Instr :=
  match n, i with
  | some .ref8, 0 => .ref8A
  | some .ref8, 1 => .ref8B (Bits.toBitVec 8 p)
  | some .cfg16, 0 => .cfg16X (Bits.toBitVec 10 z) (Bits.toBitVec 3 p)
  | some .cfg16, 1 => .cfg16Y (Bits.toBitVec 1 z) (Bits.toBitVec 12 p)
  | some .cfg16, 2 => .cfg16Z (Bits.toBitVec 13 z)
  | some .cfg16, 3 => .cfg16W (Bits.toBitVec 7 z) (Bits.toBitVec 14 p)
  | some .cfg64, 0 => .cfg64P0 (Bits.toBitVec 56 z)
  | some .cfg64, 1 => .cfg64P1 (Bits.toBitVec 56 p)
  | some .cfg64, 2 => .cfg64P2 (Bits.toBitVec 63 z) (Bits.toBitVec 57 p)
  | some .cfg64, 3 => .cfg64P3 (Bits.toBitVec 56 z) (Bits.toBitVec 64 p)
  | some .cfg64, 4 => .cfg64P4 (Bits.toBitVec 53 z) (Bits.toBitVec 3 p)
  | some .cfg3, 0 => .cfg3N0 (Bits.toBitVec 8 z)
  | some .cfg3, 1 => .cfg3N1 (Bits.toBitVec 4 z) (Bits.toBitVec 4 p)
  | some .cfg3, 2 => .cfg3N2 (Bits.toBitVec 3 z) (Bits.toBitVec 9 p)
  | some .cfg3, 3 => .cfg3N3 (Bits.toBitVec 7 z) (Bits.toBitVec 1 p)
  | some .cfg3, 4 => .cfg3N4 (Bits.toBitVec 20 p)
  | some .cfgs, 0 => .cfgsS (Bits.toBitVec 8 p)
  | some .cfgs, 1 => .cfgsT (Bits.toBitVec 4 z) (Bits.toBitVec 4 p)
  | some .cfgs, 2 => .cfgsU (Bits.toBitVec 4 z) (Bits.toBitVec 12 p)
  | some .cfg1, 0 => .cfg1Only (Bits.toBitVec 3 p)
  | _, _ => .msg i z p

/-- The item at the front of `raw`, and the bits after it, under the set `c` whose rows are those of `n`: a padding
sub-word where the first bit is 1 (R63, R90), else a message of `WW[h]` bits (R86, R95), else an illegal header with the
bits that complete its last sub-word (R93). -/
def decodeRow (n : Option SetName) (c : ParamSet) (raw : Bits) : Except DecodeError (Instr × Bits) :=
  if c.wf = false then .error .illFormedParameters
  else if raw.length < c.sw then .error .incompleteItem
  else if Bits.top raw then .ok (padRow n ((raw.take c.sw).drop 1), raw.drop c.sw)
  else if raw.length < roundUp c.hw c.sw then .error .incompleteItem
  else
    match c.dict[Bits.toNat (raw.take c.hw)]? with
    | none =>
      .ok (.illegalHeader (Bits.toNat (raw.take c.hw)) ((raw.take (roundUp c.hw c.sw)).drop c.hw),
        raw.drop (roundUp c.hw c.sw))
    | some e =>
      if raw.length < c.ww e then .error .incompleteItem
      else
        .ok (msgRow n (Bits.toNat (raw.take c.hw)) ((raw.take (c.ww e - e.size)).drop c.hw)
          ((raw.take (c.ww e)).drop (c.ww e - e.size)), raw.drop (c.ww e))

/-- The decoder: the item at a message start of `raw` under `c`, and the rest of the bits. -/
def decode (c : ParamSet) (raw : Bits) : Except DecodeError (Instr × Bits) := decodeRow (setName? c) c raw

/-- A row's bits: the header field of `hw` bits holding `i`, the padding bits, the payload bits. -/
def rowBits (hw i : Nat) {zw pw : Nat} (z : BitVec zw) (p : BitVec pw) : Bits :=
  Bits.ofNat hw i ++ (Bits.ofBitVec z ++ Bits.ofBitVec p)

/-- A padding row's bits: the comma bit and the filler. -/
def padBits {xw : Nat} (x : BitVec xw) : Bits := true :: Bits.ofBitVec x

/-- The encoder: the bits of a wire item, a row of a named set by its row's `encoding` string in opcode_table.json, a
generic row by R86, R90 and R93 under `c`. An operation has none (R102). -/
def encode (c : ParamSet) : Instr → Option Bits
  | .msg i z p => some (Bits.ofNat c.hw i ++ (z ++ p))
  | .pad x => some (true :: x)
  | .illegalHeader h t => some (Bits.ofNat c.hw h ++ t)
  | .ref8A => some (rowBits 8 0 0#0 0#0)
  | .ref8B p => some (rowBits 8 1 0#0 p)
  | .ref8Pad x => some (padBits x)
  | .cfg16X z p => some (rowBits 3 0 z p)
  | .cfg16Y z p => some (rowBits 3 1 z p)
  | .cfg16Z z => some (rowBits 3 2 z 0#0)
  | .cfg16W z p => some (rowBits 3 3 z p)
  | .cfg16Pad x => some (padBits x)
  | .cfg64P0 z => some (rowBits 8 0 z 0#0)
  | .cfg64P1 p => some (rowBits 8 1 0#0 p)
  | .cfg64P2 z p => some (rowBits 8 2 z p)
  | .cfg64P3 z p => some (rowBits 8 3 z p)
  | .cfg64P4 z p => some (rowBits 8 4 z p)
  | .cfg64Pad x => some (padBits x)
  | .cfg3N0 z => some (rowBits 4 0 z 0#0)
  | .cfg3N1 z p => some (rowBits 4 1 z p)
  | .cfg3N2 z p => some (rowBits 4 2 z p)
  | .cfg3N3 z p => some (rowBits 4 3 z p)
  | .cfg3N4 p => some (rowBits 4 4 0#0 p)
  | .cfg3Pad x => some (padBits x)
  | .cfgsS p => some (rowBits 8 0 0#0 p)
  | .cfgsT z p => some (rowBits 8 1 z p)
  | .cfgsU z p => some (rowBits 8 2 z p)
  | .cfgsPad x => some (padBits x)
  | .cfg1Only p => some (rowBits 1 0 0#0 p)
  | .cfg1Pad x => some (padBits x)
  | .bitsetEncode _ | .bitsetDecode _ | .numberEncode _ _ _ | .numberDecode _ _ => none
  | .rangedMake _ _ _ _ _ | .rangedEncode _ _ _ _ _ | .rangedDecode _ _ _ _ _ | .payloadEq _ _ _ => none
  | .msgHeader _ _ | .msgWordWidth _ _ | .msgPack _ _ | .msgUnpack _ _ | .msgMake _ _ _ | .msgEq _ _ _ => none
  | .encEncode _ | .encEncodeBatch _ | .encFlush | .encReset => none
  | .decDecode _ | .decSubword _ | .decAddListener _ | .decEndOfStream | .decReset => none

/-- The named set whose row a wire item is; `none` for a generic row and for an operation. -/
def Instr.rowSet : Instr → Option SetName
  | .ref8A | .ref8B _ | .ref8Pad _ => some .ref8
  | .cfg16X _ _ | .cfg16Y _ _ | .cfg16Z _ | .cfg16W _ _ | .cfg16Pad _ => some .cfg16
  | .cfg64P0 _ | .cfg64P1 _ | .cfg64P2 _ _ | .cfg64P3 _ _ | .cfg64P4 _ _ | .cfg64Pad _ => some .cfg64
  | .cfg3N0 _ | .cfg3N1 _ _ | .cfg3N2 _ _ | .cfg3N3 _ _ | .cfg3N4 _ | .cfg3Pad _ => some .cfg3
  | .cfgsS _ | .cfgsT _ _ | .cfgsU _ _ | .cfgsPad _ => some .cfgs
  | .cfg1Only _ | .cfg1Pad _ => some .cfg1
  | _ => none

/-- `i` is the row `decode c` answers for its item: a row of the named set that `c` is, or a generic row where `c` is no
named set; an illegal header has the generic row alone. -/
def Instr.isRowOf (c : ParamSet) (i : Instr) : Bool :=
  match i with
  | .illegalHeader _ _ => true
  | _ => (encode c i).isSome && decide (i.rowSet = setName? c)

/-- The items of `c` that have rows of their own: messages and padding sub-words, by their widths. -/
def ParamSet.itemWidths (c : ParamSet) : List Nat := c.dict.map c.ww ++ [c.sw]

/-- The row of the named set `n` that `w` is in one of the widths `ws`: the table gives a row's bits in whole bytes, so a
row of fewer bits has zeros above it. -/
def tableRow (n : SetName) (nbits w : Nat) : List Nat → Option (Bits × Instr)
  | [] => none
  | ww :: ws =>
    if (ww = nbits ∨ roundUp ww 8 = nbits) ∧ w < 2 ^ ww then
      match decodeRow (some n) n.params (Bits.ofNat ww w) with
      | .ok (i, []) => if i.rowSet = some n then some (Bits.ofNat ww w, i) else tableRow n nbits w ws
      | _ => tableRow n nbits w ws
    else tableRow n nbits w ws

/-- The first row of the table, in the table's order of parameter sets, that `w` matches: its set, bits and
instruction. -/
def tableLookup (nbits w : Nat) : List SetName → Option (SetName × Bits × Instr)
  | [] => none
  | n :: ns =>
    match tableRow n nbits w n.params.itemWidths with
    | some (b, i) => some (n, b, i)
    | none => tableLookup nbits w ns

/-- The instruction the decoder reads from a table word. The rows of different parameter sets overlap (a bit pattern
means an instruction only together with a parameter set, 20_memory.md R54), so the first set in the table's order that
has a row for the word is taken; a word of no row is read under `REF8`. -/
def decodeTableWord (nbits w : Nat) : Option Instr :=
  match tableLookup nbits w SetName.all with
  | some (_, _, i) => some i
  | none =>
    match decodeRow (some .ref8) ref8 (Bits.ofNat nbits w) with
    | .ok (i, []) => some i
    | _ => none

end Sys2Proof
end

