-- ==== Sys2Proof/Machine/State.lean ====
section
/-! DEFINITION. The machine's state, as plain data: the two agents of the block (10_state.md R20 to R35), and on the
caller's side what the environment holds (44_environment.md): the operations it has asked for, what the last one
returned, the listener calls it has seen, the connection and the double buffer. -/

namespace Sys2Proof.Machine

/-- An Encoder (R25 to R28) with its configuration (R22). -/
structure Encoder where
  /-- `CFG`, the to-device parameter set; no operation writes it -/
  cfg  : ParamSet
  /-- `ENC.buf : bits[ENC_CAP]`, valid bits right-aligned, zero above (R26) -/
  buf  : Bits
  /-- `ENC.fill` (R27) -/
  fill : Nat
  /-- `ENC.SINK`, the physical words pushed since reset, oldest first (R28) -/
  sink : List Bits
deriving DecidableEq, Repr

/-- A Decoder (R30 to R35) with its configuration (R22). -/
structure Decoder where
  /-- `CFG`, the from-device parameter set; no operation writes it -/
  cfg       : ParamSet
  /-- `DEC.buf : bits[DEC_CAP]`, valid bits right-aligned, zero above (R31) -/
  buf       : Bits
  /-- `DEC.fill` (R32) -/
  fill      : Nat
  /-- `DEC.fault`, the fault latch (R33) -/
  fault     : Option BlockFault
  /-- `DEC.QUEUE`, oldest first (R34) -/
  queue     : List Msg
  /-- `DEC.LISTENERS`, in the order added (R35) -/
  listeners : List Listener
deriving DecidableEq, Repr

/-- A freshly constructed Encoder (R39, R154). -/
def Encoder.fresh (c : ParamSet) : Encoder := ⟨c, zeros c.encCap, 0, []⟩

/-- A freshly constructed Decoder (R39, R176). -/
def Decoder.fresh (c : ParamSet) : Decoder := ⟨c, zeros c.decCap, 0, none, [], []⟩

/-! ### The environment (44_environment.md) -/

/-- The two slots of the double buffer (R205). -/
inductive SlotId where
  | A
  | B
deriving DecidableEq, Repr

/-- The double buffer (R205, R206, R213): a slot holds a packet, the words that are valid in it. -/
structure DoubleBuffer where
  /-- `read_available_count` -/
  count    : Nat
  producer : SlotId
  consumer : SlotId
  run      : Bool
  slotA    : List Bits
  slotB    : List Bits
  /-- the fixed capacity of a slot, in words -/
  capacity : Nat
deriving DecidableEq, Repr

/-- The lifecycle of a connection (R221). -/
inductive Lifecycle where
  | idle
  | queued
  | committed
  | running
  | halted
deriving DecidableEq, Repr

/-- Connection Time Info (R231): four accumulated durations. -/
structure TimeInfo where
  encode    : Nat
  decode    : Nat
  commit    : Nat
  execution : Nat
deriving DecidableEq, Repr

/-- A caller that waits for the halt message: in `run_until_halt` (R224), or in `execute_messages` (R229), which keeps the
time info of its start. -/
structure Waiting where
  caller : Nat
  since  : Option TimeInfo
deriving DecidableEq, Repr

/-- The connection around the block (R220 to R234). Its receive queue is `DEC.QUEUE` seen from the consumer's side. -/
structure Connection where
  /-- messages awaiting encoding (R220, R225) -/
  sendQueue  : List Msg
  lifecycle  : Lifecycle
  /-- the halt listener has seen a message equal to `HALT_RX` (R224) -/
  haltSeen   : Bool
  /-- how many words of `ENC.SINK` the transport has been handed (R201) -/
  taken      : Nat
  /-- words handed to the transport, in order, not yet carried away -/
  wire       : List Bits
  /-- words the transport has yielded, in arrival order, not yet taken (R202) -/
  inbox      : List Bits
  time       : TimeInfo
  /-- the caller that holds the Stream guard (R228) -/
  stream     : Option Nat
  /-- the caller that waits for the halt message (R224, R229) -/
  waiting    : Option Waiting
  /-- the process-wide registry of open exclusive connections (R234) -/
  registry   : List String
  /-- this connection's own entry of the registry (R234) -/
  endpoint   : Option String
  /-- the destructor has not begun (R233) -/
  alive      : Bool
deriving DecidableEq, Repr

/-- The errors of the environment (R235). -/
inductive EnvError where
  | timeout
  | emptyQueue
  | doubleAllocation
deriving DecidableEq, Repr

/-- What an operation returns to its caller. -/
inductive Ret where
  /-- nothing to return -/
  | done
  | bits (b : Bits)
  | int (v : Int)
  | nat (n : Nat)
  | bool (b : Bool)
  | msg (m : Msg)
  | msgs (ms : List Msg)
  /-- found or not found, of `try_receive` (R226) -/
  | found (m : Option Msg)
  /-- the slot, or null (R207, R209) -/
  | slot (i : Option SlotId)
  | time (t : TimeInfo)
  /-- the responses and the elapsed time, of `execute_messages` (R229) -/
  | responses (ms : List Msg) (t : TimeInfo)
  /-- the operation raised a fault (R15) -/
  | raised (r : Raised)
  /-- the caller waits: the operation's condition does not hold yet, and nothing changed but that it waits (R233) -/
  | blocked
  /-- the caller's wait was ended because the run flag is cleared (R233) -/
  | cancelled
  | error (e : EnvError)
deriving DecidableEq, Repr

/-- The operations of the environment (44_environment.md). The connection's public surface (R230) is used by a caller `u`
through the Stream guard it holds (R228). -/
inductive EnvOp where
  | acquireStream (u : Nat)
  | releaseStream (u : Nat)
  | add (u : Nat) (ms : List Msg)
  | commit (u : Nat)
  /-- the transport starts to execute what was committed (R221) -/
  | execute
  | runUntilHalt (u : Nat)
  /-- `execute_messages` (R229), up to its wait for the halt message -/
  | executeMessages (u : Nat) (ms : List Msg)
  /-- the caller waiting in `execute_messages` looks again -/
  | awaitMessages (u : Nat)
  | receive (u : Nat)
  | tryReceive (u : Nat)
  | receiveAll (u : Nat)
  | receiveEmpty (u : Nat)
  | getTimeInfo (u : Nat)
  /-- time passes and is accounted (R231) -/
  | accrue (t : TimeInfo)
  /-- the transport carries the words it was handed to the device (R202) -/
  | carry
  /-- the transport yields words (R202) -/
  | arrive (ws : List Bits)
  /-- a loopback transport yields the words it was handed (R237) -/
  | loopback
  /-- the transport is asked whether words have arrived (R202) -/
  | available
  | startWrite
  /-- the producer moves up to `n` words of the inbox, as many as there are and fit, into its slot (R202, R213, R232) -/
  | fillSlot (n : Nat)
  | stopWrite
  | startRead
  /-- the consumer hands its slot's words to `DEC.decode`, in order (R213) -/
  | decodeSlot
  | stopRead
  | notify
  /-- the run flag is cleared (R233) -/
  | shutdown
  | openConnection (endpoint : String)
  | closeConnection (endpoint : String)
  /-- the destructor of this connection begins (R233) -/
  | destroy
  /-- the transport's deadline passes (R235) -/
  | deadline
deriving DecidableEq, Repr

/-- What the environment asks for next: an operation by its name, wire items given by their bits, or an operation of the
environment itself. -/
inductive Command where
  | op (i : Instr)
  | wire (b : Bits)
  | env (a : EnvOp)
deriving DecidableEq, Repr

/-- The machine. -/
structure State where
  enc     : Encoder
  dec     : Decoder
  /-- the operations the callers perform, in the order of their interleaving (R72, R267) -/
  pending : List Command
  /-- what the last operation returned -/
  ret     : Ret
  /-- the listener calls made, oldest first (R174) -/
  calls   : List Call
  conn    : Connection
  dbuf    : DoubleBuffer
deriving DecidableEq, Repr

/-- Why the machine stops when no operation is pending (60_exceptions.md R263). No instruction answers one: a fault an
operation raises is taken as R260 says, in the next state. -/
inductive Fault where
  /-- Raised by `step` when nothing is pending and the Decoder holds a latched fault: the run ends in a faulted state,
  which "is never final". Safe: the machine stops where a caller could still reset the Decoder. -/
  | endedFaulted (f : BlockFault)
  /-- Raised by `step` when nothing is pending and the Decoder holds part of a message: "stuck, not final". Safe. -/
  | stuckPartialMessage (fill : Nat)
  /-- Raised by `step` when nothing is pending and the Encoder holds bits of a message: "not final". Safe. -/
  | unflushedResidual (fill : Nat)
  /-- Raised by `step` when nothing is pending and the last operation reported a fault to its caller, one of a codec or of
  the packer among them: such a state "is never final". Safe: the caller could still go on. -/
  | endedRaised (r : Raised)
deriving DecidableEq, Repr

/-- Input to which no source gives a meaning (60_exceptions.md R256). -/
inductive Refusal where
  /-- Raised by `exec` for an instruction without a meaning, by its mnemonic; every instruction has one. Safe. -/
  | notModelled (mnemonic : String)
  /-- Raised by every operation of an agent whose parameter set breaks R9. Safe. -/
  | illFormedParameters
  /-- Raised by an operation on a message or index that is not of the agent's dictionary (R136, R256), and by `MSG.unpack`
  of bits whose first bit is 1, which are "not a message" (R135, R252). Safe. -/
  | illFormedMessage
  /-- Raised by an operation on a word, sub-word or packed message of the wrong width, by a wire item whose fields or
  bits do not fit the Decoder's parameter set, and by `step` on wire bits that are no whole sub-word (R256). Safe. -/
  | wrongWidth
  /-- Raised by a codec on a value outside its type, or on a type or bound that R8 excludes. Safe. -/
  | illFormedOperand
  /-- Raised by an operation of the environment outside the contract of 44_environment.md. Safe. -/
  | environmentMisuse
  /-- Raised by an operation of the connection's public surface whose caller does not hold the Stream guard, or waits in
  another such operation (R228). Safe. -/
  | notStreamHolder
deriving DecidableEq, Repr

/-- What a step answers. -/
abbrev Out := Host.Outcome State Fault Refusal

/-- The connection at construction. -/
def Connection.fresh : Connection :=
  ⟨[], .idle, false, 0, [], [], ⟨0, 0, 0, 0⟩, none, none, [], none, true⟩

/-- The double buffer at construction (R206): nothing available, both indices at `A`, running. The capacity is the
model's own number; the source gives none (R213). -/
def DoubleBuffer.fresh : DoubleBuffer := ⟨0, .A, .A, true, [], [], 64⟩

/-- The machine after reset under the parameter sets `tx` (to-device) and `rx` (from-device) (R39, R290). -/
def State.resetWith (tx rx : ParamSet) : State :=
  ⟨Encoder.fresh tx, Decoder.fresh rx, [], .done, [], Connection.fresh, DoubleBuffer.fresh⟩

/-- The machine after reset (R39), with the source's only parameter set `REF8` in both directions (30_encoding.md R98). -/
def State.reset : State := State.resetWith ref8 ref8

end Sys2Proof.Machine
end

