-- ==== Sys2Proof/Machine/Ops.lean ====
section
/-! DEFINITION. The named operations over the two agents: the Encoder's steps (42_encoder.md), the Decoder's steps
(43_decoder.md), taking a fault (60_exceptions.md R260) and the way out of one (R262), and how an operation answers its
caller. -/

namespace Sys2Proof.Machine

/-! ### Encoder -/

/-- The valid bits of the buffer, `ENC.buf[ENC.fill-1:0]` (10_state.md R26), oldest first. -/
def Encoder.held (e : Encoder) : Bits := Bits.low e.fill e.buf

/-- Append `v` to the buffer (R151, first two assignments). -/
def Encoder.append (e : Encoder) (v : Bits) : Encoder :=
  { e with buf := Bits.shiftIn e.buf v, fill := e.fill + v.length }

/-- One round of the loop of R151: push the oldest `PW` bits and drop them. -/
def Encoder.pushWord (e : Encoder) : Encoder :=
  { e with
    sink := e.sink ++ [Bits.high e.cfg.pw e.held]
    fill := e.fill - e.cfg.pw
    buf  := Bits.zext e.cfg.encCap (Bits.low (e.fill - e.cfg.pw) e.buf) }

/-- `while ENC.fill >= PW` of R151; the first argument bounds the rounds. -/
def Encoder.drain : Nat → Encoder → Encoder
  | 0, e => e
  | k + 1, e => if e.cfg.pw ≤ e.fill then Encoder.drain k e.pushWord else e

/-- `ENC.encode` (R151). -/
def Encoder.encode (e : Encoder) (m : Msg) : Encoder :=
  let t := e.append (pack e.cfg m)
  Encoder.drain t.fill t

/-- `ENC.encode_batch` (R152). -/
def Encoder.encodeBatch (e : Encoder) (ms : List Msg) : Encoder := ms.foldl Encoder.encode e

/-- The word `ENC.flush` pushes (R153): the buffered sub-words, then padding sub-words. -/
def Encoder.flushWord (e : Encoder) : Bits :=
  e.held ++ (List.replicate (e.cfg.ratio - e.fill / e.cfg.sw) e.cfg.padSubword).flatten

/-- `ENC.flush` (R153). -/
def Encoder.flush (e : Encoder) : Encoder :=
  if e.fill = 0 then e
  else { e with sink := e.sink ++ [e.flushWord], buf := zeros e.cfg.encCap, fill := 0 }

/-- `ENC.reset` (R154). -/
def Encoder.reset (e : Encoder) : Encoder := Encoder.fresh e.cfg

/-! ### Decoder -/

/-- What one or more sub-word steps did: the Decoder after them, the listener calls they made, the fault that ended
them. -/
structure Fed where
  dec    : Decoder
  calls  : List Call
  raised : Option Raised
deriving DecidableEq, Repr

/-- The valid bits of the buffer (10_state.md R31), oldest first. -/
def Decoder.held (d : Decoder) : Bits := Bits.low d.fill d.buf

/-- `h`, the message's first `HW` bits, unsigned (R172 line 6). -/
def Decoder.header (d : Decoder) : Nat := Bits.toNat (Bits.high d.cfg.hw d.held)

/-- Shift a sub-word in (R172 lines 3 and 4). -/
def Decoder.shiftIn (d : Decoder) (s : Bits) : Decoder :=
  { d with buf := Bits.shiftIn d.buf s, fill := d.fill + s.length }

/-- Taking a fault (60_exceptions.md R260): the latch is set, buffer and fill keep their values, queue and listeners are
unchanged, and the operation ends and reports the fault. -/
def Decoder.takeFault (d : Decoder) (f : BlockFault) : Fed :=
  ⟨{ d with fault := some f }, [], some (.fault f)⟩

/-- An operation called while the latch is set (R255): `DecoderFaulted`, and nothing changes. -/
def Decoder.refuseLatched (d : Decoder) (f : BlockFault) : Fed := ⟨d, [], some (.decoderFaulted f)⟩

/-- `DEC.reset` (R176), the only way out of a fault (R262). -/
def Decoder.reset (d : Decoder) : Decoder := Decoder.fresh d.cfg

/-- A complete message (R172 lines 14 to 17): every listener is called in the order added, then the message is pushed,
then the buffer is cleared. -/
def Decoder.emit (d : Decoder) (m : Msg) : Fed :=
  ⟨{ d with queue := d.queue ++ [m], buf := zeros d.cfg.decCap, fill := 0 },
    d.listeners.map (fun l => ⟨l, m, d.queue.length⟩), none⟩

/-- R172 lines 5 to 17: what a Decoder does once a sub-word is shifted in. -/
def Decoder.examine (d : Decoder) : Fed :=
  if d.fill < d.cfg.hw then ⟨d, [], none⟩
  else
    match d.cfg.dict[d.header]? with
    | none => d.takeFault (.unknownHeader d.header)
    | some e =>
      if d.fill < d.cfg.ww e then ⟨d, [], none⟩
      else
        match decodePayload e (Bits.low e.size d.buf) with
        | .error f => d.takeFault f
        | .ok p => d.emit ⟨d.header, p⟩

/-- `DEC.subword` (R172): the latch, then the comma bit at a message start, then the sub-word as data. -/
def Decoder.subword (d : Decoder) (s : Bits) : Fed :=
  match d.fault with
  | some f => d.refuseLatched f
  | none => if d.fill = 0 ∧ Bits.top s = true then ⟨d, [], none⟩ else (d.shiftIn s).examine

/-- Sub-words one after the other; a fault ends them (R171). -/
def Decoder.feed (d : Decoder) : List Bits → Fed
  | [] => ⟨d, [], none⟩
  | s :: rest =>
    match (d.subword s).raised with
    | some r => ⟨(d.subword s).dec, (d.subword s).calls, some r⟩
    | none =>
      ⟨(Decoder.feed (d.subword s).dec rest).dec,
        (d.subword s).calls ++ (Decoder.feed (d.subword s).dec rest).calls,
        (Decoder.feed (d.subword s).dec rest).raised⟩

/-- Bits that are a whole number of sub-words, as those sub-words, most significant first. -/
def Decoder.feedBits (d : Decoder) (b : Bits) : Fed := d.feed (Bits.chunks d.cfg.sw (b.length / d.cfg.sw) b)

/-- `DEC.decode` (R171). -/
def Decoder.decodeWord (d : Decoder) (w : Bits) : Fed :=
  match d.fault with
  | some f => d.refuseLatched f
  | none => d.feed (Bits.chunks d.cfg.sw d.cfg.ratio w)

/-- `DEC.end_of_stream` (R175). -/
def Decoder.endOfStream (d : Decoder) : Fed :=
  match d.fault with
  | some f => d.refuseLatched f
  | none => if d.fill ≠ 0 then d.takeFault (.streamUnderrun d.fill) else ⟨d, [], none⟩

/-! ### Answering the caller -/

/-- The operation returns `r`. -/
def State.answer (s : State) (r : Ret) : State := { s with ret := r }

/-- The return value of an operation that may have raised a fault. -/
def Ret.ofRaised : Option Raised → Ret
  | some r => .raised r
  | none => .done

/-- The call that fires the halt listener: a message equal to `HALT_RX` (44_environment.md R224, 41_message_packer.md
R137). -/
def Call.isHalt (c : ParamSet) (k : Call) : Bool :=
  match k.listener, c.halt with
  | .halt, some m => msgEq c k.msg m
  | _, _ => false

/-- What the listener calls do to the connection: the halt listener records a match (R224, R221). One record stands for
any number of matches until `run_until_halt` consumes it: the model's choice (log entry 14). -/
def Connection.notified (n : Connection) (c : ParamSet) (ks : List Call) : Connection :=
  if ks.any (Call.isHalt c) then { n with haltSeen := true, lifecycle := .halted } else n

/-- The state after the Decoder's steps `r`: its new Decoder, the listeners called, the report to the caller. -/
def State.fed (s : State) (r : Fed) : State :=
  { s with
    dec   := r.dec
    calls := s.calls ++ r.calls
    conn  := s.conn.notified s.dec.cfg r.calls
    ret   := Ret.ofRaised r.raised }

/-- The state with the Encoder `e`, nothing returned. -/
def State.encoded (s : State) (e : Encoder) : State := { s with enc := e, ret := .done }

/-- The next state `t` if `ok`, else the refusal `r` (60_exceptions.md R256). -/
def guarded (ok : Bool) (r : Refusal) (t : Out) : Out := if ok then t else .refused r

/-- The parameter set of a direction. -/
def State.cfgOf (s : State) (d : Direction) : ParamSet := d.pick s.enc.cfg s.dec.cfg

/-- An operation on the Encoder: its parameter set is legal and its operand `ok`. -/
def State.onEncoder (s : State) (ok : Bool) (r : Refusal) (e : Encoder) : Out :=
  guarded s.enc.cfg.wf .illFormedParameters (guarded ok r (.next (s.encoded e)))

/-- An operation on the Decoder: its parameter set is legal and its operand `ok`. -/
def State.onDecoder (s : State) (ok : Bool) (r : Refusal) (f : Fed) : Out :=
  guarded s.dec.cfg.wf .illFormedParameters (guarded ok r (.next (s.fed f)))

/-- A wire item arrives at the Decoder: its sub-words are taken one after the other, as those of any other bits
(43_decoder.md R172; 93_implementation_defined.md U12, U13 where the item is of another parameter set or the Decoder is
inside a message). An item that is no whole number of the Decoder's sub-words is refused (R256). -/
def State.receiveItem (s : State) (i : Instr) : Out :=
  match encode s.dec.cfg i with
  | some b => s.onDecoder (i.widthsOk s.dec.cfg && b.length % s.dec.cfg.sw == 0) .wrongWidth (s.dec.feedBits b)
  | none => .refused .wrongWidth

/-- Nothing is pending (60_exceptions.md R263): a final state stays as it is; a run that ends in a faulted state, on a
fault reported to its caller, inside a message, or with bits in the Encoder stops. DESIGN CHOICE: where several of these
hold, the first in this order is the one reported (log entry 8). -/
def State.idle (s : State) : Out :=
  match s.dec.fault, s.ret with
  | some f, _ => .fault (.endedFaulted f)
  | none, .raised r => .fault (.endedRaised r)
  | none, _ =>
    if s.dec.fill ≠ 0 then .fault (.stuckPartialMessage s.dec.fill)
    else if s.enc.fill ≠ 0 then .fault (.unflushedResidual s.enc.fill)
    else .next s

/-! ### Whose operation an instruction is -/

/-- The operations of the Encoder (42_encoder.md R150). -/
def instrOnEncoder : Instr → Bool
  | .encEncode _ | .encEncodeBatch _ | .encFlush | .encReset => true
  | _ => false

/-- The operations of the Decoder (43_decoder.md R170), and the wire items, which are received by it. -/
def instrOnDecoder (i : Instr) : Bool :=
  match i with
  | .decDecode _ | .decSubword _ | .decAddListener _ | .decEndOfStream | .decReset => true
  | .msg _ _ _ | .pad _ | .illegalHeader _ _ => true
  | _ => i.rowSet.isSome

end Sys2Proof.Machine
end

