-- ==== Sys2Proof/Machine/DecoderOps.lean ====
section
/-! DEFINITION. The Decoder's instructions (43_decoder.md R170). A fault one raises is taken (60_exceptions.md R260): the
next state has the latch set and the report in the return value. -/

namespace Sys2Proof.Machine

/-- `DEC.decode` (R171), of a word of `PW` bits. -/
def execDecDecode (w : Bits) (s : State) : Out :=
  s.onDecoder (w.length == s.dec.cfg.pw) .wrongWidth (s.dec.decodeWord w)

/-- `DEC.subword` (R172), of a sub-word of `SW` bits. -/
def execDecSubword (b : Bits) (s : State) : Out :=
  s.onDecoder (b.length == s.dec.cfg.sw) .wrongWidth (s.dec.subword b)

/-- `DEC.add_listener` (R173). -/
def execDecAddListener (l : Listener) (s : State) : Out :=
  s.onDecoder true .wrongWidth ⟨{ s.dec with listeners := s.dec.listeners ++ [l] }, [], none⟩

/-- `DEC.end_of_stream` (R175). -/
def execDecEndOfStream (s : State) : Out := s.onDecoder true .wrongWidth s.dec.endOfStream

/-- `DEC.reset` (R176). -/
def execDecReset (s : State) : Out := s.onDecoder true .wrongWidth ⟨s.dec.reset, [], none⟩

end Sys2Proof.Machine
end

