-- ==== Sys2Proof/Machine/EncoderOps.lean ====
section
/-! DEFINITION. The Encoder's instructions (42_encoder.md R150). -/

namespace Sys2Proof.Machine

/-- `ENC.encode` (R151), of a message of the Encoder's dictionary (R159). -/
def execEncEncode (m : Msg) (s : State) : Out := s.onEncoder (m.wf s.enc.cfg) .illFormedMessage (s.enc.encode m)

/-- `ENC.encode_batch` (R152), of messages of the Encoder's dictionary. -/
def execEncEncodeBatch (ms : List Msg) (s : State) : Out :=
  s.onEncoder (ms.all (fun m => m.wf s.enc.cfg)) .illFormedMessage (s.enc.encodeBatch ms)

/-- `ENC.flush` (R153). -/
def execEncFlush (s : State) : Out := s.onEncoder true .illFormedMessage s.enc.flush

/-- `ENC.reset` (R154). The sink is a new one, so the environment takes its words from the beginning again
(44_environment.md R201). -/
def execEncReset (s : State) : Out :=
  guarded s.enc.cfg.wf .illFormedParameters
    (.next { s.encoded s.enc.reset with conn := { s.conn with taken := 0 } })

end Sys2Proof.Machine
end

