-- ==== Sys2Proof/Machine/MessagePacker.lean ====
section
/-! DEFINITION. The packer instructions (41_message_packer.md), on the dictionary of one direction: pure functions that
answer their caller. -/

namespace Sys2Proof.Machine

/-- What `MSG.unpack` answers: the message, or the fault it raises; bits of another width than the message's, or
whose first bit is 1, are refused. -/
def State.unpacked (s : State) : Unpacked → Out
  | .msg m => .next (s.answer (.msg m))
  | .raised f => .next (s.answer (.raised (.fault f)))
  | .wrongWidth => .refused .wrongWidth
  | .notMessage => .refused .illFormedMessage

/-- `MSG.make` for the entry `e` at index `i` (R136): a payload of another type is refused, a ranged value outside its
bound raises `PayloadOutOfRange`. -/
def State.made (s : State) (i : Nat) (e : Entry) (p : Payload) : Out :=
  guarded (Payload.typed e p) .illFormedMessage
    (.next (s.answer
      (match e.kind, p with
        | .ranged _ min max, .int v =>
          (match rangedMake e.name min max v with
            | .ok _ => Ret.msg ⟨i, p⟩
            | .error f => Ret.raised (.fault f))
        | _, _ => Ret.msg ⟨i, p⟩)))

/-- `MSG.header` (R132). -/
def execMsgHeader (d : Direction) (m : Msg) (s : State) : Out :=
  guarded (s.cfgOf d).wf .illFormedParameters
    (guarded (m.wf (s.cfgOf d)) .illFormedMessage (.next (s.answer (.bits ((s.cfgOf d).header m.idx)))))

/-- `MSG.word_width` (R133). -/
def execMsgWordWidth (d : Direction) (i : Nat) (s : State) : Out :=
  guarded (s.cfgOf d).wf .illFormedParameters
    (match (s.cfgOf d).dict[i]? with
      | some e => .next (s.answer (.nat ((s.cfgOf d).ww e)))
      | none => .refused .illFormedMessage)

/-- `MSG.pack` (R134). -/
def execMsgPack (d : Direction) (m : Msg) (s : State) : Out :=
  guarded (s.cfgOf d).wf .illFormedParameters
    (guarded (m.wf (s.cfgOf d)) .illFormedMessage (.next (s.answer (.bits (pack (s.cfgOf d) m)))))

/-- `MSG.unpack` (R135). -/
def execMsgUnpack (d : Direction) (raw : Bits) (s : State) : Out :=
  guarded (s.cfgOf d).wf .illFormedParameters (s.unpacked (unpack (s.cfgOf d) raw))

/-- `MSG.make` (R136): a name or index that is not in the dictionary is refused. -/
def execMsgMake (d : Direction) (r : InstrRef) (p : Payload) (s : State) : Out :=
  guarded (s.cfgOf d).wf .illFormedParameters
    (match (s.cfgOf d).find r with
      | some i =>
        (match (s.cfgOf d).dict[i]? with
          | some e => s.made i e p
          | none => .refused .illFormedMessage)
      | none => .refused .illFormedMessage)

/-- `MSG.eq` (R137), of two messages of one dictionary. -/
def execMsgEq (d : Direction) (m k : Msg) (s : State) : Out :=
  guarded (s.cfgOf d).wf .illFormedParameters
    (guarded (m.wf (s.cfgOf d) && k.wf (s.cfgOf d)) .illFormedMessage (.next (s.answer (.bool (msgEq (s.cfgOf d) m k)))))

end Sys2Proof.Machine
end

