-- ==== Sys2Proof/Machine/PayloadCodecs.lean ====
section
/-! DEFINITION. The codec instructions (40_payload_codecs.md): pure functions that answer their caller. A ranged codec's
`PayloadOutOfRange` is raised to the caller and touches no block state (60_exceptions.md R254). -/

namespace Sys2Proof.Machine

/-- What a checked codec returns: its value, or the fault it raises. -/
def Ret.ofRanged : Except BlockFault Int → Ret
  | .ok v => .int v
  | .error f => .raised (.fault f)

/-- `BITSET.encode` (R111). -/
def execBitsetEncode (v : Bits) (s : State) : Out := .next (s.answer (.bits (bitsetEncode v)))

/-- `BITSET.decode` (R112). -/
def execBitsetDecode (b : Bits) (s : State) : Out := .next (s.answer (.bits (bitsetDecode b)))

/-- `NUMBER.encode` (R113), of a value of the type. -/
def execNumberEncode (t : IntType) (size : Nat) (v : Int) (s : State) : Out :=
  guarded (t.wf && t.contains v) .illFormedOperand (.next (s.answer (.bits (numberEncode t size v))))

/-- `NUMBER.decode` (R114). -/
def execNumberDecode (t : IntType) (b : Bits) (s : State) : Out :=
  guarded t.wf .illFormedOperand (.next (s.answer (.int (numberDecode t b))))

/-- `RANGED.make` (R116), of a value of the wrapped type. -/
def execRangedMake (inst : String) (t : IntType) (min max v : Int) (s : State) : Out :=
  guarded (t.boundsWf min max && t.contains v) .illFormedOperand
    (.next (s.answer (Ret.ofRanged (rangedMake inst min max v))))

/-- `RANGED.encode` (R117), of a value `RANGED.make` accepted: no other reaches it. -/
def execRangedEncode (t : IntType) (min max : Int) (size : Nat) (v : Int) (s : State) : Out :=
  guarded (t.boundsWf min max && decide (min ≤ v) && decide (v ≤ max)) .illFormedOperand
    (.next (s.answer (.bits (rangedEncode t size v))))

/-- `RANGED.decode` (R118). -/
def execRangedDecode (inst : String) (t : IntType) (min max : Int) (b : Bits) (s : State) : Out :=
  guarded (t.boundsWf min max) .illFormedOperand
    (.next (s.answer (Ret.ofRanged (rangedDecode inst t min max b))))

/-- `PAYLOAD.eq` (R119), of two payload values of the instruction `e`. -/
def execPayloadEq (e : Entry) (p q : Payload) (s : State) : Out :=
  guarded (e.kind.wf && Payload.wf e p && Payload.wf e q) .illFormedOperand
    (.next (s.answer (.bool (payloadEq p q))))

end Sys2Proof.Machine
end

