-- ==== Sys2Proof/Machine/WireItems.lean ====
section
/-! DEFINITION. The wire rows of opcode_table.json: a wire item arrives at the Decoder (30_encoding.md R81, R86, R90,
R93). Each is the reception of the row's bits; what the Decoder does with them is 43_decoder.md R172. -/

namespace Sys2Proof.Machine

/-- A message of the Decoder's dictionary, by index, padding bits and payload bits (R86). -/
def execMsg (i : Nat) (z p : Bits) (s : State) : Out := s.receiveItem (.msg i z p)

/-- A padding sub-word (R90). -/
def execPad (x : Bits) (s : State) : Out := s.receiveItem (.pad x)

/-- A header value that is no instruction (R93). -/
def execIllegalHeader (h : Nat) (t : Bits) (s : State) : Out := s.receiveItem (.illegalHeader h t)

/-- `REF8.A`. -/
def execRef8A (s : State) : Out := s.receiveItem .ref8A

/-- `REF8.B`. -/
def execRef8B (p : BitVec 8) (s : State) : Out := s.receiveItem (.ref8B p)

/-- `REF8.PAD`. -/
def execRef8Pad (x : BitVec 7) (s : State) : Out := s.receiveItem (.ref8Pad x)

/-- `CFG16.X`. -/
def execCfg16X (z : BitVec 10) (p : BitVec 3) (s : State) : Out := s.receiveItem (.cfg16X z p)

/-- `CFG16.Y`. -/
def execCfg16Y (z : BitVec 1) (p : BitVec 12) (s : State) : Out := s.receiveItem (.cfg16Y z p)

/-- `CFG16.Z`. -/
def execCfg16Z (z : BitVec 13) (s : State) : Out := s.receiveItem (.cfg16Z z)

/-- `CFG16.W`. -/
def execCfg16W (z : BitVec 7) (p : BitVec 14) (s : State) : Out := s.receiveItem (.cfg16W z p)

/-- `CFG16.PAD`. -/
def execCfg16Pad (x : BitVec 7) (s : State) : Out := s.receiveItem (.cfg16Pad x)

/-- `CFG64.P0`. -/
def execCfg64P0 (z : BitVec 56) (s : State) : Out := s.receiveItem (.cfg64P0 z)

/-- `CFG64.P1`. -/
def execCfg64P1 (p : BitVec 56) (s : State) : Out := s.receiveItem (.cfg64P1 p)

/-- `CFG64.P2`. -/
def execCfg64P2 (z : BitVec 63) (p : BitVec 57) (s : State) : Out := s.receiveItem (.cfg64P2 z p)

/-- `CFG64.P3`. -/
def execCfg64P3 (z : BitVec 56) (p : BitVec 64) (s : State) : Out := s.receiveItem (.cfg64P3 z p)

/-- `CFG64.P4`. -/
def execCfg64P4 (z : BitVec 53) (p : BitVec 3) (s : State) : Out := s.receiveItem (.cfg64P4 z p)

/-- `CFG64.PAD`. -/
def execCfg64Pad (x : BitVec 63) (s : State) : Out := s.receiveItem (.cfg64Pad x)

/-- `CFG3.N0`. -/
def execCfg3N0 (z : BitVec 8) (s : State) : Out := s.receiveItem (.cfg3N0 z)

/-- `CFG3.N1`. -/
def execCfg3N1 (z : BitVec 4) (p : BitVec 4) (s : State) : Out := s.receiveItem (.cfg3N1 z p)

/-- `CFG3.N2`. -/
def execCfg3N2 (z : BitVec 3) (p : BitVec 9) (s : State) : Out := s.receiveItem (.cfg3N2 z p)

/-- `CFG3.N3`. -/
def execCfg3N3 (z : BitVec 7) (p : BitVec 1) (s : State) : Out := s.receiveItem (.cfg3N3 z p)

/-- `CFG3.N4`. -/
def execCfg3N4 (p : BitVec 20) (s : State) : Out := s.receiveItem (.cfg3N4 p)

/-- `CFG3.PAD`. -/
def execCfg3Pad (x : BitVec 3) (s : State) : Out := s.receiveItem (.cfg3Pad x)

/-- `CFGS.S`. -/
def execCfgsS (p : BitVec 8) (s : State) : Out := s.receiveItem (.cfgsS p)

/-- `CFGS.T`. -/
def execCfgsT (z : BitVec 4) (p : BitVec 4) (s : State) : Out := s.receiveItem (.cfgsT z p)

/-- `CFGS.U`. -/
def execCfgsU (z : BitVec 4) (p : BitVec 12) (s : State) : Out := s.receiveItem (.cfgsU z p)

/-- `CFGS.PAD`. -/
def execCfgsPad (x : BitVec 7) (s : State) : Out := s.receiveItem (.cfgsPad x)

/-- `CFG1.ONLY`. -/
def execCfg1Only (p : BitVec 3) (s : State) : Out := s.receiveItem (.cfg1Only p)

/-- `CFG1.PAD`. -/
def execCfg1Pad (x : BitVec 3) (s : State) : Out := s.receiveItem (.cfg1Pad x)

end Sys2Proof.Machine
end

