-- ==== Sys2Proof/Machine/Dispatch.lean ====
section
/-! DEFINITION. One arm per instruction: the call of its meaning. -/

namespace Sys2Proof.Machine

def exec (i : Instr) (s : State) : Host.Outcome State Fault Refusal :=
  match i with
  | .msg j z p => Sys2Proof.Machine.execMsg j z p s
  | .pad x => Sys2Proof.Machine.execPad x s
  | .illegalHeader h t => Sys2Proof.Machine.execIllegalHeader h t s
  | .ref8A => Sys2Proof.Machine.execRef8A s
  | .ref8B p => Sys2Proof.Machine.execRef8B p s
  | .ref8Pad x => Sys2Proof.Machine.execRef8Pad x s
  | .cfg16X z p => Sys2Proof.Machine.execCfg16X z p s
  | .cfg16Y z p => Sys2Proof.Machine.execCfg16Y z p s
  | .cfg16Z z => Sys2Proof.Machine.execCfg16Z z s
  | .cfg16W z p => Sys2Proof.Machine.execCfg16W z p s
  | .cfg16Pad x => Sys2Proof.Machine.execCfg16Pad x s
  | .cfg64P0 z => Sys2Proof.Machine.execCfg64P0 z s
  | .cfg64P1 p => Sys2Proof.Machine.execCfg64P1 p s
  | .cfg64P2 z p => Sys2Proof.Machine.execCfg64P2 z p s
  | .cfg64P3 z p => Sys2Proof.Machine.execCfg64P3 z p s
  | .cfg64P4 z p => Sys2Proof.Machine.execCfg64P4 z p s
  | .cfg64Pad x => Sys2Proof.Machine.execCfg64Pad x s
  | .cfg3N0 z => Sys2Proof.Machine.execCfg3N0 z s
  | .cfg3N1 z p => Sys2Proof.Machine.execCfg3N1 z p s
  | .cfg3N2 z p => Sys2Proof.Machine.execCfg3N2 z p s
  | .cfg3N3 z p => Sys2Proof.Machine.execCfg3N3 z p s
  | .cfg3N4 p => Sys2Proof.Machine.execCfg3N4 p s
  | .cfg3Pad x => Sys2Proof.Machine.execCfg3Pad x s
  | .cfgsS p => Sys2Proof.Machine.execCfgsS p s
  | .cfgsT z p => Sys2Proof.Machine.execCfgsT z p s
  | .cfgsU z p => Sys2Proof.Machine.execCfgsU z p s
  | .cfgsPad x => Sys2Proof.Machine.execCfgsPad x s
  | .cfg1Only p => Sys2Proof.Machine.execCfg1Only p s
  | .cfg1Pad x => Sys2Proof.Machine.execCfg1Pad x s
  | .bitsetEncode v => Sys2Proof.Machine.execBitsetEncode v s
  | .bitsetDecode b => Sys2Proof.Machine.execBitsetDecode b s
  | .numberEncode t size v => Sys2Proof.Machine.execNumberEncode t size v s
  | .numberDecode t b => Sys2Proof.Machine.execNumberDecode t b s
  | .rangedMake inst t min max v => Sys2Proof.Machine.execRangedMake inst t min max v s
  | .rangedEncode t min max size v => Sys2Proof.Machine.execRangedEncode t min max size v s
  | .rangedDecode inst t min max b => Sys2Proof.Machine.execRangedDecode inst t min max b s
  | .payloadEq e p q => Sys2Proof.Machine.execPayloadEq e p q s
  | .msgHeader d m => Sys2Proof.Machine.execMsgHeader d m s
  | .msgWordWidth d j => Sys2Proof.Machine.execMsgWordWidth d j s
  | .msgPack d m => Sys2Proof.Machine.execMsgPack d m s
  | .msgUnpack d raw => Sys2Proof.Machine.execMsgUnpack d raw s
  | .msgMake d r p => Sys2Proof.Machine.execMsgMake d r p s
  | .msgEq d m k => Sys2Proof.Machine.execMsgEq d m k s
  | .encEncode m => Sys2Proof.Machine.execEncEncode m s
  | .encEncodeBatch ms => Sys2Proof.Machine.execEncEncodeBatch ms s
  | .encFlush => Sys2Proof.Machine.execEncFlush s
  | .encReset => Sys2Proof.Machine.execEncReset s
  | .decDecode w => Sys2Proof.Machine.execDecDecode w s
  | .decSubword b => Sys2Proof.Machine.execDecSubword b s
  | .decAddListener l => Sys2Proof.Machine.execDecAddListener l s
  | .decEndOfStream => Sys2Proof.Machine.execDecEndOfStream s
  | .decReset => Sys2Proof.Machine.execDecReset s

end Sys2Proof.Machine
end

