-- ==== Sys2Proof/Machine/Environment.lean ====
section
/-! DEFINITION. The environment of the block (44_environment.md): the Connection, the Stream guard, the Double Buffer, the
registry. None of it is the block's. An operation whose caller would wait answers `blocked` and changes nothing; the
caller asks again (R233). -/

namespace Sys2Proof.Machine

/-! ### The Double Buffer -/

/-- The other slot. -/
def SlotId.other : SlotId → SlotId
  | .A => .B
  | .B => .A

/-- The packet in a slot. -/
def DoubleBuffer.slot (b : DoubleBuffer) : SlotId → List Bits
  | .A => b.slotA
  | .B => b.slotB

/-- The packet in a slot, replaced. -/
def DoubleBuffer.setSlot (b : DoubleBuffer) (i : SlotId) (ws : List Bits) : DoubleBuffer :=
  match i with
  | .A => { b with slotA := ws }
  | .B => { b with slotB := ws }

/-- What `start_write` answers (R207): the producer's slot; `blocked` while both slots are full and the run flag is set;
null when they are full and it is cleared. -/
def DoubleBuffer.startWrite (b : DoubleBuffer) : Ret :=
  if b.count < 2 then .slot (some b.producer) else if b.run then .blocked else .slot none

/-- `stop_write` (R208). -/
def DoubleBuffer.stopWrite (b : DoubleBuffer) : DoubleBuffer :=
  { b with producer := b.producer.other, count := b.count + 1 }

/-- What `start_read` answers (R209), symmetric to `start_write`. -/
def DoubleBuffer.startRead (b : DoubleBuffer) : Ret :=
  if 0 < b.count then .slot (some b.consumer) else if b.run then .blocked else .slot none

/-- `stop_read` (R210). -/
def DoubleBuffer.stopRead (b : DoubleBuffer) : DoubleBuffer :=
  { b with consumer := b.consumer.other, count := b.count - 1 }

/-- The words that still fit the producer's slot (R213). -/
def DoubleBuffer.room (b : DoubleBuffer) : Nat := b.capacity - (b.slot b.producer).length

/-- Words collected after those the producer's slot already holds, so that none is lost (R201, R213). -/
def DoubleBuffer.collect (b : DoubleBuffer) (ws : List Bits) : DoubleBuffer :=
  b.setSlot b.producer (b.slot b.producer ++ ws)

/-! ### The Connection -/

/-- `add` moves an idle connection to `queued` (R221, R225). -/
def Lifecycle.added : Lifecycle → Lifecycle
  | .idle => .queued
  | l => l

/-- The transport starts to execute what was committed (R221). -/
def Lifecycle.executed : Lifecycle → Lifecycle
  | .committed => .running
  | l => l

/-- Durations accumulate (R231). -/
def TimeInfo.plus (a b : TimeInfo) : TimeInfo :=
  ⟨a.encode + b.encode, a.decode + b.decode, a.commit + b.commit, a.execution + b.execution⟩

/-- The elapsed time from an earlier answer of `get_time_info` to a later one (R229). -/
def TimeInfo.since (later earlier : TimeInfo) : TimeInfo :=
  ⟨later.encode - earlier.encode, later.decode - earlier.decode, later.commit - earlier.commit,
    later.execution - earlier.execution⟩

/-- `commit` (R223): the send buffer is encoded and flushed, every word not yet handed to the transport is handed to it,
in order (R201), and the send buffer is cleared. DESIGN CHOICE: the transport takes every word at once, so `commit` never
blocks on its flow control (log entry 29). -/
def State.commit (s : State) : State :=
  let e := (s.enc.encodeBatch s.conn.sendQueue).flush
  { s with
    enc  := e
    ret  := .done
    conn := { s.conn with
      sendQueue := []
      lifecycle := .committed
      wire      := s.conn.wire ++ e.sink.drop s.conn.taken
      taken     := e.sink.length } }

/-- `add` (R225), which moves an idle connection to `queued` (R221). -/
def State.added (s : State) (ms : List Msg) : State :=
  { s with
    conn := { s.conn with sendQueue := s.conn.sendQueue ++ ms, lifecycle := s.conn.lifecycle.added }
    ret  := .done }

/-- `add(messages)`, `add(halt)`, `commit()`: what `execute_messages` performs before it waits (R229). -/
def State.submitted (s : State) (ms : List Msg) : State := ((s.added ms).added s.enc.cfg.halt.toList).commit

/-- The wait for the halt message is over, with the answer `r`. The lifecycle stays as it is: after a fault, a cancelled
wait or a timeout the spec names none (DESIGN CHOICE, log entry 14). -/
def State.released (s : State) (r : Ret) : State := { s with conn := { s.conn with waiting := none }, ret := r }

/-- The waiting caller goes on after the halt message: the recorded match is consumed (log entry 14); `execute_messages`
drains the receive queue and returns the responses and the elapsed time (R229). -/
def State.halted (s : State) (w : Waiting) : State :=
  let t := { s with conn := { s.conn with haltSeen := false, lifecycle := .idle } }
  match w.since with
  | none => t.released .done
  | some start =>
    { t with dec := { s.dec with queue := [] } }.released (.responses s.dec.queue (s.conn.time.since start))

/-- What a caller that waits for the halt message finds (R224, R229): the halt listener has recorded a match; or a Decoder
fault, which is raised again here and aborts the operation (R236, 60_exceptions.md R261); or the run flag cleared, which
ends the wait (R233); else it waits on. Only the halt message moves the lifecycle to idle (DESIGN CHOICE, log entry
14). -/
def State.await (s : State) (w : Waiting) : State :=
  if s.conn.alive && s.conn.haltSeen then s.halted w
  else
    match s.dec.fault with
    | some f => s.released (.raised (.fault f))
    | none =>
      if s.conn.alive && s.dbuf.run then { s with conn := { s.conn with waiting := some w }, ret := .blocked }
      else s.released .cancelled

/-- `receive` (R226): the front of the receive queue, or the empty-queue error. -/
def State.receive (s : State) : State :=
  match s.dec.queue with
  | [] => s.answer (.error .emptyQueue)
  | m :: q => { s with dec := { s.dec with queue := q }, ret := .msg m }

/-- `try_receive` (R226): found or not found. -/
def State.tryReceive (s : State) : State :=
  match s.dec.queue with
  | [] => s.answer (.found none)
  | m :: q => { s with dec := { s.dec with queue := q }, ret := .found (some m) }

/-- The transport's deadline passes (R235): a caller that expects the halt message and has received nothing gets the
timeout error. -/
def State.deadline (s : State) : State :=
  if s.conn.waiting.isSome && !s.conn.haltSeen && s.dec.fault.isNone && s.dec.queue.isEmpty then
    s.released (.error .timeout)
  else s.answer .done

/-- An operation of the public surface (R230) by the caller `u`: the connection is not destroyed, and `u` holds the Stream
guard (R228) and `waits` as the operation asks. -/
def State.asHolder (s : State) (u : Nat) (waits : Bool) (t : Out) : Out :=
  guarded s.conn.alive .environmentMisuse (guarded (decide (s.conn.stream = some u) && waits) .notStreamHolder t)

/-! ### Threads and destruction -/

/-- The operations by which the background threads fill and decode words (R228, R232). `start_write` and `start_read` are
not among them: they touch nothing, and a thread the destructor wakes in one gets its answer (R207, R209, R233). -/
def EnvOp.ofReceiveThread : EnvOp → Bool
  | .arrive _ | .loopback | .available | .fillSlot _ | .stopWrite | .decodeSlot | .stopRead => true
  | _ => false

/-- What a receive thread performs: the Decoder's operations, the wire's items (10_state.md R21), and its own. -/
def Command.ofReceiveThread : Command → Bool
  | .op i => instrOnDecoder i
  | .wire _ => true
  | .env a => a.ofReceiveThread

/-- An operation of a receive thread: once the destructor has begun it touches nothing (R233). -/
def State.onReceiveThread (s : State) (t : Out) : Out := if s.conn.alive then t else .next (s.answer .cancelled)

/-- The destructor (R233): the run flag is cleared, waiters wake, the receive threads are joined, so that what they had
still to do is not done, but for the answer to one that waits (R207, R209); the registry entry is removed (R234).
DESIGN CHOICE in what R233 leaves open: log entry 34. -/
def State.destroyed (s : State) : State :=
  { s with
    pending := s.pending.filter (fun c => !c.ofReceiveThread)
    dbuf := { s.dbuf with run := false }
    conn := { s.conn with
      alive    := false
      registry := match s.conn.endpoint with
        | some e => s.conn.registry.erase e
        | none => s.conn.registry
      endpoint := none }
    ret := .done }

/-- Opening a connection (R234): an endpoint in use is refused at construction (R235); the first one opened is this
connection's, unless it is destroyed. DESIGN CHOICE: the key is an endpoint string (log entry 33). -/
def State.opened (s : State) (e : String) : State :=
  if e ∈ s.conn.registry then s.answer (.error .doubleAllocation)
  else
    { s with
      conn := { s.conn with
        registry := s.conn.registry ++ [e]
        endpoint := if s.conn.alive then s.conn.endpoint.orElse (fun _ => some e) else s.conn.endpoint }
      ret := .done }

/-- Closing a connection (R234): this one's endpoint destroys it; another's entry is removed, if it has
one (DESIGN CHOICE, log entry 33). -/
def State.closed (s : State) (e : String) : State :=
  if s.conn.endpoint = some e then s.destroyed
  else { s with conn := { s.conn with registry := s.conn.registry.erase e }, ret := .done }

/-- `u` asks for the Stream guard (R228): it waits while the guard is held, unless the run flag is cleared (R233).
DESIGN CHOICE: `u` itself may be the holder and then waits like any other, the mutex not being recursive (log
entry 13). -/
def State.acquire (s : State) (u : Nat) : State :=
  if s.conn.alive && s.conn.stream.isNone then { s with conn := { s.conn with stream := some u }, ret := .done }
  else if s.conn.alive && s.dbuf.run then s.answer .blocked
  else s.answer .cancelled

/-- The producer collects up to `n` words of the inbox, as many as there are and fit its slot (R202, R213).
DESIGN CHOICE: a second filling adds to the first (log entry 15). -/
def State.filled (s : State) (n : Nat) : State :=
  let k := min n s.dbuf.room
  { s with
    dbuf := s.dbuf.collect (s.conn.inbox.take k)
    conn := { s.conn with inbox := s.conn.inbox.drop k }
    ret := .nat (s.conn.inbox.take k).length }

/-- The operations of the environment. `start_write` and `start_read` need not come before the operations on a slot: the
count alone says whose the slots are (R212; DESIGN CHOICE, log entry 15). The registry's key is an endpoint string
(DESIGN CHOICE, log entry 33). `run_until_halt` newly asked on a destroyed connection answers as one asked again does
(DESIGN CHOICE, log entry 34). `execute_messages` asks that its caller holds the Stream guard, and leaves it held (DESIGN
CHOICE, log entry 13). -/
def execEnv (a : EnvOp) (s : State) : Out :=
  let free := s.conn.waiting.isNone
  match a with
  | .acquireStream u => .next (s.acquire u)
  | .releaseStream u =>
    guarded (decide (s.conn.stream = some u) && free) .notStreamHolder
      (.next { s with conn := { s.conn with stream := none }, ret := .done })
  | .add u ms =>
    s.asHolder u free
      (guarded s.enc.cfg.wf .illFormedParameters
        (guarded (ms.all (fun m => m.wf s.enc.cfg)) .illFormedMessage (.next (s.added ms))))
  | .commit u =>
    s.asHolder u free
      (guarded s.enc.cfg.wf .illFormedParameters
        (guarded (s.conn.sendQueue.all (fun m => m.wf s.enc.cfg)) .illFormedMessage (.next s.commit)))
  | .execute => .next { s with conn := { s.conn with lifecycle := s.conn.lifecycle.executed }, ret := .done }
  | .runUntilHalt u =>
    guarded (decide (s.conn.stream = some u) && (free || decide (s.conn.waiting = some ⟨u, none⟩))) .notStreamHolder
      (.next (s.await ⟨u, none⟩))
  | .executeMessages u ms =>
    s.asHolder u free
      (guarded s.enc.cfg.wf .illFormedParameters
        (guarded ((s.conn.sendQueue ++ ms).all (fun m => m.wf s.enc.cfg)) .illFormedMessage
          (.next ((s.submitted ms).await ⟨u, some s.conn.time⟩))))
  | .awaitMessages u =>
    match s.conn.waiting with
    | some ⟨v, some start⟩ => guarded (decide (u = v)) .notStreamHolder (.next (s.await ⟨v, some start⟩))
    | _ => .refused .notStreamHolder
  | .receive u => s.asHolder u free (.next s.receive)
  | .tryReceive u => s.asHolder u free (.next s.tryReceive)
  | .receiveAll u => s.asHolder u free (.next { s with dec := { s.dec with queue := [] }, ret := .msgs s.dec.queue })
  | .receiveEmpty u => s.asHolder u free (.next (s.answer (.bool s.dec.queue.isEmpty)))
  | .getTimeInfo u => s.asHolder u free (.next (s.answer (.time s.conn.time)))
  | .accrue t => .next { s with conn := { s.conn with time := s.conn.time.plus t }, ret := .done }
  | .carry => .next { s with conn := { s.conn with wire := [] }, ret := .done }
  | .arrive ws =>
    s.onReceiveThread (.next { s with conn := { s.conn with inbox := s.conn.inbox ++ ws }, ret := .done })
  | .loopback =>
    s.onReceiveThread
      (.next { s with conn := { s.conn with inbox := s.conn.inbox ++ s.conn.wire, wire := [] }, ret := .done })
  | .available => s.onReceiveThread (.next (s.answer (.bool (!s.conn.inbox.isEmpty))))
  | .startWrite => .next (s.answer s.dbuf.startWrite)
  | .fillSlot n =>
    s.onReceiveThread (guarded (decide (s.dbuf.count < 2)) .environmentMisuse (.next (s.filled n)))
  | .stopWrite =>
    s.onReceiveThread (guarded (decide (s.dbuf.count < 2)) .environmentMisuse
      (.next { s with dbuf := s.dbuf.stopWrite, ret := .done }))
  | .startRead => .next (s.answer s.dbuf.startRead)
  | .decodeSlot =>
    s.onReceiveThread (guarded (decide (0 < s.dbuf.count)) .environmentMisuse
      (.next { s with
        pending := (s.dbuf.slot s.dbuf.consumer).map (fun w => Command.op (.decDecode w)) ++ s.pending
        dbuf := s.dbuf.setSlot s.dbuf.consumer []
        ret := .done }))
  | .stopRead =>
    s.onReceiveThread
      (guarded (decide (0 < s.dbuf.count) && (s.dbuf.slot s.dbuf.consumer).isEmpty) .environmentMisuse
        (.next { s with dbuf := s.dbuf.stopRead, ret := .done }))
  | .notify => .next (s.answer .done)
  | .shutdown => .next { s with dbuf := { s.dbuf with run := false }, ret := .done }
  | .openConnection e => .next (s.opened e)
  | .closeConnection e => .next (s.closed e)
  | .destroy => .next s.destroyed
  | .deadline => .next s.deadline

end Sys2Proof.Machine
end

