-- ==== Sys2Proof/Machine/Fetch.lean ====
section
/-! DEFINITION. What the machine performs next. The block has no program counter (10_state.md R36): its operations are
those its callers ask for, in the order of their interleaving, and a wire item is read from the bits of the stream. -/

namespace Sys2Proof.Machine

/-- What stands at the front of the pending commands, and the state without it. -/
inductive Fetched where
  | nothing
  /-- a stream of no bits: nothing arrives -/
  | skip (t : State)
  | run (i : Instr) (t : State)
  | act (a : EnvOp) (t : State)
  | bad (r : Refusal)
deriving DecidableEq, Repr

/-- The bits after an item stay in front of the commands that follow. -/
def putBack (b : Bits) (rest : List Command) : List Command := if b = [] then rest else .wire b :: rest

/-- The next command: an operation by its name (30_encoding.md R102), or the item at the front of wire bits, decoded
under the Decoder's parameter set (R81). Where the bits end inside an item (60_exceptions.md R253) its sub-words arrive
one by one, as those of any other bits (43_decoder.md R172); bits that are no whole sub-word are refused (R256). -/
def State.fetch (s : State) : Fetched :=
  match s.pending with
  | [] => .nothing
  | .op i :: rest => .run i { s with pending := rest }
  | .env a :: rest => .act a { s with pending := rest }
  | .wire b :: rest =>
    match decode s.dec.cfg b with
    | .ok (i, b') => .run i { s with pending := putBack b' rest }
    | .error .illFormedParameters => .bad .illFormedParameters
    | .error .incompleteItem =>
      if b = [] then .skip { s with pending := rest, ret := .done }
      else if b.length < s.dec.cfg.sw then .bad .wrongWidth
      else .run (.decSubword (b.take s.dec.cfg.sw)) { s with pending := putBack (b.drop s.dec.cfg.sw) rest }

/-- The Decoder under the parameter set `c`: unchanged where it already has it (whatever halt message its own set
designates), else built for `c` with nothing buffered. -/
def Decoder.select (d : Decoder) (c : ParamSet) : Decoder :=
  if { d.cfg with halt := none } = c then d else { d with cfg := c, buf := zeros c.decCap, fill := 0 }

/-- A table word placed where the next step fetches: its bits in front of the pending commands, under the parameter set
whose row it is (`decodeTableWord`). -/
def State.placeWord (s : State) (nbits w : Nat) : State :=
  match tableLookup nbits w SetName.all with
  | some (n, b, _) => { s with dec := s.dec.select n.params, pending := .wire b :: s.pending }
  | none => { s with dec := s.dec.select ref8, pending := .wire (Bits.ofNat nbits w) :: s.pending }

end Sys2Proof.Machine
end

