-- ==== Sys2Proof/Machine/Flags.lean ====
section
/-! DEFINITION. The block has no flags and no condition codes (10_state.md R36); what stands in their place is computed
from the state: the Decoder's phase (R37), the codes of the faults (60_exceptions.md R251), and whether a state is final
(R263). -/

namespace Sys2Proof.Machine

/-- The Decoder's phases (R37). -/
inductive Phase where
  | idle
  | header
  | body
  | fault
deriving DecidableEq, Repr

/-- The phase, recomputed from the state (R37). -/
def Decoder.phase (d : Decoder) : Phase :=
  match d.fault with
  | some _ => .fault
  | none => if d.fill = 0 then .idle else if d.fill < d.cfg.hw then .header else .body

/-- The codes of R251. -/
def faultCode : Raised → Nat
  | .fault (.unknownHeader _) => 1
  | .fault (.streamUnderrun _) => 2
  | .fault (.payloadOutOfRange _ _) => 3
  | .decoderFaulted _ => 4

/-- What was returned is the report of a fault (R15). -/
def Ret.isRaised : Ret → Bool
  | .raised _ => true
  | _ => false

/-- A final state (R263): `DEC.fault = none`, `DEC.fill = 0`, `ENC.fill = 0`, and the last operation raised no fault. -/
def State.final (s : State) : Bool := s.dec.fault.isNone && s.dec.fill == 0 && s.enc.fill == 0 && !s.ret.isRaised

end Sys2Proof.Machine
end

