-- ==== Sys2Proof/Safety.lean ====
section
/-! DEFINITION. The invariants of the machine (10_state.md R26, R27, R31, R32; 60_exceptions.md R260;
44_environment.md R206, R212; the callers' part is the model's, log entries 13 and 34), and the
stream a sink stands for (20_memory.md R52). -/

namespace Sys2Proof.Machine

/-- The Encoder's invariant (R26, R27): a legal parameter set; a buffer of `ENC_CAP` bits, zero above the valid ones; a
fill level that is a multiple of `SW` and at most `PW - SW`; whole physical words in the sink. -/
def Encoder.Inv (e : Encoder) : Prop :=
  e.cfg.wf = true ∧ e.buf.length = e.cfg.encCap ∧ e.buf = Bits.zext e.cfg.encCap e.held ∧
    e.fill % e.cfg.sw = 0 ∧ e.fill + e.cfg.sw ≤ e.cfg.pw ∧ ∀ w ∈ e.sink, w.length = e.cfg.pw

/-- The Decoder with exactly the bits `x` in its buffer (R31). -/
def Decoder.holding (d : Decoder) (x : Bits) : Decoder :=
  { d with buf := Bits.zext d.cfg.decCap x, fill := x.length }

/-- What a Decoder that has not faulted on the buffered bits holds (R32): nothing, or the first bits of one message,
whose top bit is 0 and whose header, once complete, is a known one. -/
def Decoder.PartialMessage (d : Decoder) : Prop :=
  d.fill + d.cfg.sw ≤ d.cfg.maxww ∧ (0 < d.fill → Bits.top d.held = false) ∧
    (0 < d.fill → d.cfg.hw ≤ d.fill → ∃ e, d.cfg.dict[d.header]? = some e ∧ d.fill < d.cfg.ww e)

/-- What the fault latch says of the buffer (R260). -/
def Decoder.LatchInv (d : Decoder) : Prop :=
  match d.fault with
  | none => d.PartialMessage
  | some (.unknownHeader h) =>
    d.header = h ∧ d.cfg.n ≤ h ∧ h < 2 ^ (d.cfg.hw - 1) ∧ d.fill = roundUp d.cfg.hw d.cfg.sw
  | some (.streamUnderrun k) => k = d.fill ∧ 0 < k ∧ d.PartialMessage
  | some (.payloadOutOfRange inst v) =>
    ∃ e, d.cfg.dict[d.header]? = some e ∧ d.fill = d.cfg.ww e ∧
      decodePayload e (Bits.low e.size d.buf) = .error (.payloadOutOfRange inst v)

/-- The Decoder's invariant (R31, R32, R34, R260): a legal parameter set; a buffer of `DEC_CAP` bits, zero above the valid
ones; a fill level that is a multiple of `SW`; what the latch says; messages of the dictionary in the queue. -/
def Decoder.Inv (d : Decoder) : Prop :=
  d.cfg.wf = true ∧ d.buf.length = d.cfg.decCap ∧ d.buf = Bits.zext d.cfg.decCap d.held ∧
    d.fill % d.cfg.sw = 0 ∧ d.fill ≤ d.cfg.decCap ∧ d.LatchInv ∧ ∀ m ∈ d.queue, m.wf d.cfg = true

/-- The double buffer's invariant (R205, R206, R212, R213): the count is 0, 1 or 2; producer and consumer are at one slot
exactly when the count is not 1; a packet fits its slot. -/
def DoubleBuffer.Inv (b : DoubleBuffer) : Prop :=
  b.count ≤ 2 ∧ (b.producer = b.consumer ↔ b.count ≠ 1) ∧ b.slotA.length ≤ b.capacity ∧ b.slotB.length ≤ b.capacity

/-- Nothing that is pending is a receive thread's (44_environment.md R233; log entry 34). -/
def State.NoReceiveThread (s : State) : Prop := ∀ c ∈ s.pending, c.ofReceiveThread = false

/-- The callers' invariant: who waits for the halt message holds the Stream guard (the model's form of 44_environment.md
R228, DESIGN CHOICE, log entry 13), and once the destructor has begun nothing pending is a receive thread's (of R233,
DESIGN CHOICE, log entry 34). -/
def State.CallersInv (s : State) : Prop :=
  (∀ w, s.conn.waiting = some w → s.conn.stream = some w.caller) ∧ (s.conn.alive = false → s.NoReceiveThread)

/-- The machine's invariant. -/
def State.Inv (s : State) : Prop := s.enc.Inv ∧ s.dec.Inv ∧ s.dbuf.Inv ∧ s.CallersInv

/-- The bitstream of a sequence of physical words (20_memory.md R52). -/
def bitstream (ws : List Bits) : Bits := ws.flatten

/-- The Encoder `e` has put `v` after everything it held and has pushed every whole word of it (42_encoder.md R151, R156):
`f` is the Encoder after. -/
def Encoder.Emitted (e f : Encoder) (v : Bits) : Prop :=
  f.cfg = e.cfg ∧ ∃ ws, f.sink = e.sink ++ ws ∧ ws.length = (e.fill + v.length) / e.cfg.pw ∧
    f.fill = (e.fill + v.length) % e.cfg.pw ∧ bitstream ws ++ f.held = e.held ++ v

/-- The operations of the environment that may take messages from the front of the receive queue (44_environment.md R226,
R229). -/
def EnvOp.mayDrain : EnvOp → Bool
  | .receive _ | .tryReceive _ | .receiveAll _ | .executeMessages _ _ | .awaitMessages _ => true
  | _ => false

/-- A complete message `m` reaches the caller (43_decoder.md R172 lines 14 to 17, R174): the listeners are called in
order, each finding the queue without `m`; `m` is pushed; the buffer is cleared. -/
def State.received (s : State) (m : Msg) : State :=
  { s with
    dec   := { s.dec with queue := s.dec.queue ++ [m], buf := zeros s.dec.cfg.decCap, fill := 0 }
    calls := s.calls ++ s.dec.listeners.map (fun l => ⟨l, m, s.dec.queue.length⟩)
    conn  := s.conn.notified s.dec.cfg (s.dec.listeners.map (fun l => ⟨l, m, s.dec.queue.length⟩))
    ret   := .done }

/-- The Decoder holds the bits `x` and has taken the fault `f` on them (60_exceptions.md R260). -/
def State.faulted (s : State) (x : Bits) (f : BlockFault) : State :=
  { s with dec := { s.dec.holding x with fault := some f }, ret := .raised (.fault f) }

/-- The Decoder is between messages and has not faulted (phase `IDLE`, 10_state.md R37). -/
def State.AtBoundary (s : State) : Prop := s.dec.Inv ∧ s.dec.fault = none ∧ s.dec.fill = 0

/-- Operations performed one after the other; one that does not answer a next state ends them. -/
def runOps : List Instr → State → Out
  | [], s => .next s
  | i :: is, s =>
    match exec i s with
    | .next t => runOps is t
    | o => o

/-- `DEC.subword` of one sub-word after the other, until one raises a fault (43_decoder.md R171). -/
def runSubwords : List Bits → State → Out
  | [], s => .next s
  | b :: bs, s =>
    match exec (.decSubword b) s with
    | .next t => if t.ret = .done then runSubwords bs t else .next t
    | o => o

/-- How many of a payload's bits its codec reads (40_payload_codecs.md R112, R114). -/
def readBits (e : Entry) : Nat :=
  match e.kind with
  | .bitset => e.size
  | .number t => min e.size t.width
  | .ranged t _ _ => min e.size t.width

end Sys2Proof.Machine
end

