-- ==== Sys2Proof/Certificates/Slice0/Obligations.lean ====
section
/-! DEFINITION. The statements for the provers, from the numbered rules of spec/. -/

open Sys2Proof Sys2Proof.Machine

/-! ### Widths and encodings -/

/-- A few words written out bit by bit from the rows' encodings (30_encoding.md R86, R90; 95_test_vectors.md V11). The
sets but `REF8` are the spec's inventions (log entry 28). -/
def Obligations.SpecWordsDecodeToTheirRows : Prop :=
  decode ref8 (Bits.ofNat 16 0b0000000101000010) = .ok (.ref8B 0x42, []) ∧
  decode cfg16 (Bits.ofNat 24 0b011000000010101010111100) = .ok (.cfg16W 0 0x2ABC, []) ∧
  decode cfg3 (Bits.ofNat 16 0b0010000101010101) = .ok (.cfg3N2 0 0x155, []) ∧
  decode cfgs (Bits.ofNat 16 0b0000000100001111) = .ok (.cfgsT 0 0xF, []) ∧
  decode cfg1 (Bits.ofNat 4 0b0101) = .ok (.cfg1Only 5, []) ∧
  decode cfg16 (Bits.ofNat 8 0b10000000) = .ok (.cfg16Pad 0, []) ∧
  decode ref8 (Bits.ofNat 8 0b00000010) = .ok (.illegalHeader 2 [], [])

/-- R12. The spec's decision D23 (log entry 26). -/
def Obligations.RoundUpIsTheLeastMultiple : Prop :=
  ∀ x a : Nat, 1 ≤ a →
    a ∣ roundUp x a ∧ x ≤ roundUp x a ∧ (∀ m, a ∣ m → x ≤ m → roundUp x a ≤ m) ∧
      roundUp x a = (x + a - 1) / a * a ∧ roundUp 0 a = 0

/-- R13. The spec's decision D23 (log entry 26). -/
def Obligations.ClogIsTheLeastExponent : Prop :=
  (∀ n : Nat, 1 ≤ n → n ≤ 2 ^ clog2 n ∧ ∀ k, n ≤ 2 ^ k → clog2 n ≤ k) ∧
    clog2 1 = 0 ∧ clog2 2 = 1 ∧ clog2 3 = 2 ∧ clog2 4 = 2 ∧ clog2 5 = 3

/-- R83: the header width is the least multiple of `HA` that holds the comma bit and the index bits, and it can represent
every index with the comma bit 0. -/
def Obligations.HeaderWidthHoldsEveryIndex : Prop :=
  ∀ c : ParamSet, c.wf = true →
    c.ha ∣ c.hw ∧ 1 + clog2 c.n ≤ c.hw ∧ (∀ m, c.ha ∣ m → 1 + clog2 c.n ≤ m → c.hw ≤ m) ∧ c.n ≤ 2 ^ (c.hw - 1)

/-- R84, R55, R56: a word width is the formula's, a whole number of sub-words, at least a physical word, and holds header
and payload. -/
def Obligations.WordWidthIsWholeSubwords : Prop :=
  ∀ (c : ParamSet) (e : Entry), c.wf = true →
    c.ww e = max (roundUp (c.hw + e.size) c.sw) c.pw ∧ c.sw ∣ c.ww e ∧ c.pw ≤ c.ww e ∧ c.hw + e.size ≤ c.ww e

/-- R96: the headers `0..N-1` are each produced by exactly one instruction, and two instructions never share one. -/
def Obligations.HeaderUniqueness : Prop :=
  ∀ c : ParamSet, c.wf = true →
    (∀ h, h < c.n → ∃ i, (i < c.n ∧ Bits.toNat (c.header i) = h) ∧ ∀ j, j < c.n → Bits.toNat (c.header j) = h → j = i) ∧
      ∀ i j, i < c.n → j < c.n → c.header i = c.header j → i = j

/-- Decoding inverts encoding, for every wire item of a parameter set and whatever bits follow it (30_encoding.md R81,
R86, R90, R93). That padding and filler bits may have any value is the decisions D5 and D6 (log entry 21). -/
def Obligations.DecodeInvertsEncode : Prop :=
  ∀ (c : ParamSet) (i : Instr) (b rest : Bits), c.wf = true → i.widthsOk c = true → i.isRowOf c = true →
    encode c i = some b → decode c (b ++ rest) = .ok (i, rest)

/-- Encoding inverts decoding: no bit of an item is dropped or read twice, and what is decoded is a row of the
parameter set (30_encoding.md R81). That an item which is not complete is no item is the model's (log entry 31). -/
def Obligations.EncodeInvertsDecode : Prop :=
  ∀ (c : ParamSet) (i : Instr) (raw rest : Bits), decode c raw = .ok (i, rest) →
    ∃ b, encode c i = some b ∧ raw = b ++ rest ∧ i.widthsOk c = true ∧ i.isRowOf c = true

/-! ### Payload codecs -/

/-- R111, R112: the bitset codec is the identity and changes nothing else. -/
def Obligations.BitsetCodecIsTheIdentity : Prop :=
  ∀ (v : Bits) (s : State),
    exec (.bitsetEncode v) s = .next { s with ret := .bits v } ∧
      exec (.bitsetDecode v) s = .next { s with ret := .bits v }

/-- R113: `size` bits, the low `size` bits of `v mod 2^TW`, zero-extended where `size` exceeds `TW`; nothing else
changes. The two's complement pattern of a signed value is supplied from general knowledge, that it is zero-extended
is the decision D16 (log entries 17 and 23). -/
def Obligations.NumberEncodeGivesTheLowBits : Prop :=
  ∀ (t : IntType) (size : Nat) (v : Int) (s : State), t.wf = true → t.contains v = true →
    ∃ b, exec (.numberEncode t size v) s = .next { s with ret := .bits b } ∧ b.length = size ∧
      (Bits.toNat b : Int) = v % 2 ^ t.width % 2 ^ size

/-- R114: the low `TW` bits of the payload, zero-extended, read as the type; nothing else changes. The dropped high
bits are the decision D16, two's complement is supplied from general knowledge (log entries 23 and 17). -/
def Obligations.NumberDecodeReadsTheType : Prop :=
  ∀ (t : IntType) (b : Bits) (s : State), t.wf = true →
    exec (.numberDecode t b) s = .next { s with
      ret := .int (if t.sign = .signed ∧ 2 ^ (t.width - 1) ≤ Bits.toNat b % 2 ^ t.width
        then ((Bits.toNat b % 2 ^ t.width : Nat) : Int) - 2 ^ t.width
        else ((Bits.toNat b % 2 ^ t.width : Nat) : Int)) }

/-- R115: which number values survive the round trip. An inference of the spec from its decision D16 (log entry 23).
-/
def Obligations.NumberValidValues : Prop :=
  ∀ (t : IntType) (size : Nat) (v : Int), t.wf = true → t.contains v = true →
    (numberDecode t (numberEncode t size v) = v ↔ t.width ≤ size ∨ (0 ≤ v ∧ v < 2 ^ size))

/-- R116: a value inside `[Min, Max]` is returned; any other raises `PayloadOutOfRange` with the instruction and the
value. Nothing else changes. That it is a fault is the decision D14 (log entry 22). -/
def Obligations.RangedMakeChecksTheBound : Prop :=
  ∀ (inst : String) (t : IntType) (min max v : Int) (s : State),
    t.boundsWf min max = true → t.contains v = true →
    (min ≤ v ∧ v ≤ max → exec (.rangedMake inst t min max v) s = .next { s with ret := .int v }) ∧
      (v < min ∨ max < v → exec (.rangedMake inst t min max v) s =
        .next { s with ret := .raised (.fault (.payloadOutOfRange inst v)) })

/-- R117: a ranged value is encoded as the number it wraps. R118: the number is decoded and its bound checked; it
faults and does not clamp. The wire form is the decision D15, the fault the decision D14 (log entry 22). -/
def Obligations.RangedCodecIsTheNumberCodecChecked : Prop :=
  ∀ (inst : String) (t : IntType) (min max : Int) (s : State), t.boundsWf min max = true →
    (∀ size v, min ≤ v → v ≤ max →
      ∃ b, exec (.rangedEncode t min max size v) s = .next { s with ret := .bits b } ∧
        exec (.numberEncode t size v) s = .next { s with ret := .bits b } ∧ b.length = size ∧
        (Bits.toNat b : Int) = v % 2 ^ t.width % 2 ^ size) ∧
    ∀ (b : Bits) (v : Int), exec (.numberDecode t b) s = .next { s with ret := .int v } →
      (min ≤ v ∧ v ≤ max → exec (.rangedDecode inst t min max b) s = .next { s with ret := .int v }) ∧
        (v < min ∨ max < v → exec (.rangedDecode inst t min max b) s =
          .next { s with ret := .raised (.fault (.payloadOutOfRange inst v)) })

/-- R120: every valid payload value of every kind survives the codec's round trip: every bitset value, and every
number or ranged value of the type (and bound) that fits the payload. An inference of the spec, over its decisions D15
and D16 (log entries 22 and 23). -/
def Obligations.CodecRoundTrip : Prop :=
  ∀ (e : Entry) (p : Payload), e.kind.wf = true → Payload.wf e p = true →
    (match e.kind, p with
      | .number t, .int v => t.width ≤ e.size ∨ (0 ≤ v ∧ v < 2 ^ e.size)
      | .ranged t _ _, .int v => t.width ≤ e.size ∨ (0 ≤ v ∧ v < 2 ^ e.size)
      | _, _ => True) →
    (encodePayload e p).length = e.size ∧ decodePayload e (encodePayload e p) = .ok p

/-! ### Message packer -/

/-- R132, R85: the header is the index in `HW` bits, its top bit 0. R133: the word width of the instruction at index
`i`. -/
def Obligations.HeaderIsTheIndexAndWordWidthTheFormula : Prop :=
  (∀ (d : Direction) (m : Msg) (s : State), (s.cfgOf d).wf = true → m.wf (s.cfgOf d) = true →
    ∃ b, exec (.msgHeader d m) s = .next { s with ret := .bits b } ∧ b.length = (s.cfgOf d).hw ∧
      Bits.toNat b = m.idx ∧ Bits.top b = false) ∧
  ∀ (d : Direction) (i : Nat) (e : Entry) (s : State), (s.cfgOf d).wf = true → (s.cfgOf d).dict[i]? = some e →
    exec (.msgWordWidth d i) s = .next { s with
      ret := .nat (max (roundUp (roundUp (1 + clog2 (s.cfgOf d).n) (s.cfgOf d).ha + e.size) (s.cfgOf d).sw)
        (s.cfgOf d).pw) }

/-- R134, R86, R139: header left-aligned, payload right-aligned, zero padding bits between; always exactly `WW[i]`
bits. That the padding bits are zero is the decision D4 (log entry 21). -/
def Obligations.PackLaysOutHeaderPaddingPayload : Prop :=
  ∀ (d : Direction) (m : Msg) (e : Entry) (s : State), (s.cfgOf d).wf = true →
    (s.cfgOf d).dict[m.idx]? = some e → Payload.wf e m.payload = true →
    ∃ raw b, exec (.msgPack d m) s = .next { s with ret := .bits raw } ∧ b = encodePayload e m.payload ∧
      b.length = e.size ∧ raw.length = (s.cfgOf d).ww e ∧
      raw = (s.cfgOf d).header m.idx ++ zeros ((s.cfgOf d).ww e - (s.cfgOf d).hw - e.size) ++ b ∧
      Bits.toNat raw = m.idx * 2 ^ ((s.cfgOf d).ww e - (s.cfgOf d).hw) + Bits.toNat b

/-- R135, R251, R252: bits whose first bit is 1 are not a message and are refused; else the header names the entry,
the low bits are its payload; an unknown header and an out-of-range payload raise their faults to the caller, and no
state of the block changes. The refusal is the model's reading of R135 and R252 (log entry 10); the ranged fault is
the decision D14 (log entry 22). -/
def Obligations.UnpackReadsHeaderAndPayload : Prop :=
  ∀ (d : Direction) (raw : Bits) (s : State), (s.cfgOf d).wf = true → (s.cfgOf d).hw ≤ raw.length →
    (Bits.top raw = true → exec (.msgUnpack d raw) s = .refused .illFormedMessage) ∧
    (Bits.top raw = false → (s.cfgOf d).n ≤ Bits.toNat (raw.take (s.cfgOf d).hw) →
      exec (.msgUnpack d raw) s = .next { s with
        ret := .raised (.fault (.unknownHeader (Bits.toNat (raw.take (s.cfgOf d).hw)))) } ∧
      Bits.toNat (raw.take (s.cfgOf d).hw) < 2 ^ ((s.cfgOf d).hw - 1)) ∧
    ∀ e, (s.cfgOf d).dict[Bits.toNat (raw.take (s.cfgOf d).hw)]? = some e → raw.length = (s.cfgOf d).ww e →
      (∀ p, decodePayload e (Bits.low e.size raw) = .ok p →
        exec (.msgUnpack d raw) s = .next { s with
          ret := .msg ⟨Bits.toNat (raw.take (s.cfgOf d).hw), p⟩ }) ∧
      (∀ t min max, e.kind = .ranged t min max →
        (numberDecode t (Bits.low e.size raw) < min ∨ max < numberDecode t (Bits.low e.size raw)) →
        exec (.msgUnpack d raw) s = .next { s with
          ret := .raised (.fault (.payloadOutOfRange e.name (numberDecode t (Bits.low e.size raw)))) })

/-- R136: a message is made by the instruction's name or by its index; a ranged value outside its bound raises
`PayloadOutOfRange`. An inference of the spec; the fault is its decision D14 (log entry 22). -/
def Obligations.MakeByNameOrIndex : Prop :=
  ∀ (d : Direction) (i : Nat) (e : Entry) (p : Payload) (s : State), (s.cfgOf d).wf = true →
    (s.cfgOf d).dict[i]? = some e →
    (Payload.wf e p = true →
      exec (.msgMake d (.name e.name) p) s = .next { s with ret := .msg ⟨i, p⟩ } ∧
        exec (.msgMake d (.index i) p) s = .next { s with ret := .msg ⟨i, p⟩ }) ∧
    (∀ t min max v, e.kind = .ranged t min max → t.contains v = true → (v < min ∨ max < v) →
      exec (.msgMake d (.name e.name) (.int v)) s =
          .next { s with ret := .raised (.fault (.payloadOutOfRange e.name v)) } ∧
        exec (.msgMake d (.index i) (.int v)) s =
          .next { s with ret := .raised (.fault (.payloadOutOfRange e.name v)) })

/-- R119, R137: two payload values of one instruction are equal exactly when they are the same value; two messages of one
dictionary exactly when their indices are the same and their payloads are equal or of size 0. That R137's corner case
also covers number and ranged payloads is deduced (log entry 32). -/
def Obligations.EqualityOfPayloadsAndMessages : Prop :=
  (∀ (e : Entry) (p q : Payload) (s : State), e.kind.wf = true → Payload.wf e p = true → Payload.wf e q = true →
    exec (.payloadEq e p q) s = .next { s with ret := .bool (decide (p = q)) }) ∧
  ∀ (d : Direction) (m k : Msg) (e : Entry) (s : State), (s.cfgOf d).wf = true → m.wf (s.cfgOf d) = true →
    k.wf (s.cfgOf d) = true → (s.cfgOf d).dict[m.idx]? = some e →
    exec (.msgEq d m k) s = .next { s with
      ret := .bool (decide (m.idx = k.idx ∧ (e.size = 0 ∨ m.payload = k.payload))) }

/-- R138: unpacking inverts packing on messages with a valid payload; packing what was unpacked gives the bits back
with the padding bits, and a number payload's unread high bits, set to zero. An inference of the spec (its decisions
D4, D5 and D16, log entries 21 and 23). -/
def Obligations.PackAndUnpackAreInverse : Prop :=
  ∀ c : ParamSet, c.wf = true →
    (∀ m : Msg, m.valid c = true → unpack c (pack c m) = .msg m) ∧
      ∀ (raw : Bits) (m : Msg) (e : Entry), unpack c raw = .msg m → c.dict[m.idx]? = some e →
        pack c m = raw.take c.hw ++ zeros (c.ww e - c.hw - readBits e) ++ Bits.low (readBits e) raw

/-! ### Encoder -/

/-- R151: the packed message is put after what was held, every whole word is pushed, oldest first, at least one; the
rest stays held. Nothing but the Encoder and the return value changes. The order of the bits in the words is the
decision D3, the form of the buffer in the invariant D25 and an inference of the spec (R27) (log entries 18 and 25).
-/
def Obligations.EncodeAppendsAndPushesWords : Prop :=
  ∀ (m : Msg) (s : State), s.enc.Inv → m.wf s.enc.cfg = true →
    ∃ f, exec (.encEncode m) s = .next { s with enc := f, ret := .done } ∧
      s.enc.Emitted f (pack s.enc.cfg m) ∧ f.Inv ∧ s.enc.sink.length < f.sink.length

/-- R152: a batch is its messages encoded one after the other; it does not flush. The order of the bits in the words
is the decision D3 (log entry 18). -/
def Obligations.BatchIsRepeatedEncode : Prop :=
  ∀ (ms : List Msg) (s : State), s.enc.Inv → (∀ m ∈ ms, m.wf s.enc.cfg = true) →
    ∃ f, exec (.encEncodeBatch ms) s = .next { s with enc := f, ret := .done } ∧
      runOps (ms.map .encEncode) { s with ret := .done } = .next { s with enc := f, ret := .done } ∧
      s.enc.Emitted f (ms.map (pack s.enc.cfg)).flatten

/-- R153: with bits buffered, one physical word, the held bits unchanged in its top positions and a padding sub-word
in every other, and nothing stays held; with nothing buffered, no word and no change. What fills the word, and that an
empty buffer pushes nothing, are the decisions D6 to D8 (log entry 19). -/
def Obligations.FlushCompletesTheWord : Prop :=
  (∀ s : State, s.enc.Inv → s.enc.fill ≠ 0 →
    ∃ w k, w = s.enc.held ++ (List.replicate k (true :: zeros (s.enc.cfg.sw - 1))).flatten ∧
      w.length = s.enc.cfg.pw ∧ 1 ≤ k ∧ k + 1 ≤ s.enc.cfg.ratio ∧
      exec .encFlush s = .next { s with
        enc := { s.enc with sink := s.enc.sink ++ [w], buf := zeros s.enc.cfg.encCap, fill := 0 }, ret := .done }) ∧
  ∀ s : State, s.enc.cfg.wf = true → s.enc.fill = 0 → exec .encFlush s = .next { s with ret := .done }

/-- R157: a second flush in a row leaves the state the first one left. An inference of the spec from its decision D8
(log entry 19). -/
def Obligations.FlushIsIdempotent : Prop :=
  ∀ s : State, s.enc.cfg.wf = true →
    ∃ t, exec .encFlush s = .next t ∧ exec .encFlush t = .next t ∧ runOps [.encFlush, .encFlush] s = .next t

/-- R154: buffer zero, fill 0, sink empty; the parameter set stays; held bits are lost. (That the environment's count
of words taken from the sink starts again is the model's, log entry 9.) The values are the decision D18 (log entry
25). -/
def Obligations.EncoderResetEmptiesTheEncoder : Prop :=
  ∀ s : State, s.enc.cfg.wf = true →
    exec .encReset s = .next { s with
      enc := { cfg := s.enc.cfg, buf := zeros s.enc.cfg.encCap, fill := 0, sink := [] }
      conn := { s.conn with taken := 0 }
      ret := .done }

/-- R156: the closed form of what a fresh Encoder pushes for `k` messages and a flush. An inference of the spec; the
sub-word order is its decision D3, the filler D7 (log entries 18 and 19). -/
def Obligations.ClosedFormOfTheStream : Prop :=
  ∀ (c rx : ParamSet) (ms : List Msg), c.wf = true → (∀ m ∈ ms, m.wf c = true) →
    ∃ t u, runOps (ms.map .encEncode) (State.resetWith c rx) = .next t ∧ exec .encFlush t = .next u ∧
      (let b := (ms.map (pack c)).flatten
       let q := (c.pw - b.length % c.pw) % c.pw
       c.sw ∣ q ∧
       bitstream u.enc.sink = b ++ (List.replicate (q / c.sw) (true :: zeros (c.sw - 1))).flatten ∧
       u.enc.sink.length = (b.length + q) / c.pw ∧
       t.enc.sink = u.enc.sink.take (b.length / c.pw) ∧ t.enc.fill = b.length % c.pw)

/-! ### Decoder -/

/-- R172 line 2, R183: a sub-word with top bit 1 at a message start is skipped, and any number of them leaves the
Decoder, the queue and the listeners as they were. That the comma bit is tested here alone is the decision D9, the
ignored filler D6 (log entries 20 and 21). -/
def Obligations.PaddingSubwordsAreSkipped : Prop :=
  ∀ s : State, s.dec.cfg.wf = true → s.dec.fault = none → s.dec.fill = 0 →
    (∀ b : Bits, b.length = s.dec.cfg.sw → Bits.top b = true →
      exec (.decSubword b) s = .next { s with ret := .done }) ∧
    ∀ ps : List Bits, (∀ b ∈ ps, b.length = s.dec.cfg.sw ∧ Bits.top b = true) →
      runOps (ps.map .decSubword) { s with ret := .done } = .next { s with ret := .done }

/-- R172 lines 3 to 5 and 9: while the header or the body is incomplete the sub-word is buffered, whatever its top bit
inside a message. That a set top bit inside a message is data is the decision D9, the place of the bits in the buffer
D25 (log entries 20 and 25). -/
def Obligations.IncompleteMessageIsBuffered : Prop :=
  ∀ (b x : Bits) (s : State), s.dec.Inv → b.length = s.dec.cfg.sw → s.dec.fault = none →
    (s.dec.fill = 0 → Bits.top b = false) → x = s.dec.held ++ b →
    (x.length < s.dec.cfg.hw ∨ (s.dec.cfg.hw ≤ x.length ∧
      ∃ e, s.dec.cfg.dict[Bits.toNat (x.take s.dec.cfg.hw)]? = some e ∧ x.length < s.dec.cfg.ww e)) →
    exec (.decSubword b) s = .next { s with dec := s.dec.holding x, ret := .done }

/-- R172 lines 6 to 8, R252, R260: the sub-word that completes a header `h >= N` raises `UnknownHeader(h)` and latches
it, the sub-word shifted in, queue and listeners unchanged. When it is raised and that it latches are the decisions
D10 and D11 (log entry 24). -/
def Obligations.UnknownHeaderIsLatched : Prop :=
  ∀ (b x : Bits) (s : State), s.dec.Inv → b.length = s.dec.cfg.sw → s.dec.fault = none →
    (s.dec.fill = 0 → Bits.top b = false) → x = s.dec.held ++ b → s.dec.cfg.hw ≤ x.length →
    s.dec.cfg.n ≤ Bits.toNat (x.take s.dec.cfg.hw) →
    exec (.decSubword b) s = .next (s.faulted x (.unknownHeader (Bits.toNat (x.take s.dec.cfg.hw)))) ∧
      x.length = roundUp s.dec.cfg.hw s.dec.cfg.sw

/-- R172 lines 10 to 17, R61, R174: the sub-word that completes a message calls every listener with it, then pushes
it, then clears the buffer. The order of the listeners is the decision D19 (log entries 11 and 27). -/
def Obligations.CompleteMessageIsDelivered : Prop :=
  ∀ (b x : Bits) (e : Entry) (p : Payload) (s : State), s.dec.Inv → b.length = s.dec.cfg.sw → s.dec.fault = none →
    (s.dec.fill = 0 → Bits.top b = false) → x = s.dec.held ++ b →
    s.dec.cfg.dict[Bits.toNat (x.take s.dec.cfg.hw)]? = some e → x.length = s.dec.cfg.ww e →
    decodePayload e (Bits.low e.size x) = .ok p →
    exec (.decSubword b) s = .next (s.received ⟨Bits.toNat (x.take s.dec.cfg.hw), p⟩)

/-- R172 line 13, R118, R254, R260: a complete message whose ranged value is out of bounds raises `PayloadOutOfRange`
and latches it; nothing is notified or pushed. The fault is the decision D14, the latch D11 (log entries 22 and 24).
-/
def Obligations.OutOfRangePayloadIsLatched : Prop :=
  ∀ (b x : Bits) (e : Entry) (t : IntType) (min max : Int) (s : State), s.dec.Inv → b.length = s.dec.cfg.sw →
    s.dec.fault = none → (s.dec.fill = 0 → Bits.top b = false) → x = s.dec.held ++ b →
    s.dec.cfg.dict[Bits.toNat (x.take s.dec.cfg.hw)]? = some e → x.length = s.dec.cfg.ww e →
    e.kind = .ranged t min max →
    (numberDecode t (Bits.low e.size x) < min ∨ max < numberDecode t (Bits.low e.size x)) →
    exec (.decSubword b) s =
      .next (s.faulted x (.payloadOutOfRange e.name (numberDecode t (Bits.low e.size x))))

/-- R255: while the latch is set the three operations that read the stream raise `DecoderFaulted` with the latched
fault and change nothing. The latch is the decision D11 (log entry 24). -/
def Obligations.FaultedDecoderTakesNothing : Prop :=
  ∀ (f : BlockFault) (s : State), s.dec.cfg.wf = true → s.dec.fault = some f →
    (∀ w : Bits, w.length = s.dec.cfg.pw →
      exec (.decDecode w) s = .next { s with ret := .raised (.decoderFaulted f) }) ∧
    (∀ b : Bits, b.length = s.dec.cfg.sw →
      exec (.decSubword b) s = .next { s with ret := .raised (.decoderFaulted f) }) ∧
    exec .decEndOfStream s = .next { s with ret := .raised (.decoderFaulted f) }

/-- R171, R52: `DEC.decode` is `DEC.subword` of the `RATIO` sub-words of its word, the most significant first, until
one raises a fault. The order is the decision D3, the loss of the rest of the word D12 (log entries 18 and 24). -/
def Obligations.DecodeIsItsSubwords : Prop :=
  ∀ (w : Bits) (s : State), s.dec.cfg.wf = true → w.length = s.dec.cfg.pw → s.dec.fault = none →
    ∃ t, exec (.decDecode w) s = .next t ∧
      runSubwords ((List.range s.dec.cfg.ratio).map (fun j => (w.drop (j * s.dec.cfg.sw)).take s.dec.cfg.sw)) s =
        .next t

/-- R60: at most one message completes per `DEC.decode`; the Decoder's invariant is kept. An inference of the spec. -/
def Obligations.AtMostOneMessagePerWord : Prop :=
  ∀ (w : Bits) (s : State), s.dec.Inv → w.length = s.dec.cfg.pw →
    ∃ t, exec (.decDecode w) s = .next t ∧ t.dec.Inv ∧
      (t.dec.queue = s.dec.queue ∨ ∃ m, t.dec.queue = s.dec.queue ++ [m])

/-- R175, R253: at the end of the stream a partial message raises `StreamUnderrun` and latches it; between messages
nothing happens. The operation is the decision D13 (log entry 24). -/
def Obligations.EndOfStreamReportsAPartialMessage : Prop :=
  ∀ s : State, s.dec.cfg.wf = true → s.dec.fault = none →
    (s.dec.fill ≠ 0 → exec .decEndOfStream s = .next { s with
      dec := { s.dec with fault := some (.streamUnderrun s.dec.fill) }
      ret := .raised (.fault (.streamUnderrun s.dec.fill)) }) ∧
    (s.dec.fill = 0 → exec .decEndOfStream s = .next { s with ret := .done })

/-- R173: a listener is put at the end of the list, whether or not the Decoder has faulted. R176: reset gives buffer,
fill, latch, queue and listeners their values after reset, in every state; the parameter set stays. The decisions D19
and D18 (log entries 27 and 25). -/
def Obligations.AddListenerAppendsAndResetClears : Prop :=
  ∀ s : State, s.dec.cfg.wf = true →
    (∀ l, exec (.decAddListener l) s = .next { s with
      dec := { s.dec with listeners := s.dec.listeners ++ [l] }, ret := .done }) ∧
    exec .decReset s = .next { s with
      dec := { cfg := s.dec.cfg, buf := zeros s.dec.cfg.decCap, fill := 0, fault := none, queue := [], listeners := [] }
      ret := .done }

/-- R33, R255, R262: only `DEC.reset` clears the latch or replaces the latched fault. While it is set no other instruction
changes the Decoder but for a listener's adding, no operation of the environment but for messages the receiving ones take
from the front of the queue (R226, R229), and no step, whatever it performs, but for these two. The latch is the decision
D11 (log entry 24). -/
def Obligations.OnlyResetLeavesAFault : Prop :=
  (∀ (i : Instr) (f : BlockFault) (s t : State), exec i s = .next t → s.dec.fault = some f → i ≠ .decReset →
    t.dec = { s.dec with listeners := t.dec.listeners } ∧ (instrOnDecoder i = false → t.dec = s.dec) ∧
      ∃ ls, t.dec.listeners = s.dec.listeners ++ ls) ∧
  (∀ (a : EnvOp) (f : BlockFault) (s t : State), execEnv a s = .next t → s.dec.fault = some f →
    (∃ k, t.dec = { s.dec with queue := s.dec.queue.drop k }) ∧ (a.mayDrain = false → t.dec = s.dec)) ∧
  ∀ (f : BlockFault) (s t : State), step s = .next t → s.dec.fault = some f →
    (∀ rest, s.pending ≠ .op .decReset :: rest) →
    ∃ k ls, t.dec = { s.dec with queue := s.dec.queue.drop k, listeners := s.dec.listeners ++ ls }

/-- R185: what was pushed and shown to listeners stays pushed and shown, until `DEC.reset` constructs the Decoder anew. -/
def Obligations.ResultsAreNotRetracted : Prop :=
  ∀ (i : Instr) (s t : State), exec i s = .next t → i ≠ .decReset →
    (∃ ms, t.dec.queue = s.dec.queue ++ ms) ∧ ∃ ks, t.calls = s.calls ++ ks

/-! ### Wire items -/

/-- R86, R87, R172: a message of the Decoder's dictionary that arrives between messages is delivered whole, whatever
its padding bits; one whose ranged value is out of bounds is faulted on. That the padding bits are ignored is the
decision D5 (log entry 21), that no comma bit is tested inside a message D9 (log entry 20), the order of the listeners
D19 (log entry 27), the fault D14 (log entry 22); that the row is its reception is the model's (log entry 7). -/
def Obligations.MessageItemIsDelivered : Prop :=
  ∀ (i : Nat) (z p : Bits) (e : Entry) (s : State), s.AtBoundary → s.dec.cfg.dict[i]? = some e →
    p.length = e.size → z.length = s.dec.cfg.ww e - s.dec.cfg.hw - e.size →
    (∀ v, decodePayload e p = .ok v → exec (.msg i z p) s = .next (s.received ⟨i, v⟩)) ∧
      (∀ f, decodePayload e p = .error f →
        exec (.msg i z p) s = .next (s.faulted (s.dec.cfg.header i ++ (z ++ p)) f))

/-- Every wire item is received as its sub-words, whatever the Decoder is doing: between messages, inside one, or
faulted; a row of another parameter set whose bits are whole sub-words is received as those bits (43_decoder.md R172;
93_implementation_defined.md U12, U13). That a wire row is its reception is the model's reading (log entry 7). -/
def Obligations.WireItemIsItsSubwords : Prop :=
  ∀ (i : Instr) (b : Bits) (s : State), s.dec.cfg.wf = true → encode s.dec.cfg i = some b →
    i.widthsOk s.dec.cfg = true → b.length % s.dec.cfg.sw = 0 →
    ∃ t, exec i s = .next t ∧
      runSubwords ((List.range (b.length / s.dec.cfg.sw)).map
        (fun j => (b.drop (j * s.dec.cfg.sw)).take s.dec.cfg.sw)) s = .next t

/-- R90, R92: a padding sub-word that arrives between messages changes nothing, whatever its filler. R93, R252, R260:
a header value that is no instruction's is faulted on with the sub-words of the header taken. The ignored filler is
the decision D6, when the fault is raised D10 (log entries 21 and 24); the rows are receptions (log entry 7). -/
def Obligations.PaddingAndIllegalHeaderItems : Prop :=
  (∀ (x : Bits) (s : State), s.AtBoundary → x.length + 1 = s.dec.cfg.sw →
    exec (.pad x) s = .next { s with ret := .done }) ∧
  ∀ (h : Nat) (r : Bits) (s : State), s.AtBoundary → s.dec.cfg.n ≤ h → h < 2 ^ (s.dec.cfg.hw - 1) →
    r.length + s.dec.cfg.hw = roundUp s.dec.cfg.hw s.dec.cfg.sw →
    exec (.illegalHeader h r) s = .next (s.faulted (Bits.ofNat s.dec.cfg.hw h ++ r) (.unknownHeader h))

/-- The rows of `REF8` (30_encoding.md R98) and of `CFG16`, received between messages. That the padding bits and the
filler are ignored (R87, R90) is the decisions D5 and D6 (log entry 21), that no comma bit is tested inside a message D9
(log entry 20), the order of the listeners D19 (log entry 27), the kinds of `REF8` D24; `CFG16` is the spec's invention
(log entry 28), and that a row is its reception is the model's (log entry 7). -/
def Obligations.ReferenceAndCfgSixteenRowsAreReceived : Prop :=
  (∀ s : State, s.AtBoundary → setName? s.dec.cfg = some .ref8 →
    exec .ref8A s = .next (s.received ⟨0, .bits []⟩) ∧
    (∀ p, exec (.ref8B p) s = .next (s.received ⟨1, .bits (Bits.ofBitVec p)⟩)) ∧
    (∀ x, exec (.ref8Pad x) s = .next { s with ret := .done })) ∧
  ∀ s : State, s.AtBoundary → setName? s.dec.cfg = some .cfg16 →
    (∀ z p, exec (.cfg16X z p) s = .next (s.received ⟨0, .bits (Bits.ofBitVec p)⟩)) ∧
    (∀ z p, exec (.cfg16Y z p) s = .next (s.received ⟨1, .bits (Bits.ofBitVec p)⟩)) ∧
    (∀ z, exec (.cfg16Z z) s = .next (s.received ⟨2, .bits []⟩)) ∧
    (∀ z p, exec (.cfg16W z p) s = .next (s.received ⟨3, .bits (Bits.ofBitVec p)⟩)) ∧
    (∀ x, exec (.cfg16Pad x) s = .next { s with ret := .done })

/-- The rows of `CFG64`, received between messages: an unsigned 64-bit number, and a ranged value of 0 to 5.
That the padding bits and the filler are ignored (R87, R90) is the decisions D5 and D6 (log entry 21), that no comma bit
is tested inside a message D9 (log entry 20), the order of the listeners D19 (log entry 27), the fault of `P4` D14, its
wire form D15 (log entry 22); `CFG64` is the spec's invention (log entry 28), and that a row is its reception is the
model's (log entry 7). -/
def Obligations.CfgSixtyFourRowsAreReceived : Prop :=
  ∀ s : State, s.AtBoundary → setName? s.dec.cfg = some .cfg64 →
    (∀ z, exec (.cfg64P0 z) s = .next (s.received ⟨0, .bits []⟩)) ∧
    (∀ p, exec (.cfg64P1 p) s = .next (s.received ⟨1, .bits (Bits.ofBitVec p)⟩)) ∧
    (∀ z p, exec (.cfg64P2 z p) s = .next (s.received ⟨2, .bits (Bits.ofBitVec p)⟩)) ∧
    (∀ z p, exec (.cfg64P3 z p) s = .next (s.received ⟨3, .int p.toNat⟩)) ∧
    (∀ z p, p.toNat ≤ 5 → exec (.cfg64P4 z p) s = .next (s.received ⟨4, .int p.toNat⟩)) ∧
    (∀ z p, 5 < p.toNat → ∃ x, encode s.dec.cfg (.cfg64P4 z p) = some x ∧
      exec (.cfg64P4 z p) s = .next (s.faulted x (.payloadOutOfRange "P4" p.toNat))) ∧
    (∀ x, exec (.cfg64Pad x) s = .next { s with ret := .done })

/-- The rows of `CFG3`, received between messages. That the padding bits and the filler are ignored (R87, R90) is the
decisions D5 and D6 (log entry 21), that no comma bit is tested inside a message D9 (log entry 20), the order of the
listeners D19 (log entry 27); `CFG3` is the spec's invention (log entry 28), and that a row is its reception is the
model's (log entry 7). -/
def Obligations.CfgThreeRowsAreReceived : Prop :=
  ∀ s : State, s.AtBoundary → setName? s.dec.cfg = some .cfg3 →
    (∀ z, exec (.cfg3N0 z) s = .next (s.received ⟨0, .bits []⟩)) ∧
    (∀ z p, exec (.cfg3N1 z p) s = .next (s.received ⟨1, .bits (Bits.ofBitVec p)⟩)) ∧
    (∀ z p, exec (.cfg3N2 z p) s = .next (s.received ⟨2, .bits (Bits.ofBitVec p)⟩)) ∧
    (∀ z p, exec (.cfg3N3 z p) s = .next (s.received ⟨3, .bits (Bits.ofBitVec p)⟩)) ∧
    (∀ p, exec (.cfg3N4 p) s = .next (s.received ⟨4, .bits (Bits.ofBitVec p)⟩)) ∧
    (∀ x, exec (.cfg3Pad x) s = .next { s with ret := .done })

/-- The rows of `CFGS`, signed eight-bit numbers of 8, 4 and 12 payload bits, and of `CFG1`, received between
messages. That the padding bits and the filler are ignored (R87, R90) is the decisions D5 and D6 (log entry 21), that no
comma bit is tested inside a message D9 (log entry 20), the order of the listeners D19 (log entry 27), how a number
of another width is read D16 (log entry 23) and two's complement general knowledge (log entry 17); the sets are the
spec's inventions (log entry 28), and that a row is its reception is the model's (log entry 7). -/
def Obligations.SignedAndSingleRowsAreReceived : Prop :=
  (∀ s : State, s.AtBoundary → setName? s.dec.cfg = some .cfgs →
    (∀ p, exec (.cfgsS p) s = .next (s.received ⟨0, .int p.toInt⟩)) ∧
    (∀ z p, exec (.cfgsT z p) s = .next (s.received ⟨1, .int p.toNat⟩)) ∧
    (∀ z p, exec (.cfgsU z p) s = .next (s.received ⟨2, .int (p.setWidth 8).toInt⟩)) ∧
    (∀ x, exec (.cfgsPad x) s = .next { s with ret := .done })) ∧
  ∀ s : State, s.AtBoundary → setName? s.dec.cfg = some .cfg1 →
    (∀ p, exec (.cfg1Only p) s = .next (s.received ⟨0, .bits (Bits.ofBitVec p)⟩)) ∧
    (∀ x, exec (.cfg1Pad x) s = .next { s with ret := .done })

/-! ### The laws of the block -/

/-- R180: the round-trip law, for one message of any instruction with a valid payload, over any parameter set. -/
def Obligations.RoundTripLaw : Prop :=
  ∀ (c : ParamSet) (m : Msg), c.wf = true → m.valid c = true →
    ∃ t u, runOps [.encEncode m, .encFlush] (State.resetWith c c) = .next t ∧
      runOps (t.enc.sink.map .decDecode) t = .next u ∧
      u.dec.queue = [m] ∧ u.dec.fill = 0 ∧ u.dec.fault = none

/-- R68, R181: the stream-concatenation law, with flushes anywhere between the encodes and with listeners, each called
with the messages in order, finding the queue without the message. The law is R68; what it rests on at `RATIO > 1` are
the decisions D3, D7 and D9 (log entries 18 to 20), and the clause on listeners is an inference of the spec. -/
def Obligations.StreamConcatenationLaw : Prop :=
  ∀ (c : ParamSet) (ops : List (Option Msg)) (ls : List Listener), c.wf = true →
    (∀ m, some m ∈ ops → m.valid c = true) →
    ∃ r t u, runOps (ls.map .decAddListener) (State.resetWith c c) = .next r ∧
      runOps (ops.map (fun | some m => .encEncode m | none => .encFlush) ++ [.encFlush]) r = .next t ∧
      runOps (t.enc.sink.map .decDecode) t = .next u ∧
      u.dec.queue = ops.filterMap id ∧ u.dec.fill = 0 ∧ u.dec.fault = none ∧
      u.calls = ((ops.filterMap id).zipIdx.map (fun mk => ls.map (fun l => ⟨l, mk.1, mk.2⟩))).flatten

/-! ### The machine -/

/-- The next command is performed with the commands after it left pending; a wire item is decoded first, and the bits
after it stay in front; where the bits end inside an item, its next sub-word arrives (R172), and bits that are no whole
sub-word are refused (R256) (log entries 3 and 31). That callers' operations stand in a list is the model's choice. -/
def Obligations.StepRunsTheDecodedInstruction : Prop :=
  (∀ (i : Instr) (rest : List Command) (s : State), s.pending = .op i :: rest →
    step s = exec i { s with pending := rest }) ∧
  (∀ (a : EnvOp) (rest : List Command) (s : State), s.pending = .env a :: rest →
    step s = execEnv a { s with pending := rest }) ∧
  (∀ (b b' : Bits) (i : Instr) (rest : List Command) (s : State), s.pending = .wire b :: rest →
    decode s.dec.cfg b = .ok (i, b') →
    step s = exec i { s with pending := if b' = [] then rest else .wire b' :: rest }) ∧
  ∀ (b : Bits) (rest : List Command) (s : State), s.pending = .wire b :: rest →
    decode s.dec.cfg b = .error .incompleteItem →
    (b = [] → step s = .next { s with pending := rest, ret := .done }) ∧
    (s.dec.cfg.sw ≤ b.length → step s = exec (.decSubword (b.take s.dec.cfg.sw)) { s with
      pending := if b.drop s.dec.cfg.sw = [] then rest else .wire (b.drop s.dec.cfg.sw) :: rest }) ∧
    (b ≠ [] → b.length < s.dec.cfg.sw → step s = .refused .wrongWidth)

/-- R263: with nothing pending a final state stays as it is, and a state that is not final, one whose last operation
reported a fault among them, stops the machine. The
classes are an inference of the spec (R263); that `step` reports them when nothing is pending is the model's (log
entry 8). -/
def Obligations.OnlyFinalStatesRest : Prop :=
  ∀ s : State, s.pending = [] →
    (s.final = true → step s = .next s) ∧ (s.final = false → ∃ f, step s = .fault f)

/-- Every well-formed instruction runs (60_exceptions.md R256): it answers a next state in every state whose parameter
sets it is well formed under, a row of a named set where the Decoder has that set. That the Encoder never waits is the
decision D20 (log entry 27). -/
def Obligations.WellFormedInstructionsRun : Prop :=
  ∀ (i : Instr) (s : State), WellFormed s.enc.cfg s.dec.cfg i = true →
    (i.rowSet = none ∨ i.rowSet = setName? s.dec.cfg) → ∃ t, exec i s = .next t

/-- R256, R9, R159: an operation on operands that its rule's types exclude, an operation of an agent whose parameter
set breaks a constraint, and a wire item whose fields or bits do not fit the Decoder's parameter set are refused.
Refusal is the spec's inference (R256) and its decision D17 (log entry 26). -/
def Obligations.IllFormedInputIsRefused : Prop :=
  (∀ (i : Instr) (s : State), i.operandsOk s.enc.cfg s.dec.cfg = false → ∃ r, exec i s = .refused r) ∧
  (∀ (i : Instr) (s : State), instrOnEncoder i = true → s.enc.cfg.wf = false →
    exec i s = .refused .illFormedParameters) ∧
  (∀ (i : Instr) (s : State), instrOnDecoder i = true → s.dec.cfg.wf = false →
    exec i s = .refused .illFormedParameters) ∧
  ∀ (i : Instr) (b : Bits) (s : State), s.dec.cfg.wf = true → encode s.dec.cfg i = some b →
    (i.widthsOk s.dec.cfg = false ∨ b.length % s.dec.cfg.sw ≠ 0) → exec i s = .refused .wrongWidth

/-- R21: an operation of one agent leaves the other agent unchanged; a codec or packer operation changes nothing but
what it returns; no instruction touches the pending commands or the double buffer. The connection's three fields are
the model's (log entries 9 and 14). -/
def Obligations.AgentsShareNoState : Prop :=
  ∀ (i : Instr) (s t : State), exec i s = .next t →
    t.pending = s.pending ∧ t.dbuf = s.dbuf ∧
    (instrOnEncoder i = false → t.enc = s.enc) ∧
    (instrOnDecoder i = false → t.dec = s.dec ∧ t.calls = s.calls) ∧
    (instrOnEncoder i = false → instrOnDecoder i = false → t = { s with ret := t.ret }) ∧
    t.conn = { s.conn with haltSeen := t.conn.haltSeen, lifecycle := t.conn.lifecycle, taken := t.conn.taken } ∧
    (i ≠ .encReset → t.conn.taken = s.conn.taken) ∧
    (instrOnDecoder i = false → t.conn.haltSeen = s.conn.haltSeen ∧ t.conn.lifecycle = s.conn.lifecycle)

/-- R22, R71, R291: no step writes a parameter set. That the set stands in the state, read-only, is the model's form
(log entry 5). -/
def Obligations.ConfigurationIsNeverWritten : Prop :=
  ∀ s t : State, step s = .next t → t.enc.cfg = s.enc.cfg ∧ t.dec.cfg = s.dec.cfg

/-- R39: the values after reset, under any two parameter sets, and the machine's own reset state under `REF8`. (What
the caller's side holds after reset is the model's, log entries 2 and 4.) The block's values are the decision D18. -/
def Obligations.ResetValues : Prop :=
  (∀ tx rx : ParamSet,
    (State.resetWith tx rx).enc = { cfg := tx, buf := zeros tx.encCap, fill := 0, sink := [] } ∧
    (State.resetWith tx rx).dec =
      { cfg := rx, buf := zeros rx.decCap, fill := 0, fault := none, queue := [], listeners := [] }) ∧
  Sys2Proof.core.reset = State.resetWith ref8 ref8 ∧
  (State.reset).enc.buf = zeros 24 ∧ (State.reset).dec.buf = zeros 16 ∧ (State.reset).final = true

/-- The invariants of R26, R27, R31, R32 and R260 hold after reset. The values it holds of are the decisions D18 and D30
(log entries 25 and 30). The callers' invariant is the model's (log entries 13 and 34), and so is what it holds of: that
after reset nobody waits and the connection is not destroyed (log entry 2); that `State.reset` has `REF8` and slots of 64
words is log entry 4. -/
def Obligations.InvariantHoldsAtReset : Prop :=
  State.reset.Inv ∧ ∀ tx rx : ParamSet, tx.wf = true → rx.wf = true → (State.resetWith tx rx).Inv

/-- The invariants of R26, R27, R31, R32, R34, R206, R212 and R260 are kept by every step from every state that meets
them. The buffers' form is the decision D25, the latch D11 (log entries 25 and 24). The callers' invariant is the
model's: that who waits holds the Stream guard is its form of R228 (log entry 13), that nothing of a receive thread is
pending once the destructor has begun its form of R233 (log entry 34). -/
def Obligations.InvariantIsKeptByEveryStep : Prop :=
  ∀ s t : State, s.Inv → step s = .next t → t.Inv

/-! ### The environment -/

/-- R223, R201: `commit` encodes the whole send buffer and flushes, so that no bit stays in the Encoder; the words reach
the transport in order; the send buffer is cleared. R228: while a caller holds the Stream guard another one waits for it,
and nothing it asks of the connection is done. That `commit` flushes is an inference of the spec (R223); log entries 9,
13, 19, 27 and 29. -/
def Obligations.CommitTransfersEverything : Prop :=
  (∀ (v : Nat) (s : State), s.conn.alive = true → s.conn.stream = some v → s.conn.waiting = none →
    s.enc.Inv → (∀ m ∈ s.conn.sendQueue, m.wf s.enc.cfg = true) → s.conn.taken = s.enc.sink.length →
    ∃ t ws k, execEnv (.commit v) s = .next t ∧ t.conn.sendQueue = [] ∧ t.enc.fill = 0 ∧
      t.enc.sink = s.enc.sink ++ ws ∧ t.conn.wire = s.conn.wire ++ ws ∧ t.conn.taken = t.enc.sink.length ∧
      bitstream ws = s.enc.held ++ (s.conn.sendQueue.map (pack s.enc.cfg)).flatten ++
        (List.replicate k s.enc.cfg.padSubword).flatten ∧ t.dec = s.dec) ∧
  ∀ (u v : Nat) (ms : List Msg) (a : EnvOp) (s : State), s.conn.alive = true → s.dbuf.run = true →
    s.conn.stream = some u → v ≠ u →
    execEnv (.acquireStream v) s = .next { s with ret := .blocked } ∧
    (a ∈ [.releaseStream v, .add v ms, .commit v, .runUntilHalt v, .executeMessages v ms, .receive v, .tryReceive v,
      .receiveAll v, .receiveEmpty v, .getTimeInfo v] → execEnv a s = .refused .notStreamHolder)

/-- R224, R226: the halt message, one equal to `HALT_RX` by R137, fires the halt listener and is queued like any other;
`run_until_halt` waits until then, asked for the first time or again after any other message, and returns after. R229:
`execute_messages` adds the messages and the halt message, commits and waits; its caller waits as long as no halt message
is recorded, no Decoder fault latched and the run flag set, and gets the responses and the elapsed time once the halt
message is recorded; R236: a Decoder fault is raised to its caller; R233: a cleared run flag ends the wait. The two halt
parameters are the decision D22; waiting by asking again, what a cancelled wait answers, what consumes the record and
the transport that never makes `commit` wait are the model's (log entries 11 to 14, 29). -/
def Obligations.HaltIsDetected : Prop :=
  (∀ (u : Nat) (m h : Msg) (s : State), s.dec.cfg.halt = some h → .halt ∈ s.dec.listeners → s.conn.haltSeen = false →
    s.dec.fault = none → s.dbuf.run = true → s.conn.alive = true → s.conn.stream = some u →
    s.conn.waiting = none ∨ s.conn.waiting = some ⟨u, none⟩ →
    ∃ w, w = { s with conn := { s.conn with waiting := some ⟨u, none⟩ }, ret := .blocked } ∧
      execEnv (.runUntilHalt u) s = .next w ∧ (w.received m).dec.queue = s.dec.queue ++ [m] ∧
      (msgEq s.dec.cfg m h = true → ∃ t, execEnv (.runUntilHalt u) (w.received m) = .next t ∧ t.ret = .done ∧
        t.dec = (w.received m).dec ∧ t.conn.waiting = none) ∧
      (msgEq s.dec.cfg m h = false →
        execEnv (.runUntilHalt u) (w.received m) = .next { w.received m with ret := .blocked })) ∧
  ∀ (u : Nat) (ms : List Msg) (s : State), s.enc.cfg.wf = true → (∀ m ∈ s.conn.sendQueue ++ ms, m.wf s.enc.cfg = true) →
    s.conn.haltSeen = false → s.dec.fault = none → s.dbuf.run = true → s.conn.alive = true →
    s.conn.stream = some u → s.conn.waiting = none →
    ∃ w, execEnv (.executeMessages u ms) s = .next w ∧ w.ret = .blocked ∧ w.dec = s.dec ∧ w.conn.sendQueue = [] ∧
      w.enc = (s.enc.encodeBatch (s.conn.sendQueue ++ ms ++ s.enc.cfg.halt.toList)).flush ∧
      ∀ t : State, t.conn.waiting = w.conn.waiting → t.conn.alive = true →
        (t.conn.haltSeen = true → ∃ r, execEnv (.awaitMessages u) t = .next r ∧
          r.ret = .responses t.dec.queue (t.conn.time.since s.conn.time) ∧ r.dec = { t.dec with queue := [] } ∧
          r.conn.waiting = none) ∧
        (∀ f, t.conn.haltSeen = false → t.dec.fault = some f → ∃ r, execEnv (.awaitMessages u) t = .next r ∧
          r.ret = .raised (.fault f) ∧ r.dec = t.dec ∧ r.conn.waiting = none) ∧
        (t.conn.haltSeen = false → t.dec.fault = none → t.dbuf.run = true →
          execEnv (.awaitMessages u) t = .next { t with ret := .blocked }) ∧
        (t.conn.haltSeen = false → t.dec.fault = none → t.dbuf.run = false →
          ∃ r, execEnv (.awaitMessages u) t = .next r ∧ r.ret = .cancelled ∧ r.dec = t.dec ∧ r.conn.waiting = none)

/-- R202, R207, R208, R209, R210, R213: on an empty double buffer the producer is given its slot, the words from the
transport that fit are collected in it after those it holds, and it is handed over; the consumer is then given that slot,
hands its words to `DEC.decode` in order, and gives the slot back. R207, R212: with one packet outstanding the producer
writes a second one; then it waits (or gets null when shut down) and may not touch a slot, and the consumer reads the two
in the order they were written. R233, R234: the destructor, also when this connection's endpoint is closed, clears the
run flag, so that a thread waiting in `start_write` or `start_read` gets null (R207, R209), leaves nothing else pending
to a receive thread and takes the endpoint off the registry; once it has begun, no step
touches the Decoder, the double buffer's packets or the words received. Waiting by asking again, the empty slot
afterwards, the refusals, the registry's key and what destruction leaves are the model's (log entries 13, 15, 33 and 34).
-/
def Obligations.PacketIsHandedOverInOrder : Prop :=
  (∀ (n k : Nat) (p : List Bits) (s : State), s.dbuf.Inv → s.conn.alive = true → s.dbuf.count = 0 →
    k = min n (s.dbuf.capacity - (s.dbuf.slot s.dbuf.producer).length) →
    p = s.dbuf.slot s.dbuf.producer ++ s.conn.inbox.take k →
    execEnv .available s = .next { s with ret := .bool (!s.conn.inbox.isEmpty) } ∧
    execEnv .startWrite s = .next { s with ret := .slot (some s.dbuf.producer) } ∧
    execEnv .startRead s = .next { s with ret := if s.dbuf.run then .blocked else .slot none } ∧
    ∃ t u v w, execEnv (.fillSlot n) s = .next t ∧ t.ret = .nat (s.conn.inbox.take k).length ∧
      execEnv .stopWrite t = .next u ∧
      u.dbuf.count = 1 ∧ u.dbuf.producer ≠ s.dbuf.producer ∧ u.conn = { s.conn with inbox := s.conn.inbox.drop k } ∧
      execEnv .startRead u = .next { u with ret := .slot (some s.dbuf.producer) } ∧
      execEnv .decodeSlot u = .next v ∧
      v.pending = p.map (fun x => .op (.decDecode x)) ++ s.pending ∧
      execEnv .stopRead v = .next w ∧ w.dbuf.count = 0 ∧ w.dbuf.consumer = w.dbuf.producer ∧
      w.enc = s.enc ∧ w.dec = s.dec) ∧
  (∀ (n k : Nat) (p q : List Bits) (s : State), s.dbuf.Inv → s.conn.alive = true → s.dbuf.count = 1 →
    k = min n (s.dbuf.capacity - (s.dbuf.slot s.dbuf.producer).length) →
    p = s.dbuf.slot s.dbuf.consumer → q = s.dbuf.slot s.dbuf.producer ++ s.conn.inbox.take k →
    execEnv .startWrite s = .next { s with ret := .slot (some s.dbuf.producer) } ∧
    ∃ t u v w, execEnv (.fillSlot n) s = .next t ∧ execEnv .stopWrite t = .next u ∧
      u.dbuf.count = 2 ∧ u.conn = { s.conn with inbox := s.conn.inbox.drop k } ∧
      execEnv .startWrite u = .next { u with ret := if u.dbuf.run then .blocked else .slot none } ∧
      (∀ j, execEnv (.fillSlot j) u = .refused .environmentMisuse) ∧
      execEnv .stopWrite u = .refused .environmentMisuse ∧
      execEnv .startRead u = .next { u with ret := .slot (some s.dbuf.consumer) } ∧
      execEnv .decodeSlot u = .next v ∧ v.pending = p.map (fun x => .op (.decDecode x)) ++ s.pending ∧
      execEnv .stopRead v = .next w ∧ w.dbuf.count = 1 ∧ w.enc = s.enc ∧ w.dec = s.dec ∧
      ∀ x : State, x.dbuf = w.dbuf → x.conn.alive = true →
        execEnv .startRead x = .next { x with ret := .slot (some s.dbuf.producer) } ∧
        ∃ y z, execEnv .decodeSlot x = .next y ∧ y.pending = q.map (fun b => .op (.decDecode b)) ++ x.pending ∧
          execEnv .stopRead y = .next z ∧ z.dbuf.count = 0) ∧
  (∀ s : State, ∃ t, execEnv .destroy s = .next t ∧ t.conn.alive = false ∧ t.dbuf = { s.dbuf with run := false } ∧
    t.NoReceiveThread ∧ t.dec = s.dec ∧ t.enc = s.enc ∧ t.calls = s.calls ∧ t.conn.inbox = s.conn.inbox ∧
    (s.dbuf.count = 2 → execEnv .startWrite t = .next { t with ret := .slot none }) ∧
    (s.dbuf.count = 0 → execEnv .startRead t = .next { t with ret := .slot none }) ∧
    ∀ e, s.conn.endpoint = some e → execEnv (.closeConnection e) s = .next t ∧ t.conn.endpoint = none ∧
      t.conn.registry = s.conn.registry.erase e) ∧
  ∀ s t : State, s.conn.alive = false → s.NoReceiveThread → step s = .next t →
    t.dec = s.dec ∧ t.calls = s.calls ∧ t.conn.inbox = s.conn.inbox ∧
      t.dbuf = { s.dbuf with run := t.dbuf.run } ∧ t.conn.alive = false ∧ t.NoReceiveThread
end

