-- ==== Sys2Proof/Laws/Bits.lean ====
section
/-! SUPPORT. What the bit-vector operations of Machine/Operands.lean do. -/

namespace Sys2Proof

@[simp] theorem zeros_length (n : Nat) : (zeros n).length = n := by simp [zeros]

@[simp] theorem zeros_zero : zeros 0 = [] := rfl

theorem zeros_append (m n : Nat) : zeros m ++ zeros n = zeros (m + n) := by
  simp [zeros, List.replicate_append_replicate]

@[simp] theorem bits_ofNat_length (w n : Nat) : (Bits.ofNat w n).length = w := by
  induction w with
  | zero => rfl
  | succ w ih => simp [Bits.ofNat, ih]

@[simp] theorem bits_ofBitVec_length {w : Nat} (v : BitVec w) : (Bits.ofBitVec v).length = w := by
  simp [Bits.ofBitVec]

theorem bits_toNat_lt (b : Bits) : Bits.toNat b < 2 ^ b.length := by
  induction b with
  | nil => simp [Bits.toNat]
  | cons x r ih =>
    simp only [Bits.toNat, List.length_cons, Nat.pow_succ]
    split <;> omega

theorem bits_toNat_append (a b : Bits) : Bits.toNat (a ++ b) = Bits.toNat a * 2 ^ b.length + Bits.toNat b := by
  induction a with
  | nil => simp [Bits.toNat]
  | cons x r ih =>
    simp only [List.cons_append, Bits.toNat, ih, List.length_append, Nat.pow_add]
    split <;> ring

@[simp] theorem bits_toNat_zeros (n : Nat) : Bits.toNat (zeros n) = 0 := by
  induction n with
  | zero => rfl
  | succ n ih => simpa [zeros, List.replicate_succ, Bits.toNat] using ih

theorem bits_toNat_ofNat (w n : Nat) : Bits.toNat (Bits.ofNat w n) = n % 2 ^ w := by
  induction w with
  | zero => simp [Bits.ofNat, Bits.toNat, Nat.mod_one]
  | succ w ih =>
    simp only [Bits.ofNat, Bits.toNat, bits_ofNat_length, ih, Nat.testBit_eq_decide_div_mod_eq]
    have h : n % 2 ^ (w + 1) = n % 2 ^ w + 2 ^ w * (n / 2 ^ w % 2) := by
      rw [Nat.pow_succ]; exact Nat.mod_mul
    rw [h]
    rcases Nat.mod_two_eq_zero_or_one (n / 2 ^ w) with hb | hb <;> simp [hb]; omega

theorem bits_toNat_inj (a b : Bits) (hl : a.length = b.length) (h : Bits.toNat a = Bits.toNat b) : a = b := by
  induction a generalizing b with
  | nil => cases b with
    | nil => rfl
    | cons y s => simp at hl
  | cons x r ih => cases b with
    | nil => simp at hl
    | cons y s =>
      have hl' : r.length = s.length := by simpa using hl
      simp only [Bits.toNat] at h
      have h1 := bits_toNat_lt r
      have h2 := bits_toNat_lt s
      rw [hl'] at h h1
      have hxy : x = y := by cases x <;> cases y <;> simp at h ⊢ <;> omega
      subst hxy
      rw [ih s hl' (by omega)]

/-- A vector is the numeral of its own width and value. -/
theorem bits_ofNat_toNat (b : Bits) : Bits.ofNat b.length (Bits.toNat b) = b := by
  apply bits_toNat_inj
  · simp
  · rw [bits_toNat_ofNat, Nat.mod_eq_of_lt (bits_toNat_lt b)]

theorem bits_toBitVec_ofBitVec {w : Nat} (v : BitVec w) : Bits.toBitVec w (Bits.ofBitVec v) = v := by
  apply BitVec.eq_of_toNat_eq
  simp [Bits.toBitVec, Bits.ofBitVec, bits_toNat_ofNat, Nat.mod_eq_of_lt v.isLt]

theorem bits_ofBitVec_toBitVec (w : Nat) (b : Bits) (h : b.length = w) : Bits.ofBitVec (Bits.toBitVec w b) = b := by
  subst h
  have : Bits.toNat b % 2 ^ b.length = Bits.toNat b := Nat.mod_eq_of_lt (bits_toNat_lt b)
  simp [Bits.ofBitVec, Bits.toBitVec, this, bits_ofNat_toNat]

theorem bits_low_length (n : Nat) (v : Bits) : (Bits.low n v).length = min n v.length := by
  simp [Bits.low]; omega

@[simp] theorem bits_low_append (a b : Bits) : Bits.low b.length (a ++ b) = b := by simp [Bits.low]

theorem bits_low_append' (a b : Bits) (n : Nat) (h : n = b.length) : Bits.low n (a ++ b) = b := by
  subst h; exact bits_low_append a b

@[simp] theorem bits_low_self (v : Bits) : Bits.low v.length v = v := by simp [Bits.low]

theorem bits_zext_length (n : Nat) (v : Bits) (h : v.length ≤ n) : (Bits.zext n v).length = n := by
  simp [Bits.zext]; omega

theorem bits_toNat_zext (n : Nat) (v : Bits) : Bits.toNat (Bits.zext n v) = Bits.toNat v := by
  simp [Bits.zext, bits_toNat_append]

theorem bits_toNat_low (n : Nat) (v : Bits) (h : n ≤ v.length) : Bits.toNat (Bits.low n v) = Bits.toNat v % 2 ^ n := by
  have hs : v = v.take (v.length - n) ++ Bits.low n v := by simp [Bits.low]
  have hl : (Bits.low n v).length = n := by rw [bits_low_length]; omega
  conv_rhs => rw [hs, bits_toNat_append, hl]
  have := bits_toNat_lt (Bits.low n v)
  rw [hl] at this
  rw [Nat.mul_comm, Nat.mul_add_mod, Nat.mod_eq_of_lt this]

/-! ### The buffer: valid bits right-aligned, zero above -/

/-- The valid bits of a register that holds `v`. -/
theorem bits_low_zext (n : Nat) (v : Bits) : Bits.low v.length (Bits.zext n v) = v := by simp [Bits.zext]

/-- Shifting `s` into a register that holds `v` makes it hold `v ++ s`. -/
theorem bits_shiftIn_zext (n : Nat) (v s : Bits) (h : v.length + s.length ≤ n) :
    Bits.shiftIn (Bits.zext n v) s = Bits.zext n (v ++ s) := by
  have hd : n - v.length = s.length + (n - (v.length + s.length)) := by omega
  simp only [Bits.shiftIn, Bits.zext, List.length_append]
  rw [hd, ← zeros_append, List.append_assoc, List.append_assoc, List.drop_append_of_le_length (by simp),
    List.drop_of_length_le (by simp)]
  rfl

@[simp] theorem bits_shiftIn_length (buf s : Bits) : (Bits.shiftIn buf s).length = buf.length := by
  simp [Bits.shiftIn]

@[simp] theorem bits_zext_nil (n : Nat) : Bits.zext n [] = zeros n := by simp [Bits.zext]

/-- The low bits of a register are those of what it holds, as far as they go. -/
theorem bits_low_zext_of_le (n k : Nat) (v : Bits) (h : k ≤ v.length) :
    Bits.low k (Bits.zext n v) = Bits.low k v := by
  simp only [Bits.low, Bits.zext, List.length_append, zeros_length]
  rw [List.drop_append, List.drop_of_length_le (by simp; omega), List.nil_append]
  congr 1
  simp
  omega

theorem bits_high_append_low (n : Nat) (v : Bits) (h : n ≤ v.length) :
    Bits.high n v ++ Bits.low (v.length - n) v = v := by
  have : v.length - (v.length - n) = n := by omega
  simp [Bits.high, Bits.low, this]

theorem bits_chunks_length (w k : Nat) (v : Bits) : (Bits.chunks w k v).length = k := by
  induction k generalizing v with
  | zero => rfl
  | succ k ih => simp [Bits.chunks, ih]

/-- Cutting off a front piece of whole chunks. -/
theorem bits_chunks_append (w k m : Nat) (a b : Bits) (h : a.length = k * w) :
    Bits.chunks w (k + m) (a ++ b) = Bits.chunks w k a ++ Bits.chunks w m b := by
  induction k generalizing a with
  | zero => simp at h; subst h; simp [Bits.chunks]
  | succ k ih =>
    have hw : w ≤ a.length := by rw [h, Nat.succ_mul]; omega
    rw [Nat.add_right_comm]
    simp only [Bits.chunks, List.cons_append, List.cons.injEq]
    refine ⟨List.take_append_of_le_length hw, ?_⟩
    rw [List.drop_append_of_le_length hw]
    exact ih _ (by simp [h, Nat.succ_mul])

/-- Every chunk of a vector of `k` chunks has the chunk's width. -/
theorem bits_chunks_width (w k : Nat) (v : Bits) (h : v.length = k * w) : ∀ s ∈ Bits.chunks w k v, s.length = w := by
  induction k generalizing v with
  | zero => simp [Bits.chunks]
  | succ k ih =>
    rw [Nat.succ_mul] at h
    simp only [Bits.chunks, List.mem_cons, forall_eq_or_imp, List.length_take]
    exact ⟨by omega, ih _ (by simp; omega)⟩

theorem bits_chunks_flatten (w k : Nat) (v : Bits) (h : v.length = k * w) : (Bits.chunks w k v).flatten = v := by
  induction k generalizing v with
  | zero => simp at h; subst h; rfl
  | succ k ih =>
    rw [Nat.succ_mul] at h
    simp [Bits.chunks, ih (v.drop w) (by simp; omega)]

/-- The `j`-th chunk is the slice the spec gives (20_memory.md R52). -/
theorem bits_chunks_eq_map (w k : Nat) (v : Bits) :
    Bits.chunks w k v = (List.range k).map (fun j => (v.drop (j * w)).take w) := by
  induction k generalizing v with
  | zero => rfl
  | succ k ih =>
    rw [List.range_succ_eq_map]
    simp only [Bits.chunks, ih, List.map_cons, Nat.zero_mul, List.drop_zero, List.map_map]
    congr 1
    apply List.map_congr_left
    intro j _
    simp only [Function.comp, List.drop_drop, Nat.succ_mul]
    rw [Nat.add_comm]

end Sys2Proof
end

