-- ==== Sys2Proof/Laws/Widths.lean ====
section
/-! SUPPORT. What `round_up`, `clog2` and the derived widths are (00_scope.md R12, R13; 30_encoding.md R82 to R84), and
what a legal parameter set is. -/

namespace Sys2Proof

theorem roundUp_dvd (x a : Nat) : a ∣ roundUp x a := Dvd.intro_left _ rfl

theorem roundUp_ge (x a : Nat) (h : 1 ≤ a) : x ≤ roundUp x a := by
  unfold roundUp
  have := Nat.div_add_mod (x + a - 1) a
  have := Nat.mod_lt (x + a - 1) h
  rw [Nat.mul_comm]
  omega

theorem roundUp_le (x a m : Nat) (h : 1 ≤ a) (hm : a ∣ m) (hx : x ≤ m) : roundUp x a ≤ m := by
  obtain ⟨k, rfl⟩ := hm
  unfold roundUp
  rw [Nat.mul_comm]
  apply Nat.mul_le_mul_left
  have : (x + a - 1) / a < k + 1 := by
    rw [Nat.div_lt_iff_lt_mul h, Nat.succ_mul, Nat.mul_comm]
    omega
  omega

theorem clog2From_spec (fuel k n : Nat) (h : n ≤ 2 ^ (k + fuel)) :
    n ≤ 2 ^ clog2From fuel k n ∧ ∀ j, k ≤ j → n ≤ 2 ^ j → clog2From fuel k n ≤ j := by
  induction fuel generalizing k with
  | zero => exact ⟨h, fun j hj _ => hj⟩
  | succ fuel ih =>
    unfold clog2From
    split
    · exact ⟨‹_›, fun j hj _ => hj⟩
    · obtain ⟨h1, h2⟩ := ih (k + 1) (by rwa [Nat.add_assoc, Nat.add_comm 1])
      refine ⟨h1, fun j hj hn => h2 j ?_ hn⟩
      rcases Nat.lt_or_ge k j with hlt | hge
      · exact hlt
      · have : j = k := by omega
        subst this
        contradiction

theorem clog2_spec (n : Nat) : n ≤ 2 ^ clog2 n := by
  refine (clog2From_spec n 0 n ?_).1
  rw [Nat.zero_add]
  exact Nat.lt_two_pow_self.le

theorem clog2_least (n j : Nat) (h : n ≤ 2 ^ j) : clog2 n ≤ j := by
  refine (clog2From_spec n 0 n ?_).2 j (Nat.zero_le j) h
  rw [Nat.zero_add]
  exact Nat.lt_two_pow_self.le

/-- What a legal parameter set is (R8, R9). -/
theorem paramSet_wf_iff (c : ParamSet) :
    c.wf = true ↔ 1 ≤ c.ha ∧ 1 ≤ c.sw ∧ 1 ≤ c.pw ∧ c.sw ∣ c.pw ∧ 1 ≤ c.n ∧ (c.dict.map Entry.name).Nodup ∧
      (∀ e ∈ c.dict, e.kind.wf = true) ∧ ∀ m, c.halt = some m → m.wf c = true := by
  unfold ParamSet.wf
  cases h : c.halt <;> simp [Nat.dvd_iff_mod_eq_zero, and_assoc]

section
variable {c : ParamSet} (hc : c.wf = true)
include hc

theorem wf_ha : 1 ≤ c.ha := ((paramSet_wf_iff c).1 hc).1
theorem wf_sw : 1 ≤ c.sw := ((paramSet_wf_iff c).1 hc).2.1
theorem wf_pw : 1 ≤ c.pw := ((paramSet_wf_iff c).1 hc).2.2.1
theorem wf_sw_dvd_pw : c.sw ∣ c.pw := ((paramSet_wf_iff c).1 hc).2.2.2.1
theorem wf_n : 1 ≤ c.n := ((paramSet_wf_iff c).1 hc).2.2.2.2.1
theorem wf_nodup : (c.dict.map Entry.name).Nodup := ((paramSet_wf_iff c).1 hc).2.2.2.2.2.1
theorem wf_kind : ∀ e ∈ c.dict, e.kind.wf = true := ((paramSet_wf_iff c).1 hc).2.2.2.2.2.2.1

theorem sw_le_pw : c.sw ≤ c.pw := Nat.le_of_dvd (wf_pw hc) (wf_sw_dvd_pw hc)

theorem ratio_mul : c.ratio * c.sw = c.pw := Nat.div_mul_cancel (wf_sw_dvd_pw hc)

theorem ratio_pos : 1 ≤ c.ratio := Nat.div_pos (sw_le_pw hc) (wf_sw hc)

theorem hw_ge : 1 + c.idxw ≤ c.hw := roundUp_ge _ _ (wf_ha hc)

theorem n_le_pow : c.n ≤ 2 ^ (c.hw - 1) := by
  refine (clog2_spec c.n).trans (Nat.pow_le_pow_right (by omega) ?_)
  have := hw_ge hc
  unfold ParamSet.idxw at this
  omega

theorem hw_pos : 1 ≤ c.hw := by have := hw_ge hc; omega

theorem pow_hw : 2 ^ c.hw = 2 * 2 ^ (c.hw - 1) := by
  have := hw_pos hc
  conv_lhs => rw [show c.hw = (c.hw - 1) + 1 by omega, Nat.pow_succ]
  omega

theorem field_le_ww (e : Entry) : c.hw + e.size ≤ c.ww e :=
  (roundUp_ge _ _ (wf_sw hc)).trans (le_max_left _ _)

theorem headerSubwords_le_ww (e : Entry) : roundUp c.hw c.sw ≤ c.ww e :=
  roundUp_le _ _ _ (wf_sw hc)
    (by
      unfold ParamSet.ww
      rcases le_total (roundUp (c.hw + e.size) c.sw) c.pw with h | h
      · rw [max_eq_right h]; exact wf_sw_dvd_pw hc
      · rw [max_eq_left h]; exact roundUp_dvd _ _)
    (by have := field_le_ww hc e; omega)

theorem sw_dvd_ww (e : Entry) : c.sw ∣ c.ww e := by
  unfold ParamSet.ww
  rcases le_total (roundUp (c.hw + e.size) c.sw) c.pw with h | h
  · rw [max_eq_right h]; exact wf_sw_dvd_pw hc
  · rw [max_eq_left h]; exact roundUp_dvd _ _

end

theorem pw_le_ww (c : ParamSet) (e : Entry) : c.pw ≤ c.ww e := le_max_right _ _

theorem foldr_max_ge (l : List Nat) : ∀ x ∈ l, x ≤ l.foldr max 0 := by
  induction l with
  | nil => simp
  | cons a l ih =>
    intro x hx
    rcases List.mem_cons.1 hx with rfl | h
    · exact le_max_left _ _
    · exact (ih x h).trans (le_max_right _ _)

theorem ww_le_maxww (c : ParamSet) (e : Entry) (h : e ∈ c.dict) : c.ww e ≤ c.maxww :=
  foldr_max_ge _ _ (List.mem_map_of_mem h)

theorem ww_le_maxww_of_index {c : ParamSet} {i : Nat} {e : Entry} (h : c.dict[i]? = some e) : c.ww e ≤ c.maxww :=
  ww_le_maxww c e (List.mem_of_getElem? h)

/-- The largest word width is some entry's. -/
theorem maxww_attained (c : ParamSet) (h : 1 ≤ c.n) : ∃ e ∈ c.dict, c.ww e = c.maxww := by
  have key : ∀ l : List Entry, l ≠ [] → ∃ e ∈ l, c.ww e = (l.map c.ww).foldr max 0 := by
    intro l
    induction l with
    | nil => simp
    | cons a l ih =>
      intro _
      by_cases hl : l = []
      · subst hl; exact ⟨a, by simp, by simp⟩
      · obtain ⟨e, he, hm⟩ := ih hl
        rcases le_total (c.ww a) ((l.map c.ww).foldr max 0) with hle | hle
        · exact ⟨e, by simp [he], by simp [hm, max_eq_right hle]⟩
        · exact ⟨a, by simp, by simp [max_eq_left hle]⟩
  exact key c.dict (by intro h0; simp [ParamSet.n, h0] at h)

theorem sw_dvd_maxww {c : ParamSet} (hc : c.wf = true) : c.sw ∣ c.maxww := by
  obtain ⟨e, _, h⟩ := maxww_attained c (wf_n hc)
  rw [← h]
  exact sw_dvd_ww hc e

theorem pw_le_maxww {c : ParamSet} (hc : c.wf = true) : c.pw ≤ c.maxww := by
  obtain ⟨e, _, h⟩ := maxww_attained c (wf_n hc)
  rw [← h]
  exact pw_le_ww c e

theorem index_lt_n {c : ParamSet} {i : Nat} {e : Entry} (h : c.dict[i]? = some e) : i < c.n :=
  (List.getElem?_eq_some_iff.1 h).1

end Sys2Proof
end

