-- ==== Sys2Proof/Laws/Codecs.lean ====
section
/-! SUPPORT. What the payload codecs and the message packer do (40_payload_codecs.md, 41_message_packer.md). -/

namespace Sys2Proof

/-! ### Number payloads -/

@[simp] theorem pattern_length (t : IntType) (v : Int) : (t.pattern v).length = t.width := by
  simp [IntType.pattern]

theorem pattern_toNat (t : IntType) (v : Int) : (Bits.toNat (t.pattern v) : Int) = v % 2 ^ t.width := by
  have h0 : 0 ≤ v % 2 ^ t.width := Int.emod_nonneg _ (by positivity)
  have h1 : v % 2 ^ t.width < 2 ^ t.width := Int.emod_lt_of_pos _ (by positivity)
  have h2 : (v % 2 ^ t.width).toNat < 2 ^ t.width := by
    have : ((v % 2 ^ t.width).toNat : Int) < ((2 ^ t.width : Nat) : Int) := by
      rw [Int.toNat_of_nonneg h0]; push_cast; exact h1
    exact_mod_cast this
  rw [IntType.pattern, bits_toNat_ofNat, Nat.mod_eq_of_lt h2, Int.toNat_of_nonneg h0]

@[simp] theorem numberEncode_length (t : IntType) (size : Nat) (v : Int) : (numberEncode t size v).length = size := by
  unfold numberEncode
  split
  · exact bits_zext_length _ _ (by simpa using ‹_›)
  · rw [bits_low_length]; simp; omega

/-- The bits `NUMBER.encode` gives are the low `size` bits of the pattern, zero-extended (R113). -/
theorem numberEncode_toNat (t : IntType) (size : Nat) (v : Int) :
    (Bits.toNat (numberEncode t size v) : Int) = v % 2 ^ t.width % 2 ^ size := by
  unfold numberEncode
  have h0 : 0 ≤ v % 2 ^ t.width := Int.emod_nonneg _ (by positivity)
  have h1 : v % 2 ^ t.width < 2 ^ t.width := Int.emod_lt_of_pos _ (by positivity)
  split
  · rename_i h
    have h2 : (2 : Int) ^ t.width ≤ 2 ^ size := by exact_mod_cast Nat.pow_le_pow_right (by omega) h
    rw [bits_toNat_zext, pattern_toNat, Int.emod_eq_of_lt h0 (by omega)]
  · rename_i h
    rw [bits_toNat_low _ _ (by simp; omega)]
    push_cast
    rw [pattern_toNat]

/-- The pattern `NUMBER.decode` reads. -/
def decodePattern (t : IntType) (b : Bits) : Bits :=
  if b.length ≤ t.width then Bits.zext t.width b else Bits.low t.width b

theorem decodePattern_length (t : IntType) (b : Bits) : (decodePattern t b).length = t.width := by
  unfold decodePattern
  split
  · exact bits_zext_length _ _ ‹_›
  · rw [bits_low_length]; omega

theorem decodePattern_toNat (t : IntType) (b : Bits) : Bits.toNat (decodePattern t b) = Bits.toNat b % 2 ^ t.width := by
  unfold decodePattern
  split
  · rename_i h
    rw [bits_toNat_zext]
    exact (Nat.mod_eq_of_lt ((bits_toNat_lt b).trans_le (Nat.pow_le_pow_right (by omega) h))).symm
  · exact bits_toNat_low _ _ (by omega)

/-- The top bit of a vector says whether its value reaches half its range. -/
theorem bits_top_iff (b : Bits) (h : 1 ≤ b.length) : Bits.top b = true ↔ 2 ^ (b.length - 1) ≤ Bits.toNat b := by
  cases b with
  | nil => simp at h
  | cons x r =>
    have := bits_toNat_lt r
    cases x <;> simp [Bits.top, Bits.toNat]; omega

/-- `NUMBER.decode` (R114) in integers: the low `TW` bits, less `2^TW` where a signed type's top bit is set. -/
theorem numberDecode_eq (t : IntType) (b : Bits) (ht : t.wf = true) :
    numberDecode t b =
      if t.sign = .signed ∧ 2 ^ (t.width - 1) ≤ Bits.toNat b % 2 ^ t.width then
        ((Bits.toNat b % 2 ^ t.width : Nat) : Int) - 2 ^ t.width
      else ((Bits.toNat b % 2 ^ t.width : Nat) : Int) := by
  have hl := decodePattern_length t b
  have hw : 1 ≤ t.width := by simpa [IntType.wf] using ht
  have htop := bits_top_iff (decodePattern t b) (by omega)
  rw [hl, decodePattern_toNat] at htop
  change t.value (decodePattern t b) = _
  unfold IntType.value
  rw [decodePattern_toNat]
  cases hs : t.sign
  · simp
  · by_cases h : Bits.top (decodePattern t b) = true
    · simp [h, htop.1 h]
    · have := mt htop.2 h
      simp [h, this]

/-- A number value survives the round trip exactly when the type fits the payload or the value does (R115). -/
theorem number_roundtrip_iff (t : IntType) (size : Nat) (v : Int) (ht : t.wf = true) (hv : t.contains v = true) :
    numberDecode t (numberEncode t size v) = v ↔ t.width ≤ size ∨ (0 ≤ v ∧ v < 2 ^ size) := by
  have hw : 1 ≤ t.width := by simpa [IntType.wf] using ht
  have hE := numberEncode_toNat t size v
  rw [numberDecode_eq _ _ ht]
  generalize hx : Bits.toNat (numberEncode t size v) = x at hE ⊢
  have hpw : (2 : Int) ^ t.width = 2 * 2 ^ (t.width - 1) := by
    conv_lhs => rw [show t.width = (t.width - 1) + 1 by omega, pow_succ]
    ring
  have hP : (0 : Int) < 2 ^ (t.width - 1) := by positivity
  have hb : -(2 : Int) ^ (t.width - 1) ≤ v ∧ v < 2 ^ t.width ∧ (t.sign = .unsigned → 0 ≤ v) ∧
      (t.sign = .signed → v < 2 ^ (t.width - 1)) := by
    cases hs : t.sign <;> simp [IntType.contains, IntType.least, IntType.greatest, hs] at hv ⊢ <;> omega
  by_cases hsz : t.width ≤ size
  · have h2 : (2 : Int) ^ t.width ≤ 2 ^ size := by exact_mod_cast Nat.pow_le_pow_right (by omega) hsz
    have h0 : 0 ≤ v % 2 ^ t.width := Int.emod_nonneg _ (by positivity)
    have h1 : v % 2 ^ t.width < 2 ^ t.width := Int.emod_lt_of_pos _ (by positivity)
    rw [Int.emod_eq_of_lt h0 (by omega)] at hE
    have hxlt : x < 2 ^ t.width := by
      have : (x : Int) < ((2 ^ t.width : Nat) : Int) := by push_cast; omega
      exact_mod_cast this
    simp only [hsz, true_or, iff_true, Nat.mod_eq_of_lt hxlt]
    have hxi : (2 ^ (t.width - 1) ≤ x) ↔ ((2 : Int) ^ (t.width - 1) ≤ x) := by
      rw [← Int.ofNat_le]; push_cast; rfl
    simp only [hxi]
    rcases lt_or_ge v 0 with hneg | hpos
    · have : v % 2 ^ t.width = v + 2 ^ t.width := by
        rw [← Int.add_emod_right, Int.emod_eq_of_lt (by omega) (by omega)]
      have hsg : t.sign = .signed := by
        cases hs : t.sign
        · have := hb.2.2.1 hs; omega
        · rfl
      rw [if_pos ⟨hsg, by omega⟩]
      omega
    · have : v % 2 ^ t.width = v := Int.emod_eq_of_lt hpos hb.2.1
      rw [if_neg]
      · omega
      · rintro ⟨hsg, hle⟩
        have := hb.2.2.2 hsg
        omega
  · have hlt : size ≤ t.width - 1 := by omega
    have h2 : (2 : Int) ^ size ≤ 2 ^ (t.width - 1) := by exact_mod_cast Nat.pow_le_pow_right (by omega) hlt
    have h0 : 0 ≤ v % 2 ^ t.width % 2 ^ size := Int.emod_nonneg _ (by positivity)
    have h1 : v % 2 ^ t.width % 2 ^ size < 2 ^ size := Int.emod_lt_of_pos _ (by positivity)
    have hxlt : x < 2 ^ (t.width - 1) := by
      have : (x : Int) < ((2 ^ (t.width - 1) : Nat) : Int) := by push_cast; omega
      exact_mod_cast this
    have hxlt' : x < 2 ^ t.width := hxlt.trans_le (Nat.pow_le_pow_right (by omega) (by omega))
    rw [Nat.mod_eq_of_lt hxlt', if_neg (by rintro ⟨_, hle⟩; omega)]
    constructor
    · intro h; right; omega
    · rintro (h | ⟨h3, h4⟩)
      · omega
      · rw [hE, Int.emod_eq_of_lt h3 hb.2.1, Int.emod_eq_of_lt h3 h4]

/-- What `NUMBER.decode` gives is a value of the type. -/
theorem numberDecode_contains (t : IntType) (b : Bits) (ht : t.wf = true) : t.contains (numberDecode t b) = true := by
  have hw : 1 ≤ t.width := by simpa [IntType.wf] using ht
  rw [numberDecode_eq _ _ ht]
  have hlt : Bits.toNat b % 2 ^ t.width < 2 ^ t.width := Nat.mod_lt _ (by positivity)
  generalize Bits.toNat b % 2 ^ t.width = x at hlt ⊢
  have hpw : (2 : Int) ^ t.width = 2 * 2 ^ (t.width - 1) := by
    conv_lhs => rw [show t.width = (t.width - 1) + 1 by omega, pow_succ]
    ring
  have hxi : (2 ^ (t.width - 1) ≤ x) ↔ ((2 : Int) ^ (t.width - 1) ≤ x) := by
    rw [← Int.ofNat_le]; push_cast; rfl
  have hx' : (x : Int) < 2 ^ t.width := by exact_mod_cast hlt
  have hP : (0 : Int) < 2 ^ (t.width - 1) := by positivity
  simp only [hxi]
  cases hs : t.sign <;> simp only [IntType.contains, IntType.least, IntType.greatest, hs] <;> simp <;>
    (try split) <;> omega

/-! ### Payloads of an instruction -/

theorem encodePayload_length (e : Entry) (p : Payload) (h : Payload.typed e p = true) :
    (encodePayload e p).length = e.size := by
  unfold Payload.typed at h
  unfold encodePayload
  split at h <;> simp_all [bitsetEncode, rangedEncode]

/-- What a codec decodes is a payload value of the instruction. -/
theorem decodePayload_wf (e : Entry) (b : Bits) (p : Payload) (he : e.kind.wf = true) (hb : b.length = e.size)
    (h : decodePayload e b = .ok p) : Payload.wf e p = true := by
  unfold decodePayload at h
  unfold Payload.wf Payload.typed Kind.inBound
  cases hk : e.kind with
  | bitset => simp only [hk, Except.ok.injEq] at h; subst h; simp [bitsetDecode, hb]
  | number t =>
    simp only [hk, Except.ok.injEq] at h; subst h
    simp only [hk, Kind.wf] at he
    simp [numberDecode_contains t b he]
  | ranged t lo hi =>
    simp only [hk, rangedDecode, rangedMake] at h
    simp only [hk, Kind.wf, IntType.boundsWf, Bool.and_eq_true] at he
    have hc := numberDecode_contains t b he.1.1.1
    split at h
    · rename_i heq
      split at heq
      · simp at heq
      · simp only [Except.ok.injEq] at h heq
        subst h; subst heq
        simp_all
    · simp at h

/-- The only fault a payload codec raises (R118). -/
theorem decodePayload_error (e : Entry) (b : Bits) (f : BlockFault) (h : decodePayload e b = .error f) :
    ∃ t lo hi, e.kind = .ranged t lo hi ∧ f = .payloadOutOfRange e.name (numberDecode t b) ∧
      (numberDecode t b < lo ∨ hi < numberDecode t b) := by
  unfold decodePayload at h
  cases hk : e.kind with
  | bitset => simp [hk] at h
  | number t => simp [hk] at h
  | ranged t lo hi =>
    simp only [hk, rangedDecode, rangedMake] at h
    split at h
    · simp at h
    · rename_i heq
      split at heq
      · simp only [Except.error.injEq] at h heq
        exact ⟨t, lo, hi, rfl, by rw [← h, ← heq], ‹_›⟩
      · simp at heq

/-- A valid payload value survives the round trip (R120). -/
theorem decodePayload_encodePayload (e : Entry) (p : Payload) (h : Payload.valid e p = true) :
    decodePayload e (encodePayload e p) = .ok p := by
  unfold Payload.valid at h
  rw [Bool.and_eq_true] at h
  obtain ⟨hwf, hv⟩ := h
  unfold Payload.wf Payload.typed Kind.inBound at hwf
  unfold decodePayload encodePayload
  cases hk : e.kind <;> cases p <;> simp_all [bitsetDecode, bitsetEncode, rangedDecode, rangedEncode, rangedMake]
  rename_i lo hi v
  have : ¬ (v < lo ∨ hi < v) := by omega
  simp [this]

/-! ### Messages -/

@[simp] theorem header_length (c : ParamSet) (i : Nat) : (c.header i).length = c.hw := by simp [ParamSet.header]

section
variable {c : ParamSet} (hc : c.wf = true)
include hc

theorem header_toNat (i : Nat) (h : i < c.n) : Bits.toNat (c.header i) = i := by
  rw [ParamSet.header, bits_toNat_ofNat]
  apply Nat.mod_eq_of_lt
  have := n_le_pow hc
  have := pow_hw hc
  have : 0 < 2 ^ (c.hw - 1) := by positivity
  omega

theorem header_top (i : Nat) (h : i < 2 ^ (c.hw - 1)) : Bits.top (c.header i) = false := by
  have hl : (c.header i).length = c.hw := header_length c i
  have := bits_top_iff (c.header i) (by have := hw_pos hc; omega)
  rw [hl, ParamSet.header, bits_toNat_ofNat] at this
  have hlt : i % 2 ^ c.hw ≤ i := Nat.mod_le _ _
  cases hT : Bits.top (Bits.ofNat c.hw i)
  · exact hT
  · have := this.1 hT; omega

theorem packEntry_length (i : Nat) (e : Entry) (p : Payload) (h : Payload.typed e p = true) :
    (packEntry c i e p).length = c.ww e := by
  have := field_le_ww hc e
  simp [packEntry, encodePayload_length e p h]
  omega

end

theorem msg_wf_iff (c : ParamSet) (m : Msg) :
    m.wf c = true ↔ ∃ e, c.dict[m.idx]? = some e ∧ Payload.wf e m.payload = true := by
  unfold Msg.wf
  cases c.dict[m.idx]? <;> simp

theorem msg_valid_iff (c : ParamSet) (m : Msg) :
    m.valid c = true ↔ ∃ e, c.dict[m.idx]? = some e ∧ Payload.valid e m.payload = true := by
  unfold Msg.valid
  cases c.dict[m.idx]? <;> simp

theorem payload_typed_of_wf {e : Entry} {p : Payload} (h : Payload.wf e p = true) : Payload.typed e p = true :=
  (Bool.and_eq_true _ _ ▸ h).1

theorem payload_wf_of_valid {e : Entry} {p : Payload} (h : Payload.valid e p = true) : Payload.wf e p = true :=
  (Bool.and_eq_true _ _ ▸ h).1

theorem msg_wf_of_valid {c : ParamSet} {m : Msg} (h : m.valid c = true) : m.wf c = true := by
  obtain ⟨e, he, hv⟩ := (msg_valid_iff c m).1 h
  exact (msg_wf_iff c m).2 ⟨e, he, payload_wf_of_valid hv⟩

theorem pack_eq {c : ParamSet} {m : Msg} {e : Entry} (h : c.dict[m.idx]? = some e) :
    pack c m = packEntry c m.idx e m.payload := by simp [pack, h]

end Sys2Proof
end

