-- ==== Sys2Proof/Laws/State.lean ====
section
/-! SUPPORT. One lemma per field per update of the state, and what the shared forms of an answer can be. -/

namespace Sys2Proof.Machine

@[simp] theorem State.answer_enc (s : State) (r : Ret) : (s.answer r).enc = s.enc := rfl
@[simp] theorem State.answer_dec (s : State) (r : Ret) : (s.answer r).dec = s.dec := rfl
@[simp] theorem State.answer_pending (s : State) (r : Ret) : (s.answer r).pending = s.pending := rfl
@[simp] theorem State.answer_ret (s : State) (r : Ret) : (s.answer r).ret = r := rfl
@[simp] theorem State.answer_calls (s : State) (r : Ret) : (s.answer r).calls = s.calls := rfl
@[simp] theorem State.answer_conn (s : State) (r : Ret) : (s.answer r).conn = s.conn := rfl
@[simp] theorem State.answer_dbuf (s : State) (r : Ret) : (s.answer r).dbuf = s.dbuf := rfl

@[simp] theorem State.encoded_enc (s : State) (e : Encoder) : (s.encoded e).enc = e := rfl
@[simp] theorem State.encoded_dec (s : State) (e : Encoder) : (s.encoded e).dec = s.dec := rfl
@[simp] theorem State.encoded_pending (s : State) (e : Encoder) : (s.encoded e).pending = s.pending := rfl
@[simp] theorem State.encoded_ret (s : State) (e : Encoder) : (s.encoded e).ret = .done := rfl
@[simp] theorem State.encoded_calls (s : State) (e : Encoder) : (s.encoded e).calls = s.calls := rfl
@[simp] theorem State.encoded_conn (s : State) (e : Encoder) : (s.encoded e).conn = s.conn := rfl
@[simp] theorem State.encoded_dbuf (s : State) (e : Encoder) : (s.encoded e).dbuf = s.dbuf := rfl

@[simp] theorem State.fed_enc (s : State) (r : Fed) : (s.fed r).enc = s.enc := rfl
@[simp] theorem State.fed_dec (s : State) (r : Fed) : (s.fed r).dec = r.dec := rfl
@[simp] theorem State.fed_pending (s : State) (r : Fed) : (s.fed r).pending = s.pending := rfl
@[simp] theorem State.fed_ret (s : State) (r : Fed) : (s.fed r).ret = Ret.ofRaised r.raised := rfl
@[simp] theorem State.fed_calls (s : State) (r : Fed) : (s.fed r).calls = s.calls ++ r.calls := rfl
@[simp] theorem State.fed_conn (s : State) (r : Fed) : (s.fed r).conn = s.conn.notified s.dec.cfg r.calls := rfl
@[simp] theorem State.fed_dbuf (s : State) (r : Fed) : (s.fed r).dbuf = s.dbuf := rfl

@[simp] theorem Encoder.append_cfg (e : Encoder) (v : Bits) : (e.append v).cfg = e.cfg := rfl
@[simp] theorem Encoder.append_buf (e : Encoder) (v : Bits) : (e.append v).buf = Bits.shiftIn e.buf v := rfl
@[simp] theorem Encoder.append_fill (e : Encoder) (v : Bits) : (e.append v).fill = e.fill + v.length := rfl
@[simp] theorem Encoder.append_sink (e : Encoder) (v : Bits) : (e.append v).sink = e.sink := rfl

@[simp] theorem Encoder.pushWord_cfg (e : Encoder) : (e.pushWord).cfg = e.cfg := rfl
@[simp] theorem Encoder.pushWord_buf (e : Encoder) : (e.pushWord).buf = Bits.zext e.cfg.encCap (Bits.low (e.fill - e.cfg.pw) e.buf) := rfl
@[simp] theorem Encoder.pushWord_fill (e : Encoder) : (e.pushWord).fill = e.fill - e.cfg.pw := rfl
@[simp] theorem Encoder.pushWord_sink (e : Encoder) : (e.pushWord).sink = e.sink ++ [Bits.high e.cfg.pw e.held] := rfl

@[simp] theorem Encoder.reset_cfg (e : Encoder) : (e.reset).cfg = e.cfg := rfl
@[simp] theorem Encoder.reset_buf (e : Encoder) : (e.reset).buf = zeros e.cfg.encCap := rfl
@[simp] theorem Encoder.reset_fill (e : Encoder) : (e.reset).fill = 0 := rfl
@[simp] theorem Encoder.reset_sink (e : Encoder) : (e.reset).sink = [] := rfl

@[simp] theorem Encoder.fresh_cfg (c : ParamSet) : (Encoder.fresh c).cfg = c := rfl
@[simp] theorem Encoder.fresh_buf (c : ParamSet) : (Encoder.fresh c).buf = zeros c.encCap := rfl
@[simp] theorem Encoder.fresh_fill (c : ParamSet) : (Encoder.fresh c).fill = 0 := rfl
@[simp] theorem Encoder.fresh_sink (c : ParamSet) : (Encoder.fresh c).sink = [] := rfl

@[simp] theorem Decoder.shiftIn_cfg (d : Decoder) (s : Bits) : (d.shiftIn s).cfg = d.cfg := rfl
@[simp] theorem Decoder.shiftIn_buf (d : Decoder) (s : Bits) : (d.shiftIn s).buf = Bits.shiftIn d.buf s := rfl
@[simp] theorem Decoder.shiftIn_fill (d : Decoder) (s : Bits) : (d.shiftIn s).fill = d.fill + s.length := rfl
@[simp] theorem Decoder.shiftIn_fault (d : Decoder) (s : Bits) : (d.shiftIn s).fault = d.fault := rfl
@[simp] theorem Decoder.shiftIn_queue (d : Decoder) (s : Bits) : (d.shiftIn s).queue = d.queue := rfl
@[simp] theorem Decoder.shiftIn_listeners (d : Decoder) (s : Bits) : (d.shiftIn s).listeners = d.listeners := rfl

@[simp] theorem Decoder.takeFault_dec_cfg (d : Decoder) (f : BlockFault) : ((d.takeFault f).dec).cfg = d.cfg := rfl
@[simp] theorem Decoder.takeFault_dec_buf (d : Decoder) (f : BlockFault) : ((d.takeFault f).dec).buf = d.buf := rfl
@[simp] theorem Decoder.takeFault_dec_fill (d : Decoder) (f : BlockFault) : ((d.takeFault f).dec).fill = d.fill := rfl
@[simp] theorem Decoder.takeFault_dec_fault (d : Decoder) (f : BlockFault) : ((d.takeFault f).dec).fault = some f := rfl
@[simp] theorem Decoder.takeFault_dec_queue (d : Decoder) (f : BlockFault) : ((d.takeFault f).dec).queue = d.queue := rfl
@[simp] theorem Decoder.takeFault_dec_listeners (d : Decoder) (f : BlockFault) : ((d.takeFault f).dec).listeners = d.listeners := rfl

@[simp] theorem Decoder.emit_dec_cfg (d : Decoder) (m : Msg) : ((d.emit m).dec).cfg = d.cfg := rfl
@[simp] theorem Decoder.emit_dec_buf (d : Decoder) (m : Msg) : ((d.emit m).dec).buf = zeros d.cfg.decCap := rfl
@[simp] theorem Decoder.emit_dec_fill (d : Decoder) (m : Msg) : ((d.emit m).dec).fill = 0 := rfl
@[simp] theorem Decoder.emit_dec_fault (d : Decoder) (m : Msg) : ((d.emit m).dec).fault = d.fault := rfl
@[simp] theorem Decoder.emit_dec_queue (d : Decoder) (m : Msg) : ((d.emit m).dec).queue = d.queue ++ [m] := rfl
@[simp] theorem Decoder.emit_dec_listeners (d : Decoder) (m : Msg) : ((d.emit m).dec).listeners = d.listeners := rfl

@[simp] theorem Decoder.reset_cfg (d : Decoder) : (d.reset).cfg = d.cfg := rfl
@[simp] theorem Decoder.reset_buf (d : Decoder) : (d.reset).buf = zeros d.cfg.decCap := rfl
@[simp] theorem Decoder.reset_fill (d : Decoder) : (d.reset).fill = 0 := rfl
@[simp] theorem Decoder.reset_fault (d : Decoder) : (d.reset).fault = none := rfl
@[simp] theorem Decoder.reset_queue (d : Decoder) : (d.reset).queue = [] := rfl
@[simp] theorem Decoder.reset_listeners (d : Decoder) : (d.reset).listeners = [] := rfl

@[simp] theorem Decoder.fresh_cfg (c : ParamSet) : (Decoder.fresh c).cfg = c := rfl
@[simp] theorem Decoder.fresh_buf (c : ParamSet) : (Decoder.fresh c).buf = zeros c.decCap := rfl
@[simp] theorem Decoder.fresh_fill (c : ParamSet) : (Decoder.fresh c).fill = 0 := rfl
@[simp] theorem Decoder.fresh_fault (c : ParamSet) : (Decoder.fresh c).fault = none := rfl
@[simp] theorem Decoder.fresh_queue (c : ParamSet) : (Decoder.fresh c).queue = [] := rfl
@[simp] theorem Decoder.fresh_listeners (c : ParamSet) : (Decoder.fresh c).listeners = [] := rfl

@[simp] theorem DoubleBuffer.stopWrite_count (b : DoubleBuffer) : (b.stopWrite).count = b.count + 1 := rfl
@[simp] theorem DoubleBuffer.stopWrite_producer (b : DoubleBuffer) : (b.stopWrite).producer = b.producer.other := rfl
@[simp] theorem DoubleBuffer.stopWrite_consumer (b : DoubleBuffer) : (b.stopWrite).consumer = b.consumer := rfl
@[simp] theorem DoubleBuffer.stopWrite_run (b : DoubleBuffer) : (b.stopWrite).run = b.run := rfl
@[simp] theorem DoubleBuffer.stopWrite_slotA (b : DoubleBuffer) : (b.stopWrite).slotA = b.slotA := rfl
@[simp] theorem DoubleBuffer.stopWrite_slotB (b : DoubleBuffer) : (b.stopWrite).slotB = b.slotB := rfl
@[simp] theorem DoubleBuffer.stopWrite_capacity (b : DoubleBuffer) : (b.stopWrite).capacity = b.capacity := rfl

@[simp] theorem DoubleBuffer.stopRead_count (b : DoubleBuffer) : (b.stopRead).count = b.count - 1 := rfl
@[simp] theorem DoubleBuffer.stopRead_producer (b : DoubleBuffer) : (b.stopRead).producer = b.producer := rfl
@[simp] theorem DoubleBuffer.stopRead_consumer (b : DoubleBuffer) : (b.stopRead).consumer = b.consumer.other := rfl
@[simp] theorem DoubleBuffer.stopRead_run (b : DoubleBuffer) : (b.stopRead).run = b.run := rfl
@[simp] theorem DoubleBuffer.stopRead_slotA (b : DoubleBuffer) : (b.stopRead).slotA = b.slotA := rfl
@[simp] theorem DoubleBuffer.stopRead_slotB (b : DoubleBuffer) : (b.stopRead).slotB = b.slotB := rfl
@[simp] theorem DoubleBuffer.stopRead_capacity (b : DoubleBuffer) : (b.stopRead).capacity = b.capacity := rfl

@[simp] theorem State.released_enc (s : State) (r : Ret) : (s.released r).enc = s.enc := rfl
@[simp] theorem State.released_dec (s : State) (r : Ret) : (s.released r).dec = s.dec := rfl
@[simp] theorem State.released_pending (s : State) (r : Ret) : (s.released r).pending = s.pending := rfl
@[simp] theorem State.released_ret (s : State) (r : Ret) : (s.released r).ret = r := rfl
@[simp] theorem State.released_calls (s : State) (r : Ret) : (s.released r).calls = s.calls := rfl
@[simp] theorem State.released_conn (s : State) (r : Ret) : (s.released r).conn = { s.conn with waiting := none } := rfl
@[simp] theorem State.released_dbuf (s : State) (r : Ret) : (s.released r).dbuf = s.dbuf := rfl
@[simp] theorem State.added_enc (s : State) (ms : List Msg) : (s.added ms).enc = s.enc := rfl
@[simp] theorem State.added_dec (s : State) (ms : List Msg) : (s.added ms).dec = s.dec := rfl
@[simp] theorem State.added_pending (s : State) (ms : List Msg) : (s.added ms).pending = s.pending := rfl
@[simp] theorem State.added_ret (s : State) (ms : List Msg) : (s.added ms).ret = .done := rfl
@[simp] theorem State.added_calls (s : State) (ms : List Msg) : (s.added ms).calls = s.calls := rfl
@[simp] theorem State.added_dbuf (s : State) (ms : List Msg) : (s.added ms).dbuf = s.dbuf := rfl
@[simp] theorem State.commit_enc (s : State) : (s.commit).enc = (s.enc.encodeBatch s.conn.sendQueue).flush := rfl
@[simp] theorem State.commit_dec (s : State) : (s.commit).dec = s.dec := rfl
@[simp] theorem State.commit_pending (s : State) : (s.commit).pending = s.pending := rfl
@[simp] theorem State.commit_ret (s : State) : (s.commit).ret = .done := rfl
@[simp] theorem State.commit_calls (s : State) : (s.commit).calls = s.calls := rfl
@[simp] theorem State.commit_dbuf (s : State) : (s.commit).dbuf = s.dbuf := rfl
@[simp] theorem State.destroyed_enc (s : State) : (s.destroyed).enc = s.enc := rfl
@[simp] theorem State.destroyed_dec (s : State) : (s.destroyed).dec = s.dec := rfl
@[simp] theorem State.destroyed_pending (s : State) : (s.destroyed).pending = s.pending.filter (fun c => !c.ofReceiveThread) := rfl
@[simp] theorem State.destroyed_ret (s : State) : (s.destroyed).ret = .done := rfl
@[simp] theorem State.destroyed_calls (s : State) : (s.destroyed).calls = s.calls := rfl
@[simp] theorem State.destroyed_dbuf (s : State) : (s.destroyed).dbuf = { s.dbuf with run := false } := rfl
@[simp] theorem State.filled_enc (s : State) (n : Nat) : (s.filled n).enc = s.enc := rfl
@[simp] theorem State.filled_dec (s : State) (n : Nat) : (s.filled n).dec = s.dec := rfl
@[simp] theorem State.filled_pending (s : State) (n : Nat) : (s.filled n).pending = s.pending := rfl
@[simp] theorem State.filled_calls (s : State) (n : Nat) : (s.filled n).calls = s.calls := rfl
@[simp] theorem State.filled_dbuf (s : State) (n : Nat) : (s.filled n).dbuf = s.dbuf.collect (s.conn.inbox.take (min n s.dbuf.room)) := rfl

/-- A guarded answer is a next state exactly when the guard holds and the answer is. -/
theorem guarded_next {ok : Bool} {r : Refusal} {o : Out} {t : State} :
    guarded ok r o = .next t ↔ ok = true ∧ o = .next t := by
  unfold guarded
  cases ok <;> simp

theorem guarded_true {ok : Bool} (h : ok = true) (r : Refusal) (o : Out) : guarded ok r o = o := by simp [guarded, h]

theorem guarded_false {ok : Bool} (h : ok = false) (r : Refusal) (o : Out) : guarded ok r o = .refused r := by
  simp [guarded, h]

/-- An operation on the Encoder answers a next state exactly under its guards, and then this one. -/
theorem onEncoder_next {s t : State} {ok : Bool} {r : Refusal} {e : Encoder} :
    s.onEncoder ok r e = .next t ↔ s.enc.cfg.wf = true ∧ ok = true ∧ t = s.encoded e := by
  simp [State.onEncoder, guarded_next, eq_comm (b := t)]

/-- An operation on the Decoder answers a next state exactly under its guards, and then this one. -/
theorem onDecoder_next {s t : State} {ok : Bool} {r : Refusal} {f : Fed} :
    s.onDecoder ok r f = .next t ↔ s.dec.cfg.wf = true ∧ ok = true ∧ t = s.fed f := by
  simp [State.onDecoder, guarded_next, eq_comm (b := t)]

/-- An operation of the public surface answers a next state exactly to the holder of the Stream guard. -/
theorem asHolder_next {s t : State} {u : Nat} {w : Bool} {o : Out} :
    s.asHolder u w o = .next t ↔ s.conn.alive = true ∧ s.conn.stream = some u ∧ w = true ∧ o = .next t := by
  simp [State.asHolder, guarded_next, and_assoc]

/-- An operation of a receive thread does what it does, or nothing once the destructor has begun. -/
theorem onReceiveThread_next {s t : State} {o : Out} :
    s.onReceiveThread o = .next t ↔
      (s.conn.alive = true ∧ o = .next t) ∨ (s.conn.alive = false ∧ t = s.answer .cancelled) := by
  unfold State.onReceiveThread
  cases s.conn.alive <;> simp [eq_comm (b := t)]

/-- A wire item that is received was encoded to whole sub-words, and the Decoder has taken them. -/
theorem receiveItem_next {s t : State} {i : Instr} :
    s.receiveItem i = .next t ↔ ∃ b, encode s.dec.cfg i = some b ∧ s.dec.cfg.wf = true ∧
      i.widthsOk s.dec.cfg = true ∧ b.length % s.dec.cfg.sw = 0 ∧ t = s.fed (s.dec.feedBits b) := by
  unfold State.receiveItem
  cases encode s.dec.cfg i with
  | none => simp
  | some b => simp [onDecoder_next, and_assoc]

@[simp] theorem Connection.notified_nil (n : Connection) (c : ParamSet) : n.notified c [] = n := rfl

theorem Connection.notified_append (n : Connection) (c : ParamSet) (ks ls : List Call) :
    n.notified c (ks ++ ls) = (n.notified c ks).notified c ls := by
  unfold Connection.notified
  rw [List.any_append]
  cases ks.any (Call.isHalt c) <;> cases ls.any (Call.isHalt c) <;> simp

end Sys2Proof.Machine
end

