-- ==== Sys2Proof/Laws/Decoder.lean ====
section
/-! SUPPORT. What the Decoder's operations do (43_decoder.md), in terms of the bits it holds. -/

namespace Sys2Proof.Machine

/-! ### A Decoder that holds the bits `x` -/

@[simp] theorem holding_cfg (d : Decoder) (x : Bits) : (d.holding x).cfg = d.cfg := rfl
@[simp] theorem holding_fill (d : Decoder) (x : Bits) : (d.holding x).fill = x.length := rfl
@[simp] theorem holding_fault (d : Decoder) (x : Bits) : (d.holding x).fault = d.fault := rfl
@[simp] theorem holding_queue (d : Decoder) (x : Bits) : (d.holding x).queue = d.queue := rfl
@[simp] theorem holding_listeners (d : Decoder) (x : Bits) : (d.holding x).listeners = d.listeners := rfl
@[simp] theorem holding_holding (d : Decoder) (x y : Bits) : (d.holding x).holding y = d.holding y := rfl

@[simp] theorem holding_held (d : Decoder) (x : Bits) : (d.holding x).held = x := bits_low_zext _ _

@[simp] theorem holding_header (d : Decoder) (x : Bits) :
    (d.holding x).header = Bits.toNat (Bits.high d.cfg.hw x) := by simp [Decoder.header]

/-- The buffer is as R31 says: `DEC_CAP` bits, the held ones right-aligned, zero above. -/
def Decoder.Aligned (d : Decoder) : Prop := d.fill ≤ d.cfg.decCap ∧ d.held.length = d.fill ∧ d = d.holding d.held

theorem Decoder.Inv.aligned {d : Decoder} (h : d.Inv) : d.Aligned := by
  obtain ⟨_, hl, hz, _, hf, _⟩ := h
  have hlen : d.held.length = d.fill := by rw [Decoder.held, bits_low_length, hl]; omega
  refine ⟨hf, hlen, ?_⟩
  unfold Decoder.holding
  rw [← hz, hlen]

theorem holding_aligned (d : Decoder) (x : Bits) (h : x.length ≤ d.cfg.decCap) : (d.holding x).Aligned :=
  ⟨h, by simp, by simp⟩

/-- Shifting a sub-word in (R172 lines 3 and 4). -/
theorem holding_shiftIn (d : Decoder) (x s : Bits) (h : x.length + s.length ≤ d.cfg.decCap) :
    (d.holding x).shiftIn s = d.holding (x ++ s) := by
  unfold Decoder.shiftIn Decoder.holding
  simp [bits_shiftIn_zext _ _ _ h]

/-! ### The cases of R172 -/

/-- What becomes of the complete bits `raw` of a message of the entry `e` at index `i`. -/
def Decoder.outcome (d : Decoder) (i : Nat) (e : Entry) (raw : Bits) : Fed :=
  match decodePayload e (Bits.low e.size raw) with
  | .error f => (d.holding raw).takeFault f
  | .ok p => (d.holding []).emit ⟨i, p⟩

section
variable (d : Decoder) (x s : Bits)

theorem subword_latched (f : BlockFault) (h : d.fault = some f) : d.subword s = d.refuseLatched f := by
  simp [Decoder.subword, h]

/-- Line 2: a padding sub-word at a message start. -/
theorem subword_padding (h : d.fault = none) (hf : d.fill = 0) (ht : Bits.top s = true) :
    d.subword s = ⟨d, [], none⟩ := by
  simp [Decoder.subword, h, hf, ht]

/-- Lines 3 and 4: every other sub-word is data. -/
theorem subword_data (h : d.fault = none) (hd : x = [] → Bits.top s = false)
    (hc : x.length + s.length ≤ d.cfg.decCap) : (d.holding x).subword s = (d.holding (x ++ s)).examine := by
  have : ¬ ((d.holding x).fill = 0 ∧ Bits.top s = true) := by
    rintro ⟨h0, h1⟩
    rw [hd (by simpa using h0)] at h1
    simp at h1
  unfold Decoder.subword
  rw [holding_fault, h]
  simp only [this, if_false]
  rw [holding_shiftIn _ _ _ hc]

/-- Line 5: the header is not complete. -/
theorem examine_header (h : x.length < d.cfg.hw) : (d.holding x).examine = ⟨d.holding x, [], none⟩ := by
  simp [Decoder.examine, h]

/-- Lines 6 to 8: a header that is no instruction's. -/
theorem examine_unknown (h : d.cfg.hw ≤ x.length) (hn : d.cfg.dict[Bits.toNat (Bits.high d.cfg.hw x)]? = none) :
    (d.holding x).examine = (d.holding x).takeFault (.unknownHeader (Bits.toNat (Bits.high d.cfg.hw x))) := by
  simp [Decoder.examine, Nat.not_lt.2 h, hn]

/-- Line 9: the body is not complete. -/
theorem examine_body (e : Entry) (h : d.cfg.hw ≤ x.length)
    (he : d.cfg.dict[Bits.toNat (Bits.high d.cfg.hw x)]? = some e) (hw : x.length < d.cfg.ww e) :
    (d.holding x).examine = ⟨d.holding x, [], none⟩ := by
  simp [Decoder.examine, Nat.not_lt.2 h, he, hw]

/-- Lines 10 to 17: a complete message, emitted or faulted on. -/
theorem examine_complete (hc : d.cfg.wf = true) (e : Entry)
    (he : d.cfg.dict[Bits.toNat (Bits.high d.cfg.hw x)]? = some e) (hw : x.length = d.cfg.ww e) :
    (d.holding x).examine = d.outcome (Bits.toNat (Bits.high d.cfg.hw x)) e x := by
  have := field_le_ww hc e
  have hb : Bits.low e.size (d.holding x).buf = Bits.low e.size x :=
    bits_low_zext_of_le _ _ _ (by omega)
  have h1 : ¬ x.length < d.cfg.hw := by omega
  have h2 : ¬ x.length < d.cfg.ww e := by omega
  simp only [Decoder.examine, holding_fill, holding_cfg, holding_header, h1, if_false, he, h2, hb]
  unfold Decoder.outcome
  cases decodePayload e (Bits.low e.size x) <;> rfl

/-- The emission of a message does not depend on the bits that were held. -/
theorem holding_emit (m : Msg) : (d.holding x).emit m = (d.holding []).emit m := rfl

theorem emit_dec_eq (m : Msg) (h : d = d.holding []) : (d.emit m).dec = { d with queue := d.queue ++ [m] } := by
  rw [h]
  simp [Decoder.emit, Decoder.holding]

end

/-! ### Several sub-words -/

/-- Feeding one sub-word. -/
theorem feed_singleton (d : Decoder) (s : Bits) : d.feed [s] = d.subword s := by
  simp only [Decoder.feed]
  cases h : (d.subword s).raised <;> simp [← h]

/-- Feeding a sub-word that raises nothing, then the others. -/
theorem feed_cons (d : Decoder) (s : Bits) (rest : List Bits) (h : (d.subword s).raised = none) :
    d.feed (s :: rest) = ⟨((d.subword s).dec.feed rest).dec, (d.subword s).calls ++ ((d.subword s).dec.feed rest).calls,
      ((d.subword s).dec.feed rest).raised⟩ := by
  simp [Decoder.feed, h]

/-- Feeding a sub-word that raises a fault: the others are not taken (R171). -/
theorem feed_cons_raised (d : Decoder) (s : Bits) (rest : List Bits) (h : (d.subword s).raised ≠ none) :
    d.feed (s :: rest) = d.subword s := by
  simp only [Decoder.feed]
  cases hr : (d.subword s).raised with
  | none => exact absurd hr h
  | some r => simp [← hr]

/-- Feeding one list of sub-words after another, where the first raises nothing. -/
theorem feed_append (d : Decoder) (a b : List Bits) (h : (d.feed a).raised = none) :
    d.feed (a ++ b) = ⟨((d.feed a).dec.feed b).dec, (d.feed a).calls ++ ((d.feed a).dec.feed b).calls,
      ((d.feed a).dec.feed b).raised⟩ := by
  induction a generalizing d with
  | nil => simp [Decoder.feed]
  | cons s rest ih =>
    by_cases hr : (d.subword s).raised = none
    · rw [feed_cons _ _ _ hr] at h
      rw [List.cons_append, feed_cons _ _ _ hr, feed_cons _ _ _ hr, ih _ h]
      simp [List.append_assoc]
    · rw [feed_cons_raised _ _ _ hr] at h
      exact absurd h hr

/-- Padding sub-words at a message start are all skipped (30_encoding.md R91, 43_decoder.md R183). -/
theorem feed_padding (d : Decoder) (ps : List Bits) (h : d.fault = none) (hf : d.fill = 0)
    (hp : ∀ s ∈ ps, Bits.top s = true) : d.feed ps = ⟨d, [], none⟩ := by
  induction ps with
  | nil => rfl
  | cons s rest ih =>
    have hs := subword_padding d s h hf (hp s (by simp))
    rw [feed_cons _ _ _ (by rw [hs]), hs, ih (fun t ht => hp t (by simp [ht]))]
    rfl

theorem high_append (k : Nat) (a b : Bits) (h : k ≤ a.length) : Bits.high k (a ++ b) = Bits.high k a :=
  List.take_append_of_le_length h

theorem feed_rest_of_message (d : Decoder) (hc : d.cfg.wf = true) (hn : d.fault = none) (e : Entry) (raw : Bits)
    (he : d.cfg.dict[Bits.toNat (Bits.high d.cfg.hw raw)]? = some e) (hl : raw.length = d.cfg.ww e) (r : Nat) :
    ∀ pre suf : Bits, raw = pre ++ suf → suf.length = (r + 1) * d.cfg.sw → (pre = [] → Bits.top suf = false) →
      (d.holding pre).feed (Bits.chunks d.cfg.sw (r + 1) suf) =
        d.outcome (Bits.toNat (Bits.high d.cfg.hw raw)) e raw := by
  have hsw := wf_sw hc
  have hmax := ww_le_maxww_of_index he
  have hcap : d.cfg.ww e ≤ d.cfg.decCap := hmax
  induction r with
  | zero =>
    intro pre suf hraw hs ht
    rw [Nat.zero_add, Nat.one_mul] at hs
    have htake : suf.take d.cfg.sw = suf := by rw [← hs]; exact List.take_length
    simp only [Bits.chunks, htake]
    rw [feed_singleton]
    rw [subword_data _ _ _ hn ht (by rw [hraw, List.length_append] at hl; omega), ← hraw,
      examine_complete d raw hc e he hl]
  | succ r ih =>
    intro pre suf hraw hs ht
    have hs1 : (suf.take d.cfg.sw).length = d.cfg.sw := by
      rw [List.length_take, hs]
      have : (r + 1 + 1) * d.cfg.sw = (r + 1) * d.cfg.sw + d.cfg.sw := Nat.succ_mul _ _
      omega
    have hs2 : (suf.drop d.cfg.sw).length = (r + 1) * d.cfg.sw := by
      rw [List.length_drop, hs, Nat.succ_mul]; omega
    have hpos : 0 < (r + 1) * d.cfg.sw := Nat.mul_pos (by omega) hsw
    have htop : pre = [] → Bits.top (suf.take d.cfg.sw) = false := by
      intro hp
      have := ht hp
      cases suf with
      | nil => simp at hs2; omega
      | cons b t =>
        have : 0 < d.cfg.sw := hsw
        cases hk : d.cfg.sw with
        | zero => omega
        | succ k => simpa [Bits.top] using ht hp
    have hraw' : raw = (pre ++ suf.take d.cfg.sw) ++ suf.drop d.cfg.sw := by
      rw [List.append_assoc, List.take_append_drop]; exact hraw
    have hlt : (pre ++ suf.take d.cfg.sw).length < d.cfg.ww e := by
      rw [hraw', List.length_append, hs2] at hl
      omega
    have hsub : (d.holding pre).subword (suf.take d.cfg.sw) = ⟨d.holding (pre ++ suf.take d.cfg.sw), [], none⟩ := by
      rw [subword_data _ _ _ hn htop (by rw [List.length_append] at hlt; omega)]
      by_cases hh : (pre ++ suf.take d.cfg.sw).length < d.cfg.hw
      · exact examine_header _ _ hh
      · apply examine_body d _ e (by omega) _ hlt
        rw [hraw', high_append _ _ _ (by omega)] at he
        exact he
    simp only [Bits.chunks] at ih ⊢
    rw [feed_cons _ _ _ (by rw [hsub]), hsub]
    have hne : pre ++ suf.take d.cfg.sw ≠ [] := by
      intro h0
      have := congrArg List.length h0
      rw [List.length_append, hs1] at this
      simp at this
      omega
    have := ih (pre ++ suf.take d.cfg.sw) (suf.drop d.cfg.sw) hraw' hs2 (fun h0 => absurd h0 hne)
    simp only [this, List.nil_append]

/-- A Decoder between messages that is fed the bits of one message takes them all, and emits the message or faults on its
payload (43_decoder.md R181). -/
theorem feedBits_message (d : Decoder) (hc : d.cfg.wf = true) (hn : d.fault = none) (hd : d = d.holding [])
    (e : Entry) (raw : Bits) (he : d.cfg.dict[Bits.toNat (Bits.high d.cfg.hw raw)]? = some e)
    (hl : raw.length = d.cfg.ww e) (ht : Bits.top raw = false) :
    d.feedBits raw = d.outcome (Bits.toNat (Bits.high d.cfg.hw raw)) e raw := by
  obtain ⟨k, hk⟩ := sw_dvd_ww hc e
  have hsw := wf_sw hc
  have hpos : 0 < d.cfg.ww e := (wf_pw hc).trans (pw_le_ww _ _)
  have hdiv : raw.length / d.cfg.sw = k := by rw [hl, hk]; exact Nat.mul_div_cancel_left _ hsw
  obtain ⟨r, rfl⟩ : ∃ r, k = r + 1 := ⟨k - 1, by
    have : k ≠ 0 := by rintro rfl; simp at hk; omega
    omega⟩
  unfold Decoder.feedBits
  rw [hdiv]
  conv_lhs => rw [hd]
  exact feed_rest_of_message d hc hn e raw he hl r [] raw rfl (by rw [hl, hk, Nat.mul_comm]) (fun _ => ht)

/-! ### What a step can do, and the invariant -/

/-- A multiple of `a` that is below `n` leaves room for `a` more below the next multiple. -/
theorem add_le_roundUp (x n a : Nat) (ha : 1 ≤ a) (hx : a ∣ x) (h : x < n) : x + a ≤ roundUp n a := by
  obtain ⟨k, rfl⟩ := hx
  obtain ⟨m, hm⟩ := roundUp_dvd n a
  have hn := roundUp_ge n a ha
  rw [hm] at hn ⊢
  have hkm : k < m := Nat.lt_of_mul_lt_mul_left (h.trans_le hn)
  rw [← Nat.mul_succ]
  exact Nat.mul_le_mul_left _ hkm

/-- The top bit of a message is the top bit of its header. -/
theorem top_high (k : Nat) (v : Bits) (h : 1 ≤ k) : Bits.top (Bits.high k v) = Bits.top v := by
  cases v with
  | nil => simp [Bits.high]
  | cons b t => obtain ⟨j, rfl⟩ : ∃ j, k = j + 1 := ⟨k - 1, by omega⟩; rfl

theorem top_append (a b : Bits) (h : a ≠ []) : Bits.top (a ++ b) = Bits.top a := by
  cases a with
  | nil => exact absurd rfl h
  | cons x t => rfl

/-- A header field whose top bit is 0 is below half its range. -/
theorem header_lt_half {k : Nat} {v : Bits} (hk : 1 ≤ k) (hl : k ≤ v.length) (ht : Bits.top v = false) :
    Bits.toNat (Bits.high k v) < 2 ^ (k - 1) := by
  have hlen : (Bits.high k v).length = k := by simp [Bits.high]; omega
  have := bits_top_iff (Bits.high k v) (by omega)
  rw [hlen, top_high k v hk, ht] at this
  simpa using this

/-- A sub-word never touches the parameter set or the listeners, and only appends to the queue (R172). -/
theorem subword_frame (d : Decoder) (s : Bits) :
    (d.subword s).dec.cfg = d.cfg ∧ (d.subword s).dec.listeners = d.listeners ∧
      ∃ ms, (d.subword s).dec.queue = d.queue ++ ms := by
  unfold Decoder.subword
  split
  · exact ⟨rfl, rfl, [], by simp [Decoder.refuseLatched]⟩
  · split
    · exact ⟨rfl, rfl, [], by simp⟩
    · unfold Decoder.examine
      split
      · exact ⟨rfl, rfl, [], by simp⟩
      · split
        · exact ⟨rfl, rfl, [], by simp⟩
        · split
          · exact ⟨rfl, rfl, [], by simp⟩
          · split
            · exact ⟨rfl, rfl, [], by simp⟩
            · exact ⟨rfl, rfl, [_], rfl⟩

/-- The same for any number of sub-words (R171). -/
theorem feed_frame (d : Decoder) (l : List Bits) :
    (d.feed l).dec.cfg = d.cfg ∧ (d.feed l).dec.listeners = d.listeners ∧
      ∃ ms, (d.feed l).dec.queue = d.queue ++ ms := by
  induction l generalizing d with
  | nil => exact ⟨rfl, rfl, [], by simp [Decoder.feed]⟩
  | cons s rest ih =>
    obtain ⟨h1, h2, ms, h3⟩ := subword_frame d s
    by_cases hr : (d.subword s).raised = none
    · obtain ⟨h4, h5, ks, h6⟩ := ih (d.subword s).dec
      rw [feed_cons _ _ _ hr]
      exact ⟨h4.trans h1, h5.trans h2, ms ++ ks, by rw [h6, h3, List.append_assoc]⟩
    · rw [feed_cons_raised _ _ _ hr]
      exact ⟨h1, h2, ms, h3⟩

/-- A faulted Decoder that is fed anything at all raises `DecoderFaulted` and stays as it is (R255). -/
theorem feed_latched (d : Decoder) (l : List Bits) (f : BlockFault) (h : d.fault = some f) :
    (d.feed l).dec = d ∧ (d.feed l).calls = [] := by
  cases l with
  | nil => exact ⟨rfl, rfl⟩
  | cons s rest =>
    have hs := subword_latched d s f h
    rw [feed_cons_raised _ _ _ (by rw [hs]; simp [Decoder.refuseLatched]), hs]
    exact ⟨rfl, rfl⟩

/-- Everything `DEC.subword` can do to a Decoder that has not faulted (R172): skip a padding sub-word, buffer a part of a
message, fault on an unknown header, or complete a message. -/
theorem subword_cases {d : Decoder} (h : d.Inv) (hn : d.fault = none) (s : Bits) (hs : s.length = d.cfg.sw) :
    (d.fill = 0 ∧ Bits.top s = true ∧ d.subword s = ⟨d, [], none⟩) ∨
    ((d.fill = 0 → Bits.top s = false) ∧ Bits.top (d.held ++ s) = false ∧ d.cfg.sw ∣ (d.held ++ s).length ∧
      (d.held ++ s).length ≤ d.cfg.decCap ∧
      (((d.held ++ s).length < d.cfg.hw ∧ d.subword s = ⟨d.holding (d.held ++ s), [], none⟩) ∨
        (d.cfg.hw ≤ (d.held ++ s).length ∧ d.cfg.n ≤ Bits.toNat (Bits.high d.cfg.hw (d.held ++ s)) ∧
          (d.held ++ s).length = roundUp d.cfg.hw d.cfg.sw ∧
          d.subword s = (d.holding (d.held ++ s)).takeFault
            (.unknownHeader (Bits.toNat (Bits.high d.cfg.hw (d.held ++ s))))) ∨
        ∃ e, d.cfg.hw ≤ (d.held ++ s).length ∧
          d.cfg.dict[Bits.toNat (Bits.high d.cfg.hw (d.held ++ s))]? = some e ∧
          (((d.held ++ s).length < d.cfg.ww e ∧ d.subword s = ⟨d.holding (d.held ++ s), [], none⟩) ∨
            ((d.held ++ s).length = d.cfg.ww e ∧
              d.subword s = d.outcome (Bits.toNat (Bits.high d.cfg.hw (d.held ++ s))) e (d.held ++ s))))) := by
  have ha := h.aligned
  obtain ⟨hc, _, _, hsw, _, hlatch, _⟩ := h
  have hpos := wf_sw hc
  simp only [Decoder.LatchInv, hn] at hlatch
  obtain ⟨hroom, htop, hknown⟩ := hlatch
  have hlen : (d.held ++ s).length = d.fill + d.cfg.sw := by rw [List.length_append, ha.2.1, hs]
  by_cases hpad : d.fill = 0 ∧ Bits.top s = true
  · exact Or.inl ⟨hpad.1, hpad.2, subword_padding d s hn hpad.1 hpad.2⟩
  right
  have hdat : d.fill = 0 → Bits.top s = false := fun h0 => by
    cases hb : Bits.top s
    · rfl
    · exact absurd ⟨h0, hb⟩ hpad
  have hheld : d.held = [] ↔ d.fill = 0 := by rw [← ha.2.1, List.length_eq_zero_iff]
  have htop' : Bits.top (d.held ++ s) = false := by
    by_cases h0 : d.fill = 0
    · rw [hheld.2 h0, List.nil_append]; exact hdat h0
    · rw [top_append _ _ (mt hheld.1 h0)]; exact htop (by omega)
  have hcap : (d.held ++ s).length ≤ d.cfg.decCap := by rw [hlen]; exact hroom
  have hsub : d.subword s = (d.holding (d.held ++ s)).examine := by
    conv_lhs => rw [ha.2.2]
    exact subword_data d d.held s hn (fun h0 => hdat (hheld.1 h0)) (by rw [← List.length_append]; exact hcap)
  have hdvdf : d.cfg.sw ∣ d.fill := Nat.dvd_of_mod_eq_zero hsw
  have hdvd : d.cfg.sw ∣ (d.held ++ s).length := by rw [hlen]; exact Nat.dvd_add hdvdf (dvd_refl _)
  refine ⟨hdat, htop', hdvd, hcap, ?_⟩
  by_cases hh : (d.held ++ s).length < d.cfg.hw
  · exact Or.inl ⟨hh, hsub.trans (examine_header _ _ hh)⟩
  right
  have hh' : d.cfg.hw ≤ (d.held ++ s).length := by omega
  have hold : 0 < d.fill → d.cfg.hw ≤ d.fill →
      d.header = Bits.toNat (Bits.high d.cfg.hw (d.held ++ s)) := fun _ h1 => by
    rw [high_append _ _ _ (by rw [ha.2.1]; exact h1)]; rfl
  cases he : d.cfg.dict[Bits.toNat (Bits.high d.cfg.hw (d.held ++ s))]? with
  | none =>
    refine Or.inl ⟨hh', List.getElem?_eq_none_iff.1 he, ?_, hsub.trans (examine_unknown _ _ hh' he)⟩
    have hlt : d.fill < d.cfg.hw := by
      by_contra hge
      have hpw := hw_pos hc
      obtain ⟨e, h1, _⟩ := hknown (by omega) (by omega)
      rw [hold (by omega) (by omega), he] at h1
      simp at h1
    rw [hlen] at hh' ⊢
    exact le_antisymm (add_le_roundUp _ _ _ hpos hdvdf hlt)
      (roundUp_le _ _ _ hpos (Nat.dvd_add hdvdf (dvd_refl _)) hh')
  | some e =>
    refine Or.inr ⟨e, hh', rfl, ?_⟩
    by_cases hw : (d.held ++ s).length < d.cfg.ww e
    · exact Or.inl ⟨hw, hsub.trans (examine_body _ _ e hh' he hw)⟩
    · have hle : (d.held ++ s).length ≤ d.cfg.ww e := by
        have hup : ∀ m, d.cfg.sw ∣ m → d.fill < m → d.fill + d.cfg.sw ≤ m := by
          intro m hm hlt
          have := add_le_roundUp d.fill m d.cfg.sw hpos hdvdf hlt
          rwa [le_antisymm (roundUp_le m _ m hpos hm (le_refl _)) (roundUp_ge _ _ hpos)] at this
        rw [hlen]
        apply hup _ (sw_dvd_ww hc e)
        by_cases hfull : 0 < d.fill ∧ d.cfg.hw ≤ d.fill
        · obtain ⟨e', h1, h2⟩ := hknown hfull.1 hfull.2
          rw [hold hfull.1 hfull.2, he] at h1
          rwa [← Option.some.inj h1] at h2
        · have := field_le_ww hc e
          have := hw_pos hc
          omega
      exact Or.inr ⟨by omega, hsub.trans (examine_complete _ _ hc e he (by omega))⟩

/-- A Decoder that holds a part of a message and has not faulted meets the invariant. -/
theorem holding_inv {d : Decoder} (h : d.Inv) (hn : d.fault = none) (x : Bits) (ht : Bits.top x = false)
    (hd : d.cfg.sw ∣ x.length)
    (hx : x.length < d.cfg.hw ∨
      ∃ e, d.cfg.dict[Bits.toNat (Bits.high d.cfg.hw x)]? = some e ∧ x.length < d.cfg.ww e) :
    (d.holding x).Inv := by
  obtain ⟨hc, _, _, _, _, _, hq⟩ := h
  have hpos := wf_sw hc
  have hup : ∀ m, d.cfg.sw ∣ m → x.length < m → x.length + d.cfg.sw ≤ m := by
    intro m hm hlt
    have := add_le_roundUp x.length m d.cfg.sw hpos hd hlt
    rwa [le_antisymm (roundUp_le m _ m hpos hm (le_refl _)) (roundUp_ge _ _ hpos)] at this
  have hroom : x.length + d.cfg.sw ≤ d.cfg.maxww := by
    rcases hx with hx | ⟨e, he, hx⟩
    · obtain ⟨e, hmem, hmax⟩ := maxww_attained d.cfg (wf_n hc)
      rw [← hmax]
      exact (add_le_roundUp _ _ _ hpos hd hx).trans (headerSubwords_le_ww hc e)
    · exact (hup _ (sw_dvd_ww hc e) hx).trans (ww_le_maxww_of_index he)
  have hcap : x.length ≤ d.cfg.decCap := by unfold ParamSet.decCap; omega
  refine ⟨hc, bits_zext_length _ _ hcap, by rw [holding_held]; rfl, Nat.mod_eq_zero_of_dvd hd, hcap, ?_, hq⟩
  simp only [Decoder.LatchInv, holding_fault, hn]
  refine ⟨hroom, fun _ => by rw [holding_held]; exact ht, fun _ hle => ?_⟩
  rw [holding_header]
  rcases hx with hx | hx
  · simp only [holding_fill, holding_cfg] at hle; omega
  · exact hx

/-- `DEC.subword` keeps the invariant. -/
theorem subword_inv {d : Decoder} (h : d.Inv) (s : Bits) (hs : s.length = d.cfg.sw) : (d.subword s).dec.Inv := by
  cases hn : d.fault with
  | some f => rw [subword_latched d s f hn]; exact h
  | none =>
    rcases subword_cases h hn s hs with ⟨_, _, h1⟩ | ⟨_, ht, hd, hcap, h1⟩
    · rw [h1]; exact h
    · have hbuf : (Bits.zext d.cfg.decCap (d.held ++ s)).length = d.cfg.decCap := bits_zext_length _ _ hcap
      rcases h1 with ⟨hlt, h1⟩ | ⟨hle, hun, hlen, h1⟩ | ⟨e, hle, he, ⟨hlt, h1⟩ | ⟨heq, h1⟩⟩
      · rw [h1]; exact holding_inv h hn _ ht hd (Or.inl hlt)
      · rw [h1]
        refine ⟨h.1, hbuf, ?_, Nat.mod_eq_zero_of_dvd hd, hcap, ?_, h.2.2.2.2.2.2⟩
        · change Bits.zext _ _ = Bits.zext _ (d.holding (d.held ++ s)).held
          rw [holding_held]; rfl
        · change (d.holding (d.held ++ s)).header = _ ∧ _ ∧ _ ∧ _
          exact ⟨holding_header _ _, hun, header_lt_half (hw_pos h.1) hle ht, hlen⟩
      · rw [h1]; exact holding_inv h hn _ ht hd (Or.inr ⟨e, he, hlt⟩)
      · rw [h1]
        have hsz : (Bits.low e.size (d.held ++ s)).length = e.size := by
          have := field_le_ww h.1 e
          rw [bits_low_length]; omega
        unfold Decoder.outcome
        cases hp : decodePayload e (Bits.low e.size (d.held ++ s)) with
        | error f =>
          obtain ⟨inst, v, rfl⟩ : ∃ inst v, f = .payloadOutOfRange inst v := by
            unfold decodePayload at hp
            split at hp
            · simp at hp
            · simp at hp
            · unfold rangedDecode rangedMake at hp
              split at hp
              · simp at hp
              · rename_i hr
                split at hr
                · simp only [Except.error.injEq] at hr hp
                  exact ⟨_, _, hp.symm.trans hr.symm⟩
                · simp at hr
          refine ⟨h.1, hbuf, ?_, Nat.mod_eq_zero_of_dvd hd, hcap, ?_, h.2.2.2.2.2.2⟩
          · change Bits.zext _ _ = Bits.zext _ (d.holding (d.held ++ s)).held
            rw [holding_held]; rfl
          · change ∃ e, d.cfg.dict[(d.holding (d.held ++ s)).header]? = some e ∧ _ ∧ _
            refine ⟨e, by rw [holding_header]; exact he, heq, ?_⟩
            change decodePayload e (Bits.low e.size (Bits.zext _ (d.held ++ s))) = _
            rw [bits_low_zext_of_le _ _ _ (by have := field_le_ww h.1 e; omega)]
            exact hp
        | ok p =>
          have hwf : Payload.wf e p = true := decodePayload_wf e _ p (wf_kind h.1 e (List.mem_of_getElem? he)) hsz hp
          have hz : ((d.holding []).emit ⟨Bits.toNat (Bits.high d.cfg.hw (d.held ++ s)), p⟩).dec =
              { d.holding [] with queue := d.queue ++ [⟨Bits.toNat (Bits.high d.cfg.hw (d.held ++ s)), p⟩] } :=
            emit_dec_eq _ _ (by simp)
          rw [hz]
          have h0 : (d.holding []).Inv := holding_inv h hn [] rfl (dvd_zero _) (Or.inl (hw_pos h.1))
          obtain ⟨i1, i2, i3, i4, i5, i6, i7⟩ := h0
          refine ⟨i1, i2, i3, i4, i5, i6, fun m hm => ?_⟩
          rcases List.mem_append.1 hm with hm | hm
          · exact i7 m hm
          · rw [List.mem_singleton.1 hm]
            exact (msg_wf_iff _ _).2 ⟨e, he, hwf⟩

/-- Feeding sub-words keeps the invariant. -/
theorem feed_inv {d : Decoder} (h : d.Inv) (l : List Bits) (hl : ∀ s ∈ l, s.length = d.cfg.sw) :
    (d.feed l).dec.Inv := by
  induction l generalizing d with
  | nil => exact h
  | cons s rest ih =>
    have hs := subword_inv h s (hl s (by simp))
    by_cases hr : (d.subword s).raised = none
    · rw [feed_cons _ _ _ hr]
      exact ih hs (fun t ht => by rw [(subword_frame d s).1]; exact hl t (by simp [ht]))
    · rw [feed_cons_raised _ _ _ hr]; exact hs

/-- `DEC.decode` in terms of its sub-words, whether or not the Decoder has faulted (R171): a faulted one raises at the
first. -/
theorem decodeWord_eq {d : Decoder} (hc : d.cfg.wf = true) (w : Bits) :
    d.decodeWord w = d.feed (Bits.chunks d.cfg.sw d.cfg.ratio w) := by
  unfold Decoder.decodeWord
  split
  · rename_i f hf
    obtain ⟨r, hr⟩ : ∃ r, d.cfg.ratio = r + 1 := ⟨d.cfg.ratio - 1, by have := ratio_pos hc; omega⟩
    rw [hr]
    simp only [Bits.chunks]
    have hs := subword_latched d (w.take d.cfg.sw) f hf
    rw [feed_cons_raised _ _ _ (by rw [hs]; simp [Decoder.refuseLatched]), hs]
  · rfl

theorem decodeWord_inv {d : Decoder} (h : d.Inv) (w : Bits) (hw : w.length = d.cfg.pw) : (d.decodeWord w).dec.Inv := by
  rw [decodeWord_eq h.1]
  exact feed_inv h _ (bits_chunks_width _ _ _ (by rw [hw, ratio_mul h.1]))

theorem endOfStream_inv {d : Decoder} (h : d.Inv) : d.endOfStream.dec.Inv := by
  cases hn : d.fault with
  | some f => simpa [Decoder.endOfStream, hn, Decoder.refuseLatched] using h
  | none =>
    simp only [Decoder.endOfStream, hn]
    split
    · rename_i hf
      obtain ⟨i1, i2, i3, i4, i5, i6, i7⟩ := h
      simp only [Decoder.LatchInv, hn] at i6
      exact ⟨i1, i2, i3, i4, i5, ⟨rfl, Nat.pos_of_ne_zero hf, i6⟩, i7⟩
    · exact h

theorem Decoder.fresh_inv (c : ParamSet) (hc : c.wf = true) : (Decoder.fresh c).Inv := by
  have hheld : (Decoder.fresh c).held = [] := by simp [Decoder.held, Bits.low]
  refine ⟨hc, by simp, by rw [hheld]; simp, by simp, by simp, ?_, by simp⟩
  simp only [Decoder.LatchInv, Decoder.fresh_fault, Decoder.PartialMessage, Decoder.fresh_fill, Decoder.fresh_cfg]
  refine ⟨?_, fun h => absurd h (lt_irrefl _), fun h => absurd h (lt_irrefl _)⟩
  rw [Nat.zero_add]
  exact (sw_le_pw hc).trans (pw_le_maxww hc)

/-- `DEC.end_of_stream` touches nothing but the latch, and that only where it is clear (R175). -/
theorem endOfStream_frame (d : Decoder) : d.endOfStream.dec = { d with fault := d.endOfStream.dec.fault } ∧
    d.endOfStream.calls = [] ∧ (∀ f, d.fault = some f → d.endOfStream.dec = d) := by
  unfold Decoder.endOfStream
  split
  · simp [Decoder.refuseLatched]
  · split
    · simp_all [Decoder.takeFault]
    · cases d; simp_all

/-! ### The state after the Decoder's steps -/

/-- A step that does nothing answers its caller and changes nothing else. -/
theorem fed_self (s : State) : s.fed ⟨s.dec, [], none⟩ = { s with ret := .done } := by
  simp [State.fed, Ret.ofRaised]

/-- An operation called while the latch is set (R255). -/
theorem fed_latched (s : State) (f : BlockFault) : s.fed (s.dec.refuseLatched f) =
    { s with ret := .raised (.decoderFaulted f) } := by
  simp [State.fed, Decoder.refuseLatched, Ret.ofRaised]

/-- Steps one after the other, where the first raises nothing, are the steps together. -/
theorem fed_trans (s : State) (d1 d2 : Decoder) (k1 k2 : List Call) (r : Option Raised) (h : d1.cfg = s.dec.cfg) :
    (s.fed ⟨d1, k1, none⟩).fed ⟨d2, k2, r⟩ = s.fed ⟨d2, k1 ++ k2, r⟩ := by
  simp [State.fed, h, Connection.notified_append]

/-- A complete message with a payload in its bound is received. -/
theorem outcome_ok {s : State} {e : Entry} {x : Bits} {p : Payload} (i : Nat)
    (hd : decodePayload e (Bits.low e.size x) = .ok p) :
    s.fed (s.dec.outcome i e x) = s.received ⟨i, p⟩ := by
  simp [Decoder.outcome, hd, State.fed, State.received, Decoder.emit, Decoder.holding, Ret.ofRaised]

/-- A complete message whose payload is out of its bound is faulted on. -/
theorem outcome_error {s : State} {e : Entry} {x : Bits} {f : BlockFault} (i : Nat)
    (hd : decodePayload e (Bits.low e.size x) = .error f) :
    s.fed (s.dec.outcome i e x) = s.faulted x f := by
  simp [Decoder.outcome, hd, State.fed, State.faulted, Decoder.takeFault, Decoder.holding, Ret.ofRaised]

/-- A Decoder between messages holds nothing. -/
theorem boundary_holding {s : State} (h : s.AtBoundary) : s.dec = s.dec.holding [] := by
  have ha := h.1.aligned
  have : s.dec.held = [] := by rw [← List.length_eq_zero_iff, ha.2.1]; exact h.2.2
  have h2 := ha.2.2
  rw [this] at h2
  exact h2

end Sys2Proof.Machine
end

