-- ==== Sys2Proof/Laws/Encoder.lean ====
section
/-! SUPPORT. What the Encoder's operations do (42_encoder.md), in terms of the bits it holds. -/

namespace Sys2Proof.Machine

/-- The buffer is as R26 says: `ENC_CAP` bits, the held ones right-aligned, zero above. -/
def Encoder.Aligned (e : Encoder) : Prop :=
  e.fill ≤ e.cfg.encCap ∧ e.held.length = e.fill ∧ e.buf = Bits.zext e.cfg.encCap e.held

theorem Encoder.Inv.aligned {e : Encoder} (h : e.Inv) : e.Aligned := by
  obtain ⟨hc, hl, hz, _, hf, _⟩ := h
  have hcap : e.fill ≤ e.cfg.encCap := by unfold ParamSet.encCap; omega
  refine ⟨hcap, ?_, hz⟩
  rw [Encoder.held, bits_low_length, hl]
  omega

/-- A register that holds `v` and nothing else. -/
theorem held_of_buf (e : Encoder) (v : Bits) (hb : e.buf = Bits.zext e.cfg.encCap v) (hf : e.fill = v.length) :
    e.held = v := by
  rw [Encoder.held, hb, hf]
  exact bits_low_zext _ _

theorem append_aligned {e : Encoder} (h : e.Aligned) (v : Bits) (hv : e.fill + v.length ≤ e.cfg.encCap) :
    (e.append v).Aligned ∧ (e.append v).held = e.held ++ v := by
  obtain ⟨_, hl, hz⟩ := h
  have hb : (e.append v).buf = Bits.zext (e.append v).cfg.encCap (e.held ++ v) := by
    simp only [Encoder.append_buf, Encoder.append_cfg]
    conv_lhs => rw [hz]
    exact bits_shiftIn_zext _ _ _ (by omega)
  have hh := held_of_buf (e.append v) (e.held ++ v) hb (by simp [hl])
  exact ⟨⟨hv, by rw [hh]; simp [hl], by rw [hh]; exact hb⟩, hh⟩

theorem pushWord_aligned {e : Encoder} (h : e.Aligned) (hp : e.cfg.pw ≤ e.fill) :
    e.pushWord.Aligned ∧ e.held = Bits.high e.cfg.pw e.held ++ e.pushWord.held ∧
      (Bits.high e.cfg.pw e.held).length = e.cfg.pw := by
  obtain ⟨hcap, hl, hz⟩ := h
  have hlow : Bits.low (e.fill - e.cfg.pw) e.buf = Bits.low (e.fill - e.cfg.pw) e.held := by
    rw [hz]; exact bits_low_zext_of_le _ _ _ (by omega)
  have hlen : (Bits.low (e.fill - e.cfg.pw) e.held).length = e.fill - e.cfg.pw := by
    rw [bits_low_length]; omega
  have hh : e.pushWord.held = Bits.low (e.fill - e.cfg.pw) e.held :=
    held_of_buf e.pushWord _ (by simp [hlow]) (by simp [hlen])
  refine ⟨⟨by simp; omega, by rw [hh]; simp [hlen], by rw [hh]; simp [hlow]⟩, ?_, ?_⟩
  · rw [hh]
    conv_lhs => rw [← bits_high_append_low e.cfg.pw e.held (by omega)]
    rw [hl]
  · simp [Bits.high]; omega

/-- The loop of R151: it pushes every whole word of what is held. -/
theorem drain_spec (k : Nat) (e : Encoder) (h : e.Aligned) (hpw : 1 ≤ e.cfg.pw) (hk : e.fill ≤ k) :
    (Encoder.drain k e).Aligned ∧ (Encoder.drain k e).cfg = e.cfg ∧ (Encoder.drain k e).fill = e.fill % e.cfg.pw ∧
      ∃ ws, (Encoder.drain k e).sink = e.sink ++ ws ∧ ws.length = e.fill / e.cfg.pw ∧
        (∀ w ∈ ws, w.length = e.cfg.pw) ∧ bitstream ws ++ (Encoder.drain k e).held = e.held := by
  induction k generalizing e with
  | zero =>
    have : e.fill = 0 := by omega
    exact ⟨h, rfl, by simp [Encoder.drain, this], [], by simp [Encoder.drain, bitstream, this]⟩
  | succ k ih =>
    unfold Encoder.drain
    split
    · rename_i hle
      obtain ⟨ha, hs, hw⟩ := pushWord_aligned h hle
      obtain ⟨h1, h2, h3, ws, h4, h5, h6, h7⟩ := ih e.pushWord ha hpw (by simp; omega)
      simp only [Encoder.pushWord_cfg, Encoder.pushWord_fill, Encoder.pushWord_sink] at h2 h3 h4 h5 h6
      refine ⟨h1, h2, ?_, Bits.high e.cfg.pw e.held :: ws, ?_, ?_, ?_, ?_⟩
      · rw [h3, ← Nat.mod_eq_sub_mod hle]
      · rw [h4]; simp
      · rw [List.length_cons, h5, ← Nat.div_eq_sub_div hpw hle]
      · simpa [hw] using h6
      · rw [bitstream, List.flatten_cons, List.append_assoc]
        rw [bitstream] at h7
        rw [h7]; exact hs.symm
    · rename_i hlt
      have hlt' : e.fill < e.cfg.pw := by omega
      exact ⟨h, rfl, (Nat.mod_eq_of_lt hlt').symm, [], by simp [bitstream, Nat.div_eq_of_lt hlt']⟩

theorem Encoder.fresh_inv (c : ParamSet) (hc : c.wf = true) : (Encoder.fresh c).Inv := by
  have := sw_le_pw hc
  refine ⟨hc, by simp, ?_, by simp, by simpa using this, by simp⟩
  have : (Encoder.fresh c).held = [] := by simp [Encoder.held, Bits.low]
  rw [this]; simp

/-- `ENC.encode` (R151), in one sentence: the packed message is put after what was held, every whole word is pushed, and
the invariant is kept. -/
theorem encode_emits {e : Encoder} (h : e.Inv) (m : Msg) (hm : m.wf e.cfg = true) :
    e.Emitted (e.encode m) (pack e.cfg m) ∧ (e.encode m).Inv := by
  have ha := h.aligned
  obtain ⟨hc, _, _, hsw, hf, hsink⟩ := h
  obtain ⟨en, hen, hp⟩ := (msg_wf_iff _ _).1 hm
  have hlen : (pack e.cfg m).length = e.cfg.ww en := by
    rw [pack_eq hen]; exact packEntry_length hc _ _ _ (payload_typed_of_wf hp)
  have hmax := ww_le_maxww_of_index hen
  have hcap : e.fill + (pack e.cfg m).length ≤ e.cfg.encCap := by unfold ParamSet.encCap; omega
  obtain ⟨hap, hheld⟩ := append_aligned ha _ hcap
  obtain ⟨h1, h2, h3, ws, h4, h5, h6, h7⟩ :=
    drain_spec (e.append (pack e.cfg m)).fill _ hap (wf_pw hc) (le_refl _)
  change e.Emitted (Encoder.drain _ _) _ ∧ (Encoder.drain _ _).Inv
  generalize Encoder.drain (e.append (pack e.cfg m)).fill (e.append (pack e.cfg m)) = f at h1 h2 h3 h4 h7 ⊢
  simp only [Encoder.append_cfg, Encoder.append_fill, Encoder.append_sink] at h2 h3 h4 h5 h6
  obtain ⟨hfc, hfl, hfz⟩ := h1
  have hd : e.cfg.sw ∣ f.fill := by
    rw [h3]
    exact (Nat.dvd_mod_iff (wf_sw_dvd_pw hc)).2
      (Nat.dvd_add (Nat.dvd_of_mod_eq_zero hsw) (hlen ▸ sw_dvd_ww hc en))
  refine ⟨⟨h2, ws, h4, h5, h3, by rw [h7, hheld]⟩, by rw [h2]; exact hc, ?_, hfz, ?_, ?_, ?_⟩
  · rw [hfz]
    exact bits_zext_length _ _ (by omega)
  · rw [h2]
    exact Nat.mod_eq_zero_of_dvd hd
  · rw [h2]
    have hlt : f.fill < e.cfg.pw := h3 ▸ Nat.mod_lt _ (wf_pw hc)
    obtain ⟨a, ha'⟩ := hd
    obtain ⟨b, hb'⟩ := wf_sw_dvd_pw hc
    have hab : a < b := by
      rw [ha', hb'] at hlt
      exact Nat.lt_of_mul_lt_mul_left hlt
    rw [ha', hb', ← Nat.mul_succ]
    exact Nat.mul_le_mul_left _ hab
  · rw [h4, h2]
    intro w hw
    rcases List.mem_append.1 hw with hw | hw
    · exact hsink w hw
    · exact h6 w hw

/-- One emission after another is the emission of both. -/
theorem Emitted.trans {e f g : Encoder} {u v : Bits} (hpw : 1 ≤ e.cfg.pw) (h1 : e.Emitted f u) (h2 : f.Emitted g v) :
    e.Emitted g (u ++ v) := by
  obtain ⟨hc1, ws1, hs1, hn1, hf1, hb1⟩ := h1
  obtain ⟨hc2, ws2, hs2, hn2, hf2, hb2⟩ := h2
  rw [hc1, hf1] at hn2 hf2
  have hdm := Nat.div_add_mod (e.fill + u.length) e.cfg.pw
  refine ⟨hc2.trans hc1, ws1 ++ ws2, by rw [hs2, hs1, List.append_assoc], ?_, ?_, ?_⟩
  · rw [List.length_append, hn1, hn2, List.length_append, ← Nat.add_assoc]
    conv_rhs => rw [← hdm, Nat.add_assoc, Nat.mul_add_div hpw]
  · rw [hf2, List.length_append, ← Nat.add_assoc]
    exact Nat.mod_add_mod _ _ _
  · rw [bitstream, List.flatten_append, List.append_assoc]
    rw [bitstream] at hb1 hb2
    rw [hb2, ← List.append_assoc, hb1, List.append_assoc]

theorem Emitted.refl {e : Encoder} (h : e.Inv) : e.Emitted e [] := by
  obtain ⟨hc, _, _, _, hf, _⟩ := h
  have hlt : e.fill < e.cfg.pw := by have := wf_sw hc; omega
  exact ⟨rfl, [], by simp [bitstream, Nat.div_eq_of_lt hlt, Nat.mod_eq_of_lt hlt]⟩

/-- `ENC.encode_batch` (R152). -/
theorem encodeBatch_emits {e : Encoder} (h : e.Inv) (ms : List Msg) (hm : ∀ m ∈ ms, m.wf e.cfg = true) :
    e.Emitted (e.encodeBatch ms) (ms.map (pack e.cfg)).flatten ∧ (e.encodeBatch ms).Inv := by
  induction ms generalizing e with
  | nil => exact ⟨Emitted.refl h, h⟩
  | cons m ms ih =>
    obtain ⟨h1, h2⟩ := encode_emits h m (hm m (by simp))
    have hcfg := h1.1
    obtain ⟨h3, h4⟩ := ih h2 (fun k hk => by rw [hcfg]; exact hm k (by simp [hk]))
    rw [hcfg] at h3
    exact ⟨Emitted.trans (wf_pw h.1) h1 h3, h4⟩

/-- `ENC.flush` (R153) with bits buffered: one word, the held bits followed by padding sub-words. -/
theorem flush_spec {e : Encoder} (h : e.Inv) (hf : e.fill ≠ 0) :
    e.flush = { e with sink := e.sink ++ [e.flushWord], buf := zeros e.cfg.encCap, fill := 0 } ∧
      e.flushWord.length = e.cfg.pw ∧ e.flush.Inv := by
  have ha := h.aligned
  obtain ⟨hc, hl, hz, hsw, hfl, hs⟩ := h
  have hpos := wf_sw hc
  have heq : e.flush = { e with sink := e.sink ++ [e.flushWord], buf := zeros e.cfg.encCap, fill := 0 } := by
    simp [Encoder.flush, hf]
  have hpad : e.cfg.padSubword.length = e.cfg.sw := by simp [ParamSet.padSubword]; omega
  have hlen : e.flushWord.length = e.cfg.pw := by
    have hr := ratio_mul hc
    have hk : e.fill / e.cfg.sw * e.cfg.sw = e.fill := Nat.div_mul_cancel (Nat.dvd_of_mod_eq_zero hsw)
    simp only [Encoder.flushWord, List.length_append, ha.2.1, List.length_flatten, List.map_replicate, hpad,
      List.sum_replicate, smul_eq_mul]
    rw [Nat.sub_mul, hr, hk]
    omega
  refine ⟨heq, hlen, ?_⟩
  rw [heq]
  refine ⟨hc, by simp, ?_, by simp, by simpa using sw_le_pw hc, ?_⟩
  · have h0 : Encoder.held { e with sink := e.sink ++ [e.flushWord], buf := zeros e.cfg.encCap, fill := 0 } = [] := by
      simp [Encoder.held, Bits.low]
    rw [h0, bits_zext_nil]
  · intro w hw
    rcases List.mem_append.1 hw with hw | hw
    · exact hs w hw
    · rw [List.mem_singleton.1 hw]; exact hlen

theorem flush_empty {e : Encoder} (h : e.fill = 0) : e.flush = e := by simp [Encoder.flush, h]

@[simp] theorem flush_fill (e : Encoder) : e.flush.fill = 0 := by
  unfold Encoder.flush
  split <;> simp_all

@[simp] theorem flush_cfg (e : Encoder) : e.flush.cfg = e.cfg := by
  unfold Encoder.flush
  split <;> rfl

theorem flush_inv {e : Encoder} (h : e.Inv) : e.flush.Inv := by
  by_cases hf : e.fill = 0
  · rw [flush_empty hf]; exact h
  · exact (flush_spec h hf).2.2

@[simp] theorem drain_cfg (k : Nat) (e : Encoder) : (Encoder.drain k e).cfg = e.cfg := by
  induction k generalizing e with
  | zero => rfl
  | succ k ih =>
    unfold Encoder.drain
    split
    · rw [ih]; rfl
    · rfl

@[simp] theorem encode_cfg (e : Encoder) (m : Msg) : (e.encode m).cfg = e.cfg := by simp [Encoder.encode]

@[simp] theorem encodeBatch_cfg (e : Encoder) (ms : List Msg) : (e.encodeBatch ms).cfg = e.cfg := by
  induction ms generalizing e with
  | nil => rfl
  | cons m ms ih => exact (ih (e.encode m)).trans (encode_cfg e m)

end Sys2Proof.Machine
end

