-- ==== Sys2Proof/Laws/Packer.lean ====
section
/-! SUPPORT. What `MSG.make` looks up and what packing a decoded payload gives (41_message_packer.md). -/

namespace Sys2Proof

/-- Encoding what was decoded gives the payload bits the codec reads, zero above (R112, R114). -/
theorem encode_decodePayload (e : Entry) (b : Bits) (p : Payload) (he : e.kind.wf = true) (hb : b.length = e.size)
    (h : decodePayload e b = .ok p) :
    encodePayload e p = zeros (e.size - Machine.readBits e) ++ Bits.low (Machine.readBits e) b := by
  have key : ∀ t : IntType, t.wf = true → numberEncode t e.size (numberDecode t b) =
      zeros (e.size - min e.size t.width) ++ Bits.low (min e.size t.width) b := by
    intro t ht
    apply bits_toNat_inj
    · rw [numberEncode_length, List.length_append, zeros_length, bits_low_length]; omega
    · have hE := numberEncode_toNat t e.size (numberDecode t b)
      have hm : numberDecode t b % 2 ^ t.width = ((Bits.toNat b % 2 ^ t.width : Nat) : Int) := by
        rw [numberDecode_eq t b ht]
        split
        · rw [Int.sub_emod_right]; push_cast; exact Int.emod_emod _ _
        · push_cast; exact Int.emod_emod _ _
      rw [hm] at hE
      rw [bits_toNat_append, bits_toNat_zeros, Nat.zero_mul, Nat.zero_add, bits_toNat_low _ _ (by omega)]
      have : Bits.toNat (numberEncode t e.size (numberDecode t b)) = Bits.toNat b % 2 ^ t.width % 2 ^ e.size := by exact_mod_cast hE
      rw [this]
      have hlt := bits_toNat_lt b
      rw [hb] at hlt
      rcases le_total e.size t.width with h1 | h1
      · rw [min_eq_left h1, Nat.mod_eq_of_lt (hlt.trans_le (Nat.pow_le_pow_right (by omega) h1))]
      · rw [min_eq_right h1]
        exact Nat.mod_eq_of_lt ((Nat.mod_lt _ (by positivity)).trans_le (Nat.pow_le_pow_right (by omega) h1))
  unfold decodePayload at h
  unfold encodePayload Machine.readBits
  cases hk : e.kind with
  | bitset =>
    simp only [hk, bitsetDecode] at h
    cases h
    simp [bitsetEncode, ← hb]
  | number t =>
    simp only [hk] at h
    cases h
    exact key t (by simpa [hk, Kind.wf] using he)
  | ranged t mn mx =>
    simp only [hk, rangedDecode, rangedMake] at h
    simp only [hk, Kind.wf, IntType.boundsWf, Bool.and_eq_true] at he
    split at h
    · rename_i v hv
      cases h
      split at hv
      · simp at hv
      · simp only [Except.ok.injEq] at hv
        subst hv
        exact key t he.1.1.1
    · simp at h

/-- The name of an entry stands for its index: names are unique (R8, R136). -/
theorem find_name {c : ParamSet} (hc : c.wf = true) {i : Nat} {e : Entry} (he : c.dict[i]? = some e) :
    c.find (.name e.name) = some i := by
  have hnd := wf_nodup hc
  obtain ⟨hi, hei⟩ := List.getElem?_eq_some_iff.1 he
  simp only [ParamSet.find]
  rw [List.findIdx?_eq_some_iff_getElem]
  refine ⟨hi, by simp [hei], fun j hj => ?_⟩
  have hjl : j < c.dict.length := by omega
  simp only [beq_iff_eq, ← hei]
  intro hn
  have := (List.nodup_iff_injective_getElem.1 hnd) (a₁ := ⟨j, by simpa using hjl⟩) (a₂ := ⟨i, by simpa using hi⟩) (by simpa using hn)
  simp at this
  omega

end Sys2Proof
end

