-- ==== Sys2Proof/Laws/PerInstr.lean ====
section
/-! SUPPORT. The statement family `WireWidth`: how many bits each instruction has on the wire, the `width` column of
opcode_table.json (30_encoding.md R84, R90, R93, R102). -/

namespace Sys2Proof.Laws.WireWidth

/-- The width of an instruction's wire item under the parameter set `c`; an operation has none (R102). -/
def width (c : ParamSet) : Instr → Option Nat
  | .msg i _ _ => (c.dict[i]?).map c.ww
  | .pad _ => some c.sw
  | .illegalHeader _ _ => some (roundUp c.hw c.sw)
  | .ref8A | .ref8Pad _ | .cfg16Pad _ | .cfgsPad _ => some 8
  | .ref8B _ | .cfg16X _ _ | .cfg16Y _ _ | .cfg16Z _ | .cfg3N2 _ _ | .cfgsS _ | .cfgsT _ _ => some 16
  | .cfg16W _ _ | .cfg3N4 _ | .cfgsU _ _ => some 24
  | .cfg64P0 _ | .cfg64P1 _ | .cfg64P4 _ _ | .cfg64Pad _ => some 64
  | .cfg64P2 _ _ | .cfg64P3 _ _ => some 128
  | .cfg3N0 _ | .cfg3N1 _ _ | .cfg3N3 _ _ => some 12
  | .cfg3Pad _ | .cfg1Only _ | .cfg1Pad _ => some 4
  | .bitsetEncode _ | .bitsetDecode _ | .numberEncode _ _ _ | .numberDecode _ _ | .rangedMake _ _ _ _ _
  | .rangedEncode _ _ _ _ _ | .rangedDecode _ _ _ _ _ | .payloadEq _ _ _ | .msgHeader _ _ | .msgWordWidth _ _
  | .msgPack _ _ | .msgUnpack _ _ | .msgMake _ _ _ | .msgEq _ _ _ | .encEncode _ | .encEncodeBatch _
  | .encFlush | .encReset | .decDecode _ | .decSubword _ | .decAddListener _ | .decEndOfStream | .decReset => none

/-- The instruction's encoding has its row's width, under every legal parameter set that its fields fit. -/
def Statement (i : Instr) : Prop :=
  ∀ c : ParamSet, c.wf = true → i.widthsOk c = true → (encode c i).map List.length = width c i

theorem msg (i : Nat) (z p : Bits) : Statement (.msg i z p) := by
  intro c hc h
  simp only [Instr.widthsOk] at h
  cases he : c.dict[i]? with
  | none => simp [he] at h
  | some e =>
    have := field_le_ww hc e
    simp only [he, Bool.and_eq_true, beq_iff_eq] at h
    simp [encode, width, he, h]
    omega

theorem pad (x : Bits) : Statement (.pad x) := by
  intro c _ h
  simpa [Instr.widthsOk, encode, width] using h

theorem illegalHeader (h : Nat) (t : Bits) : Statement (.illegalHeader h t) := by
  intro c _ hw
  simp [Instr.widthsOk] at hw
  simp [encode, width]
  omega

theorem ref8A : Statement .ref8A :=
  fun _ _ _ => rfl

theorem ref8B (p : BitVec 8) : Statement (.ref8B p) :=
  fun _ _ _ => by simp [encode, width, rowBits]

theorem ref8Pad (x : BitVec 7) : Statement (.ref8Pad x) :=
  fun _ _ _ => by simp [encode, width, padBits]

theorem cfg16X (z : BitVec 10) (p : BitVec 3) : Statement (.cfg16X z p) :=
  fun _ _ _ => by simp [encode, width, rowBits]

theorem cfg16Y (z : BitVec 1) (p : BitVec 12) : Statement (.cfg16Y z p) :=
  fun _ _ _ => by simp [encode, width, rowBits]

theorem cfg16Z (z : BitVec 13) : Statement (.cfg16Z z) :=
  fun _ _ _ => by simp [encode, width, rowBits]

theorem cfg16W (z : BitVec 7) (p : BitVec 14) : Statement (.cfg16W z p) :=
  fun _ _ _ => by simp [encode, width, rowBits]

theorem cfg16Pad (x : BitVec 7) : Statement (.cfg16Pad x) :=
  fun _ _ _ => by simp [encode, width, padBits]

theorem cfg64P0 (z : BitVec 56) : Statement (.cfg64P0 z) :=
  fun _ _ _ => by simp [encode, width, rowBits]

theorem cfg64P1 (p : BitVec 56) : Statement (.cfg64P1 p) :=
  fun _ _ _ => by simp [encode, width, rowBits]

theorem cfg64P2 (z : BitVec 63) (p : BitVec 57) : Statement (.cfg64P2 z p) :=
  fun _ _ _ => by simp [encode, width, rowBits]

theorem cfg64P3 (z : BitVec 56) (p : BitVec 64) : Statement (.cfg64P3 z p) :=
  fun _ _ _ => by simp [encode, width, rowBits]

theorem cfg64P4 (z : BitVec 53) (p : BitVec 3) : Statement (.cfg64P4 z p) :=
  fun _ _ _ => by simp [encode, width, rowBits]

theorem cfg64Pad (x : BitVec 63) : Statement (.cfg64Pad x) :=
  fun _ _ _ => by simp [encode, width, padBits]

theorem cfg3N0 (z : BitVec 8) : Statement (.cfg3N0 z) :=
  fun _ _ _ => by simp [encode, width, rowBits]

theorem cfg3N1 (z : BitVec 4) (p : BitVec 4) : Statement (.cfg3N1 z p) :=
  fun _ _ _ => by simp [encode, width, rowBits]

theorem cfg3N2 (z : BitVec 3) (p : BitVec 9) : Statement (.cfg3N2 z p) :=
  fun _ _ _ => by simp [encode, width, rowBits]

theorem cfg3N3 (z : BitVec 7) (p : BitVec 1) : Statement (.cfg3N3 z p) :=
  fun _ _ _ => by simp [encode, width, rowBits]

theorem cfg3N4 (p : BitVec 20) : Statement (.cfg3N4 p) :=
  fun _ _ _ => by simp [encode, width, rowBits]

theorem cfg3Pad (x : BitVec 3) : Statement (.cfg3Pad x) :=
  fun _ _ _ => by simp [encode, width, padBits]

theorem cfgsS (p : BitVec 8) : Statement (.cfgsS p) :=
  fun _ _ _ => by simp [encode, width, rowBits]

theorem cfgsT (z : BitVec 4) (p : BitVec 4) : Statement (.cfgsT z p) :=
  fun _ _ _ => by simp [encode, width, rowBits]

theorem cfgsU (z : BitVec 4) (p : BitVec 12) : Statement (.cfgsU z p) :=
  fun _ _ _ => by simp [encode, width, rowBits]

theorem cfgsPad (x : BitVec 7) : Statement (.cfgsPad x) :=
  fun _ _ _ => by simp [encode, width, padBits]

theorem cfg1Only (p : BitVec 3) : Statement (.cfg1Only p) :=
  fun _ _ _ => by simp [encode, width, rowBits]

theorem cfg1Pad (x : BitVec 3) : Statement (.cfg1Pad x) :=
  fun _ _ _ => by simp [encode, width, padBits]

theorem bitsetEncode (v : Bits) : Statement (.bitsetEncode v) :=
  fun _ _ _ => rfl

theorem bitsetDecode (b : Bits) : Statement (.bitsetDecode b) :=
  fun _ _ _ => rfl

theorem numberEncode (t : IntType) (size : Nat) (v : Int) : Statement (.numberEncode t size v) :=
  fun _ _ _ => rfl

theorem numberDecode (t : IntType) (b : Bits) : Statement (.numberDecode t b) :=
  fun _ _ _ => rfl

theorem rangedMake (inst : String) (t : IntType) (min max v : Int) : Statement (.rangedMake inst t min max v) :=
  fun _ _ _ => rfl

theorem rangedEncode (t : IntType) (min max : Int) (size : Nat) (v : Int) : Statement (.rangedEncode t min max size v) :=
  fun _ _ _ => rfl

theorem rangedDecode (inst : String) (t : IntType) (min max : Int) (b : Bits) : Statement (.rangedDecode inst t min max b) :=
  fun _ _ _ => rfl

theorem payloadEq (e : Entry) (p q : Payload) : Statement (.payloadEq e p q) :=
  fun _ _ _ => rfl

theorem msgHeader (d : Direction) (m : Msg) : Statement (.msgHeader d m) :=
  fun _ _ _ => rfl

theorem msgWordWidth (d : Direction) (i : Nat) : Statement (.msgWordWidth d i) :=
  fun _ _ _ => rfl

theorem msgPack (d : Direction) (m : Msg) : Statement (.msgPack d m) :=
  fun _ _ _ => rfl

theorem msgUnpack (d : Direction) (raw : Bits) : Statement (.msgUnpack d raw) :=
  fun _ _ _ => rfl

theorem msgMake (d : Direction) (r : InstrRef) (p : Payload) : Statement (.msgMake d r p) :=
  fun _ _ _ => rfl

theorem msgEq (d : Direction) (m k : Msg) : Statement (.msgEq d m k) :=
  fun _ _ _ => rfl

theorem encEncode (m : Msg) : Statement (.encEncode m) :=
  fun _ _ _ => rfl

theorem encEncodeBatch (ms : List Msg) : Statement (.encEncodeBatch ms) :=
  fun _ _ _ => rfl

theorem encFlush : Statement .encFlush :=
  fun _ _ _ => rfl

theorem encReset : Statement .encReset :=
  fun _ _ _ => rfl

theorem decDecode (w : Bits) : Statement (.decDecode w) :=
  fun _ _ _ => rfl

theorem decSubword (s : Bits) : Statement (.decSubword s) :=
  fun _ _ _ => rfl

theorem decAddListener (l : Listener) : Statement (.decAddListener l) :=
  fun _ _ _ => rfl

theorem decEndOfStream : Statement .decEndOfStream :=
  fun _ _ _ => rfl

theorem decReset : Statement .decReset :=
  fun _ _ _ => rfl

end Sys2Proof.Laws.WireWidth
end

