-- ==== Sys2Proof/Laws/Step.lean ====
section
/-! SUPPORT. What an instruction, an operation of the environment and a step of the machine can do. -/

namespace Sys2Proof.Machine

/-- Everything an instruction can do when it answers a next state: answer its caller (a codec or packer operation),
change the Encoder (an Encoder operation), or feed the Decoder (a wire item or a Decoder operation). -/
theorem exec_kinds (i : Instr) (s t : State) (h : exec i s = .next t) :
    (instrOnEncoder i = false ∧ instrOnDecoder i = false ∧ ∃ r, t = s.answer r) ∨
    (instrOnEncoder i = true ∧ instrOnDecoder i = false ∧ s.enc.cfg.wf = true ∧
      ∃ e k, t = { s.encoded e with conn := { s.conn with taken := k } } ∧ (i ≠ .encReset → k = s.conn.taken) ∧
        ((∃ ms, (∀ m ∈ ms, m.wf s.enc.cfg = true) ∧ e = s.enc.encodeBatch ms) ∨ e = s.enc.flush ∨ e = s.enc.reset)) ∨
    (instrOnEncoder i = false ∧ instrOnDecoder i = true ∧ s.dec.cfg.wf = true ∧ ∃ f, t = s.fed f ∧
      ((∃ l, (∀ x ∈ l, x.length = s.dec.cfg.sw) ∧ f = s.dec.feed l) ∨ f = s.dec.endOfStream ∨
        (∃ l, i = .decAddListener l ∧ f = ⟨{ s.dec with listeners := s.dec.listeners ++ [l] }, [], none⟩) ∨
        (i = .decReset ∧ f = ⟨s.dec.reset, [], none⟩))) := by
  have hrec : ∀ b : Instr, instrOnEncoder b = false → instrOnDecoder b = true → s.receiveItem b = .next t →
      (instrOnEncoder b = false ∧ instrOnDecoder b = true ∧ s.dec.cfg.wf = true ∧ ∃ f, t = s.fed f ∧
        ((∃ l, (∀ x ∈ l, x.length = s.dec.cfg.sw) ∧ f = s.dec.feed l) ∨ f = s.dec.endOfStream ∨
          (∃ l, b = .decAddListener l ∧ f = ⟨{ s.dec with listeners := s.dec.listeners ++ [l] }, [], none⟩) ∨
          (b = .decReset ∧ f = ⟨s.dec.reset, [], none⟩))) := by
    intro b h1 h2 h
    obtain ⟨x, _, hc, _, hm, rfl⟩ := receiveItem_next.1 h
    exact ⟨h1, h2, hc, _, rfl, Or.inl ⟨_,
      bits_chunks_width _ _ _ (Nat.div_mul_cancel (Nat.dvd_of_mod_eq_zero hm)).symm, rfl⟩⟩
  have hans : ∀ (ok : Bool) r q, guarded ok r (.next (s.answer q)) = .next t → ∃ q, t = s.answer q := by
    intro ok r q h
    have := (guarded_next.1 h).2
    simp at this
    exact ⟨_, this.symm⟩
  cases i with
  | bitsetEncode v => left; simp [exec, execBitsetEncode] at h; exact ⟨rfl, rfl, _, h.symm⟩
  | bitsetDecode v => left; simp [exec, execBitsetDecode] at h; exact ⟨rfl, rfl, _, h.symm⟩
  | numberEncode => left; exact ⟨rfl, rfl, hans _ _ _ h⟩
  | numberDecode => left; exact ⟨rfl, rfl, hans _ _ _ h⟩
  | rangedMake => left; exact ⟨rfl, rfl, hans _ _ _ h⟩
  | rangedEncode => left; exact ⟨rfl, rfl, hans _ _ _ h⟩
  | rangedDecode => left; exact ⟨rfl, rfl, hans _ _ _ h⟩
  | payloadEq => left; exact ⟨rfl, rfl, hans _ _ _ h⟩
  | msgHeader => left; exact ⟨rfl, rfl, hans _ _ _ (guarded_next.1 h).2⟩
  | msgWordWidth =>
    left; have h := (guarded_next.1 h).2
    split at h <;> simp at h
    exact ⟨rfl, rfl, _, h.symm⟩
  | msgPack => left; exact ⟨rfl, rfl, hans _ _ _ (guarded_next.1 h).2⟩
  | msgUnpack =>
    left; have h := (guarded_next.1 h).2
    unfold State.unpacked at h
    split at h <;> simp at h <;> exact ⟨rfl, rfl, _, h.symm⟩
  | msgMake =>
    left; have h := (guarded_next.1 h).2
    split at h
    · split at h
      · exact ⟨rfl, rfl, hans _ _ _ h⟩
      · simp at h
    · simp at h
  | msgEq => left; exact ⟨rfl, rfl, hans _ _ _ (guarded_next.1 h).2⟩
  | encEncode m =>
    right; left
    obtain ⟨hc, hm, rfl⟩ := onEncoder_next.1 h
    exact ⟨rfl, rfl, hc, _, _, rfl, fun _ => rfl, Or.inl ⟨[m], by simpa using hm, rfl⟩⟩
  | encEncodeBatch ms =>
    right; left
    obtain ⟨hc, hm, rfl⟩ := onEncoder_next.1 h
    exact ⟨rfl, rfl, hc, _, _, rfl, fun _ => rfl, Or.inl ⟨ms, by simpa using hm, rfl⟩⟩
  | encFlush =>
    right; left
    obtain ⟨hc, hm, rfl⟩ := onEncoder_next.1 h
    exact ⟨rfl, rfl, hc, _, _, rfl, fun _ => rfl, Or.inr (Or.inl rfl)⟩
  | encReset =>
    right; left
    obtain ⟨hc, h⟩ := guarded_next.1 h
    simp at h
    exact ⟨rfl, rfl, hc, _, 0, h.symm, fun hh => absurd rfl hh, Or.inr (Or.inr rfl)⟩
  | decDecode w =>
    right; right
    obtain ⟨hc, hm, rfl⟩ := onDecoder_next.1 h
    exact ⟨rfl, rfl, hc, _, rfl, Or.inl ⟨_,
      bits_chunks_width _ _ _ (by rw [ratio_mul hc]; simpa using hm), decodeWord_eq hc w⟩⟩
  | decSubword b =>
    right; right
    obtain ⟨hc, hm, rfl⟩ := onDecoder_next.1 h
    exact ⟨rfl, rfl, hc, _, rfl, Or.inl ⟨[b], by simpa using hm, (feed_singleton _ _).symm⟩⟩
  | decAddListener l =>
    right; right
    obtain ⟨hc, hm, rfl⟩ := onDecoder_next.1 h
    exact ⟨rfl, rfl, hc, _, rfl, Or.inr (Or.inr (Or.inl ⟨l, rfl, rfl⟩))⟩
  | decEndOfStream =>
    right; right
    obtain ⟨hc, hm, rfl⟩ := onDecoder_next.1 h
    exact ⟨rfl, rfl, hc, _, rfl, Or.inr (Or.inl rfl)⟩
  | decReset =>
    right; right
    obtain ⟨hc, hm, rfl⟩ := onDecoder_next.1 h
    exact ⟨rfl, rfl, hc, _, rfl, Or.inr (Or.inr (Or.inr ⟨rfl, rfl⟩))⟩
  | _ => right; right; exact hrec _ rfl rfl h

/-- What an operation of the environment can do to the agents: only a commit touches the Encoder, only a receiving
operation takes messages from the front of the Decoder's queue. -/
def EnvFrame (s t : State) : Prop :=
  (t.enc = s.enc ∨ (s.enc.cfg.wf = true ∧ ∃ ms, (∀ m ∈ ms, m.wf s.enc.cfg = true) ∧
    t.enc = (s.enc.encodeBatch ms).flush)) ∧
  ∃ k, t.dec = { s.dec with queue := s.dec.queue.drop k }

theorem EnvFrame.same {s t : State} (h : t.enc = s.enc) (h' : t.dec = s.dec) : EnvFrame s t :=
  ⟨Or.inl h, 0, by rw [h']; rfl⟩

/-- An agent's queue kept or drained whole is dropped at its front. -/
theorem drop_of_drained {d e : Decoder} (h : e = d ∨ e = { d with queue := [] }) :
    ∃ k, e = { d with queue := d.queue.drop k } := by
  rcases h with rfl | rfl
  · exact ⟨0, rfl⟩
  · exact ⟨d.queue.length, by simp⟩

/-- What waiting for the halt message can do: the wait is recorded, or over, and a drained queue is the only change to an
agent. -/
theorem await_frame (s : State) (w : Waiting) :
    (s.await w).enc = s.enc ∧ ((s.await w).dec = s.dec ∨ (s.await w).dec = { s.dec with queue := [] }) ∧
      (s.await w).pending = s.pending ∧ (s.await w).calls = s.calls ∧ (s.await w).dbuf = s.dbuf ∧
      (s.await w).conn = { s.conn with
        haltSeen := (s.await w).conn.haltSeen, lifecycle := (s.await w).conn.lifecycle
        waiting := (s.await w).conn.waiting } ∧
      ((s.await w).conn.waiting = none ∨ (s.await w).conn.waiting = some w) ∧
      (s.conn.alive = false ∨ w.since = none → (s.await w).dec = s.dec) := by
  unfold State.await
  split
  · rename_i ha
    unfold State.halted
    cases w.since with
    | none => simp
    | some start =>
      simp
      intro h0
      simp [h0] at ha
  · split
    · simp [State.released]
    · split <;> simp [State.released]

theorem halt_wf {c : ParamSet} (h : c.wf = true) : ∀ m ∈ c.halt.toList, m.wf c = true := by
  intro m hm
  simp only [Option.mem_toList] at hm
  simp only [ParamSet.wf, Bool.and_eq_true] at h
  simpa [hm] using h.2

theorem env_frame (a : EnvOp) (s t : State) (h : execEnv a s = .next t) : EnvFrame s t := by
  cases a with
  | commit u =>
    obtain ⟨-, -, -, h⟩ := asHolder_next.1 h
    obtain ⟨h1, h⟩ := guarded_next.1 h
    obtain ⟨h2, h⟩ := guarded_next.1 h
    cases h
    exact ⟨Or.inr ⟨h1, _, by simpa using h2, rfl⟩, 0, rfl⟩
  | executeMessages u ms =>
    obtain ⟨-, -, -, h⟩ := asHolder_next.1 h
    obtain ⟨h1, h⟩ := guarded_next.1 h
    obtain ⟨h2, h⟩ := guarded_next.1 h
    cases h
    obtain ⟨f1, f2, -⟩ := await_frame (s.submitted ms) ⟨u, some s.conn.time⟩
    refine ⟨Or.inr ⟨h1, s.conn.sendQueue ++ ms ++ s.enc.cfg.halt.toList, ?_, f1⟩, drop_of_drained f2⟩
    intro m hm
    rcases List.mem_append.1 hm with hm | hm
    · exact List.all_eq_true.1 h2 m hm
    · exact halt_wf h1 m hm
  | runUntilHalt u =>
    obtain ⟨-, h⟩ := guarded_next.1 h
    cases h
    obtain ⟨f1, f2, -⟩ := await_frame s ⟨u, none⟩
    exact ⟨Or.inl f1, drop_of_drained f2⟩
  | awaitMessages u =>
    simp only [execEnv] at h
    split at h
    · rename_i v start _
      obtain ⟨-, h⟩ := guarded_next.1 h
      cases h
      obtain ⟨f1, f2, -⟩ := await_frame s ⟨v, some start⟩
      exact ⟨Or.inl f1, drop_of_drained f2⟩
    · cases h
  | receive u =>
    obtain ⟨-, -, -, h⟩ := asHolder_next.1 h
    cases h
    unfold State.receive
    split
    · exact EnvFrame.same rfl rfl
    · rename_i m q hq
      exact ⟨Or.inl rfl, 1, by rw [hq]; rfl⟩
  | tryReceive u =>
    obtain ⟨-, -, -, h⟩ := asHolder_next.1 h
    cases h
    unfold State.tryReceive
    split
    · exact EnvFrame.same rfl rfl
    · rename_i m q hq
      exact ⟨Or.inl rfl, 1, by rw [hq]; rfl⟩
  | receiveAll u =>
    obtain ⟨-, -, -, h⟩ := asHolder_next.1 h
    cases h
    exact ⟨Or.inl rfl, drop_of_drained (Or.inr rfl)⟩
  | acquireStream u =>
    cases h; unfold State.acquire; split
    · exact EnvFrame.same rfl rfl
    · split <;> exact EnvFrame.same rfl rfl
  | releaseStream u => obtain ⟨-, h⟩ := guarded_next.1 h; cases h; exact EnvFrame.same rfl rfl
  | add u ms =>
    obtain ⟨-, -, -, h⟩ := asHolder_next.1 h
    cases (guarded_next.1 (guarded_next.1 h).2).2; exact EnvFrame.same rfl rfl
  | receiveEmpty u => obtain ⟨-, -, -, h⟩ := asHolder_next.1 h; cases h; exact EnvFrame.same rfl rfl
  | getTimeInfo u => obtain ⟨-, -, -, h⟩ := asHolder_next.1 h; cases h; exact EnvFrame.same rfl rfl
  | openConnection e => cases h; unfold State.opened; split <;> exact EnvFrame.same rfl rfl
  | closeConnection e => cases h; unfold State.closed; split <;> exact EnvFrame.same rfl rfl
  | deadline => cases h; unfold State.deadline; split <;> exact EnvFrame.same rfl rfl
  | arrive | loopback | available =>
    rcases onReceiveThread_next.1 h with ⟨-, h⟩ | ⟨-, rfl⟩
    · cases h; exact EnvFrame.same rfl rfl
    · exact EnvFrame.same rfl rfl
  | fillSlot | stopWrite | decodeSlot | stopRead =>
    rcases onReceiveThread_next.1 h with ⟨-, h⟩ | ⟨-, rfl⟩
    · obtain ⟨-, h⟩ := guarded_next.1 h; cases h; exact EnvFrame.same rfl rfl
    · exact EnvFrame.same rfl rfl
  | execute | accrue | carry | notify | shutdown | destroy | startWrite | startRead => cases h; exact EnvFrame.same rfl rfl

/-- A packet that fits is put into a slot. -/
theorem setSlot_inv {b : DoubleBuffer} (hi : b.Inv) (i : SlotId) {ws : List Bits} (hw : ws.length ≤ b.capacity) :
    (b.setSlot i ws).Inv := by
  obtain ⟨i1, i2, i3, i4⟩ := hi
  cases i
  · exact ⟨i1, i2, hw, i4⟩
  · exact ⟨i1, i2, i3, hw⟩

/-- An operation of the environment keeps the double buffer's invariant. -/
theorem env_dbuf_inv (a : EnvOp) (s t : State) (h : execEnv a s = .next t) (hi : s.dbuf.Inv) : t.dbuf.Inv := by
  obtain ⟨i1, i2, i3, i4⟩ := hi
  have hi : s.dbuf.Inv := ⟨i1, i2, i3, i4⟩
  cases a with
  | fillSlot n =>
    rcases onReceiveThread_next.1 h with ⟨-, h⟩ | ⟨-, rfl⟩
    · obtain ⟨-, h⟩ := guarded_next.1 h
      cases h
      refine setSlot_inv hi _ ?_
      have : (s.dbuf.slot s.dbuf.producer).length ≤ s.dbuf.capacity := by
        cases s.dbuf.producer
        · exact i3
        · exact i4
      simp [DoubleBuffer.room]
      omega
    · exact hi
  | stopWrite =>
    rcases onReceiveThread_next.1 h with ⟨-, h⟩ | ⟨-, rfl⟩
    · obtain ⟨h1, h⟩ := guarded_next.1 h
      cases h
      simp only [decide_eq_true_eq] at h1
      refine ⟨by simp; omega, ?_, i3, i4⟩
      simp only [DoubleBuffer.stopWrite_count, DoubleBuffer.stopWrite_producer, DoubleBuffer.stopWrite_consumer]
      cases hp : s.dbuf.producer <;> cases hq : s.dbuf.consumer <;> simp [hp, hq] at i2 <;> simp [SlotId.other] <;> omega
    · exact hi
  | decodeSlot =>
    rcases onReceiveThread_next.1 h with ⟨-, h⟩ | ⟨-, rfl⟩
    · obtain ⟨-, h⟩ := guarded_next.1 h
      cases h
      exact setSlot_inv hi _ (by simp)
    · exact hi
  | stopRead =>
    rcases onReceiveThread_next.1 h with ⟨-, h⟩ | ⟨-, rfl⟩
    · obtain ⟨h1, h⟩ := guarded_next.1 h
      cases h
      simp only [Bool.and_eq_true, decide_eq_true_eq] at h1
      refine ⟨by simp; omega, ?_, i3, i4⟩
      simp only [DoubleBuffer.stopRead_count, DoubleBuffer.stopRead_producer, DoubleBuffer.stopRead_consumer]
      cases hp : s.dbuf.producer <;> cases hq : s.dbuf.consumer <;> simp [hp, hq] at i2 <;> simp [SlotId.other] <;> omega
    · exact hi
  | commit u =>
    obtain ⟨-, -, -, h⟩ := asHolder_next.1 h
    cases (guarded_next.1 (guarded_next.1 h).2).2; exact hi
  | executeMessages u ms =>
    obtain ⟨-, -, -, h⟩ := asHolder_next.1 h
    cases (guarded_next.1 (guarded_next.1 h).2).2
    rw [(await_frame _ _).2.2.2.2.1]; exact hi
  | runUntilHalt u =>
    obtain ⟨-, h⟩ := guarded_next.1 h
    cases h; rw [(await_frame _ _).2.2.2.2.1]; exact hi
  | awaitMessages u =>
    simp only [execEnv] at h
    split at h
    · obtain ⟨-, h⟩ := guarded_next.1 h
      cases h; rw [(await_frame _ _).2.2.2.2.1]; exact hi
    · cases h
  | receive u =>
    obtain ⟨-, -, -, h⟩ := asHolder_next.1 h
    cases h; unfold State.receive; split <;> exact hi
  | tryReceive u =>
    obtain ⟨-, -, -, h⟩ := asHolder_next.1 h
    cases h; unfold State.tryReceive; split <;> exact hi
  | receiveAll | receiveEmpty | getTimeInfo => obtain ⟨-, -, -, h⟩ := asHolder_next.1 h; cases h; exact hi
  | acquireStream u =>
    cases h; unfold State.acquire; split
    · exact hi
    · split <;> exact hi
  | releaseStream u => obtain ⟨-, h⟩ := guarded_next.1 h; cases h; exact hi
  | add u ms =>
    obtain ⟨-, -, -, h⟩ := asHolder_next.1 h
    cases (guarded_next.1 (guarded_next.1 h).2).2; exact hi
  | openConnection e => cases h; unfold State.opened; split <;> exact hi
  | closeConnection e => cases h; unfold State.closed; split <;> exact hi
  | deadline => cases h; unfold State.deadline; split <;> exact hi
  | arrive | loopback | available =>
    rcases onReceiveThread_next.1 h with ⟨-, h⟩ | ⟨-, rfl⟩
    · cases h; exact hi
    · exact hi
  | execute | accrue | carry | notify | shutdown | destroy | startWrite | startRead => cases h; exact hi

/-- A wait that is recorded is its caller's, who holds the Stream guard, and the destructor leaves no receive thread. -/
theorem callers_of {s t : State} (hi : s.CallersInv) (hs : t.conn.stream = s.conn.stream)
    (hw : t.conn.waiting = none ∨ t.conn.waiting = s.conn.waiting ∨
      ∃ w, t.conn.waiting = some w ∧ s.conn.stream = some w.caller)
    (hp : s.conn.alive = true ∧ t.conn.alive = true ∨ t.conn.alive = s.conn.alive ∧ t.pending = s.pending) :
    t.CallersInv := by
  refine ⟨fun w h => ?_, fun h => ?_⟩
  · rw [hs]
    rcases hw with hw | hw | ⟨w', hw, hc⟩
    · rw [hw] at h; cases h
    · exact hi.1 w (hw ▸ h)
    · rw [hw] at h; cases h; exact hc
  · rcases hp with ⟨-, hp⟩ | ⟨ha, hp⟩
    · rw [hp] at h; cases h
    · unfold State.NoReceiveThread; rw [hp]; exact hi.2 (ha ▸ h)

theorem destroyed_callers {s : State} (hi : s.CallersInv) : s.destroyed.CallersInv :=
  ⟨hi.1, fun _ c hc => by simpa using (List.mem_filter.1 hc).2⟩

/-- Waiting by the holder of the Stream guard keeps the callers' invariant. -/
theorem await_callers {s : State} {w : Waiting} (hi : s.CallersInv) (hw : s.conn.stream = some w.caller) :
    (s.await w).CallersInv := by
  obtain ⟨-, -, hp, -, -, hc, hwt, -⟩ := await_frame s w
  refine callers_of hi (by rw [hc]) ?_ (Or.inr ⟨by rw [hc], hp⟩)
  rcases hwt with h | h
  · exact Or.inl h
  · exact Or.inr (Or.inr ⟨w, h, hw⟩)

/-- An operation of the environment keeps the callers' invariant. -/
theorem env_callers (a : EnvOp) (s t : State) (h : execEnv a s = .next t) (hi : s.CallersInv) : t.CallersInv := by
  have keep : ∀ {t : State}, t.conn.stream = s.conn.stream → t.conn.waiting = s.conn.waiting →
      t.conn.alive = s.conn.alive → t.pending = s.pending → t.CallersInv :=
    fun h1 h2 h3 h4 => callers_of hi h1 (Or.inr (Or.inl h2)) (Or.inr ⟨h3, h4⟩)
  cases a with
  | acquireStream u =>
    cases h; unfold State.acquire; split
    · rename_i hc
      simp only [Bool.and_eq_true, Option.isNone_iff_eq_none] at hc
      refine ⟨fun w hw => ?_, fun h => hi.2 h⟩
      have := hi.1 w hw
      rw [hc.2] at this; cases this
    · split <;> exact keep rfl rfl rfl rfl
  | releaseStream u =>
    obtain ⟨hc, h⟩ := guarded_next.1 h
    cases h
    simp only [Bool.and_eq_true, Option.isNone_iff_eq_none] at hc
    exact ⟨fun w hw => by simp [hc.2] at hw, fun h => hi.2 h⟩
  | runUntilHalt u =>
    obtain ⟨hc, h⟩ := guarded_next.1 h
    cases h
    simp only [Bool.and_eq_true, decide_eq_true_eq] at hc
    exact await_callers hi hc.1
  | executeMessages u ms =>
    obtain ⟨-, hs, -, h⟩ := asHolder_next.1 h
    cases (guarded_next.1 (guarded_next.1 h).2).2
    exact await_callers (s := s.submitted ms) (keep rfl rfl rfl rfl) hs
  | awaitMessages u =>
    simp only [execEnv] at h
    split at h
    · rename_i v start hw
      obtain ⟨-, h⟩ := guarded_next.1 h
      cases h; exact await_callers hi (hi.1 _ hw)
    · cases h
  | commit u =>
    obtain ⟨-, -, -, h⟩ := asHolder_next.1 h
    cases (guarded_next.1 (guarded_next.1 h).2).2; exact keep rfl rfl rfl rfl
  | receive u =>
    obtain ⟨-, -, -, h⟩ := asHolder_next.1 h
    cases h; unfold State.receive; split <;> exact keep rfl rfl rfl rfl
  | tryReceive u =>
    obtain ⟨-, -, -, h⟩ := asHolder_next.1 h
    cases h; unfold State.tryReceive; split <;> exact keep rfl rfl rfl rfl
  | receiveAll | receiveEmpty | getTimeInfo =>
    obtain ⟨-, -, -, h⟩ := asHolder_next.1 h; cases h; exact keep rfl rfl rfl rfl
  | add u ms =>
    obtain ⟨-, -, -, h⟩ := asHolder_next.1 h
    cases (guarded_next.1 (guarded_next.1 h).2).2; exact keep rfl rfl rfl rfl
  | openConnection e => cases h; unfold State.opened; split <;> exact keep rfl rfl rfl rfl
  | closeConnection e =>
    cases h; unfold State.closed; split
    · exact destroyed_callers hi
    · exact keep rfl rfl rfl rfl
  | destroy => cases h; exact destroyed_callers hi
  | deadline =>
    cases h; unfold State.deadline; split
    · exact callers_of hi rfl (Or.inl rfl) (Or.inr ⟨rfl, rfl⟩)
    · exact keep rfl rfl rfl rfl
  | decodeSlot =>
    rcases onReceiveThread_next.1 h with ⟨ha, h⟩ | ⟨-, rfl⟩
    · obtain ⟨-, h⟩ := guarded_next.1 h
      cases h; exact callers_of hi rfl (Or.inr (Or.inl rfl)) (Or.inl ⟨ha, ha⟩)
    · exact keep rfl rfl rfl rfl
  | arrive | loopback | available =>
    rcases onReceiveThread_next.1 h with ⟨-, h⟩ | ⟨-, rfl⟩
    · cases h; exact keep rfl rfl rfl rfl
    · exact keep rfl rfl rfl rfl
  | fillSlot | stopWrite | stopRead =>
    rcases onReceiveThread_next.1 h with ⟨-, h⟩ | ⟨-, rfl⟩
    · obtain ⟨-, h⟩ := guarded_next.1 h; cases h; exact keep rfl rfl rfl rfl
    · exact keep rfl rfl rfl rfl
  | execute | accrue | carry | notify | shutdown | startWrite | startRead => cases h; exact keep rfl rfl rfl rfl

/-- With nothing pending a step that answers a next state leaves the state as it is (R263). -/
theorem idle_next (s t : State) (h : s.idle = .next t) : t = s := by
  unfold State.idle at h
  split at h
  · cases h
  · cases h
  · split at h
    · cases h
    · split at h
      · cases h
      · cases h; rfl

/-- No wire item is `DEC.reset`. -/
theorem decode_ne_reset {c : ParamSet} {b b' : Bits} {i : Instr} (h : decode c b = .ok (i, b')) : i ≠ .decReset := by
  unfold decode decodeRow at h
  split at h
  · cases h
  split at h
  · cases h
  split at h
  · cases h; unfold padRow; split <;> nofun
  split at h
  · cases h
  split at h
  · cases h; nofun
  split at h
  · cases h
  · cases h; unfold msgRow; split <;> nofun

/-- What is fetched stands at the front of the pending commands, and what stood after it stays pending, with the bits of a
wire command that are left. -/
theorem fetch_kinds (s : State) :
    match s.fetch with
    | .nothing => s.pending = []
    | .skip t => ∃ r, s.pending = .wire [] :: r ∧ t = { s with pending := r, ret := .done }
    | .run i t => ∃ r, t = { s with pending := r } ∧
        (s.pending = .op i :: r ∨
          ∃ b b' rest, s.pending = .wire b :: rest ∧ r = putBack b' rest ∧ i ≠ .decReset)
    | .act a t => ∃ r, t = { s with pending := r } ∧ s.pending = .env a :: r
    | .bad _ => True := by
  unfold State.fetch
  cases hp : s.pending with
  | nil => simp
  | cons c rest =>
    cases c with
    | op i => exact ⟨rest, rfl, Or.inl rfl⟩
    | env a => exact ⟨rest, rfl, rfl⟩
    | wire b =>
      simp only
      cases hd : decode s.dec.cfg b with
      | ok x => exact ⟨_, rfl, Or.inr ⟨b, _, rest, rfl, rfl, decode_ne_reset hd⟩⟩
      | error e =>
        cases e with
        | illFormedParameters => trivial
        | incompleteItem =>
          by_cases hb : b = []
          · simp only [if_pos hb]
            exact ⟨rest, by rw [hb], rfl⟩
          · by_cases hl : b.length < s.dec.cfg.sw
            · simp only [if_neg hb, if_pos hl]
            · simp only [if_neg hb, if_neg hl]
              exact ⟨_, rfl, Or.inr ⟨b, _, rest, rfl, rfl, by simp⟩⟩

/-- What a step that answers a next state performs: nothing, the end of a stream of no bits, an instruction, or an
operation of the environment. -/
theorem step_kinds (s t : State) (h : step s = .next t) :
    t = s ∨ (∃ r, s.pending = .wire [] :: r ∧ t = { s with pending := r, ret := .done }) ∨
    (∃ i r, exec i { s with pending := r } = .next t ∧
      (s.pending = .op i :: r ∨
        ∃ b b' rest, s.pending = .wire b :: rest ∧ r = putBack b' rest ∧ i ≠ .decReset)) ∨
    ∃ a r, execEnv a { s with pending := r } = .next t ∧ s.pending = .env a :: r := by
  have hk := fetch_kinds s
  unfold step at h
  cases hf : s.fetch with
  | nothing => rw [hf] at h; exact Or.inl (idle_next s t h)
  | skip u =>
    rw [hf] at h hk
    obtain ⟨r, hr, rfl⟩ := hk
    cases h
    exact Or.inr (Or.inl ⟨r, hr, rfl⟩)
  | run i u =>
    rw [hf] at h hk
    obtain ⟨r, rfl, hr⟩ := hk
    exact Or.inr (Or.inr (Or.inl ⟨i, r, h, hr⟩))
  | act a u =>
    rw [hf] at h hk
    obtain ⟨r, rfl, hr⟩ := hk
    exact Or.inr (Or.inr (Or.inr ⟨a, r, h, hr⟩))
  | bad r => rw [hf] at h; cases h

end Sys2Proof.Machine
end

