-- ==== Sys2Proof/Laws/Wire.lean ====
section
/-! SUPPORT. What the decoder of the wire format reads (30_encoding.md). -/

namespace Sys2Proof

/-- A set that is a named one is that set, but for the halt message the environment designates. -/
theorem setName_eq {c : ParamSet} {n : SetName} (h : setName? c = some n) : c = { n.params with halt := c.halt } := by
  have := List.find?_some h
  simp at this
  rw [this]

section
variable {c : ParamSet} (hc : c.wf = true) (n : Option SetName)
include hc

/-- A padding sub-word (R90), and whatever follows it. -/
theorem decodeRow_pad (x rest : Bits) (hx : x.length + 1 = c.sw) :
    decodeRow n c ((true :: x) ++ rest) = .ok (padRow n x, rest) := by
  have hl : ¬ ((true :: x) ++ rest).length < c.sw := by simp; omega
  have ht : ((true :: x) ++ rest).take c.sw = true :: x := by
    rw [List.take_append_of_le_length (by simp; omega), List.take_of_length_le (by simp; omega)]
  have hd : ((true :: x) ++ rest).drop c.sw = rest := by
    rw [← hx, show x.length + 1 = (true :: x).length from rfl, List.drop_left]
  rw [decodeRow, if_neg (by simp [hc]), if_neg hl, if_pos (by simp [Bits.top]), ht, hd]
  rfl

/-- A message of the dictionary (R86), and whatever follows it. -/
theorem decodeRow_msg (i : Nat) (z p rest : Bits) (e : Entry) (he : c.dict[i]? = some e) (hp : p.length = e.size)
    (hz : z.length = c.ww e - c.hw - e.size) :
    decodeRow n c ((c.header i ++ (z ++ p)) ++ rest) = .ok (msgRow n i z p, rest) := by
  have hlt := index_lt_n he
  have hf := field_le_ww hc e
  have hpos := hw_pos hc
  have hhl : (c.header i).length = c.hw := by simp [ParamSet.header]
  have hl : (c.header i ++ (z ++ p)).length = c.ww e := by simp [hhl, hp, hz]; omega
  have h1 := headerSubwords_le_ww hc e
  have hsw : c.sw ≤ c.ww e := Nat.le_of_dvd (by omega) (sw_dvd_ww hc e)
  have hlr : ((c.header i ++ (z ++ p)) ++ rest).length = c.ww e + rest.length := by rw [List.length_append, hl]
  have htop : Bits.top ((c.header i ++ (z ++ p)) ++ rest) = false := by
    have hne : c.header i ≠ [] := by intro h0; rw [h0] at hhl; simp at hhl; omega
    rw [List.append_assoc, Machine.top_append _ _ hne]
    exact header_top hc i (hlt.trans_le (n_le_pow hc))
  have hh : Bits.toNat (((c.header i ++ (z ++ p)) ++ rest).take c.hw) = i := by
    rw [List.append_assoc, List.take_append_of_le_length hhl.ge, List.take_of_length_le hhl.le, header_toNat hc i hlt]
  rw [decodeRow, if_neg (by simp [hc]), if_neg (by omega), if_neg (by rw [htop]; simp), if_neg (by omega), hh, he]
  simp only
  rw [if_neg (by omega)]
  have h3 : ((c.header i ++ (z ++ p)) ++ rest).take (c.ww e) = c.header i ++ (z ++ p) := by
    rw [← hl]; exact List.take_left
  have h4 : ((c.header i ++ (z ++ p)) ++ rest).drop (c.ww e) = rest := by
    rw [← hl]; exact List.drop_left
  have h5 : ((c.header i ++ (z ++ p)) ++ rest).take (c.ww e - e.size) = c.header i ++ z := by
    have : c.ww e - e.size = (c.header i ++ z).length := by simp [hhl, hz]; omega
    rw [this, List.append_assoc, List.append_assoc, ← List.append_assoc (c.header i)]; exact List.take_left
  have h6 : (c.header i ++ (z ++ p)).drop (c.ww e - e.size) = p := by
    have : c.ww e - e.size = (c.header i ++ z).length := by simp [hhl, hz]; omega
    rw [this, ← List.append_assoc]; exact List.drop_left
  have h7 : (c.header i ++ z).drop c.hw = z := by rw [← hhl]; exact List.drop_left
  rw [h3, h4, h5, h6, h7]

/-- A header that is no instruction's (R93), and whatever follows it. -/
theorem decodeRow_illegal (h : Nat) (t rest : Bits) (hN : c.n ≤ h) (hlt : h < 2 ^ (c.hw - 1))
    (ht : t.length + c.hw = roundUp c.hw c.sw) :
    decodeRow n c ((Bits.ofNat c.hw h ++ t) ++ rest) = .ok (.illegalHeader h t, rest) := by
  have hpos := hw_pos hc
  have hsw := wf_sw hc
  have hhl : (Bits.ofNat c.hw h).length = c.hw := by simp
  have hl : (Bits.ofNat c.hw h ++ t).length = roundUp c.hw c.sw := by simp; omega
  have hge : c.sw ≤ roundUp c.hw c.sw :=
    Nat.le_of_dvd (by have := roundUp_ge c.hw c.sw hsw; omega) (roundUp_dvd _ _)
  have hlr : ((Bits.ofNat c.hw h ++ t) ++ rest).length = roundUp c.hw c.sw + rest.length := by rw [List.length_append, hl]
  have htop : Bits.top ((Bits.ofNat c.hw h ++ t) ++ rest) = false := by
    have hne : Bits.ofNat c.hw h ≠ [] := by intro h0; rw [h0] at hhl; simp at hhl; omega
    rw [List.append_assoc, Machine.top_append _ _ hne]
    exact header_top hc h hlt
  have hh : Bits.toNat (((Bits.ofNat c.hw h ++ t) ++ rest).take c.hw) = h := by
    rw [List.append_assoc, List.take_append_of_le_length hhl.ge, List.take_of_length_le hhl.le, bits_toNat_ofNat]
    exact Nat.mod_eq_of_lt (by rw [pow_hw hc]; omega)
  rw [decodeRow, if_neg (by simp [hc]), if_neg (by omega), if_neg (by rw [htop]; simp), if_neg (by omega), hh,
    List.getElem?_eq_none hN]
  simp only
  have h3 : ((Bits.ofNat c.hw h ++ t) ++ rest).take (roundUp c.hw c.sw) = Bits.ofNat c.hw h ++ t := by
    rw [← hl]; exact List.take_left
  have h4 : ((Bits.ofNat c.hw h ++ t) ++ rest).drop (roundUp c.hw c.sw) = rest := by rw [← hl]; exact List.drop_left
  have h5 : (Bits.ofNat c.hw h ++ t).drop c.hw = t := by
    conv_lhs => rw [← hhl]
    simp
  rw [h3, h4, h5]
end

end Sys2Proof
end

