-- ==== Sys2Proof/Tests/Slice0.lean ====
section
/-! SUPPORT. Tests of the model. Expected results are the spec's vectors (95_test_vectors.md) and its encodings
(opcode_table.json), or counted by hand from its rules; and a witness for the hypotheses of every statement. -/

namespace Sys2Proof.Tests

open Sys2Proof.Machine

/-! ### Helpers -/

/-- `n` as a vector of `w` bits. -/
abbrev B (w n : Nat) : Bits := Bits.ofNat w n

/-- Reset with the parameter set `c` in both directions. -/
def on (c : ParamSet) : State := State.resetWith c c

/-- The same with the bits `x` in the Encoder. -/
def encWith (c : ParamSet) (x : Bits) : State :=
  { on c with enc := { Encoder.fresh c with buf := Bits.zext c.encCap x, fill := x.length } }

/-- The same with the bits `x` in the Decoder. -/
def decWith (c : ParamSet) (x : Bits) : State := { on c with dec := (Decoder.fresh c).holding x }

/-- The same with a latched fault on the bits `x`. -/
def faulted (c : ParamSet) (x : Bits) (f : BlockFault) : State := (on c).faulted x f

/-- A field of the next state, where there is one. -/
def seen {α : Type} (o : Out) (f : State → α) : Option α :=
  match o with
  | .next t => some (f t)
  | _ => none

/-- What the caller is told. -/
def told (o : Out) : Option Ret := seen o State.ret

/-- The fault the machine stops with, where there is one. -/
def stopped (o : Out) : Option Fault :=
  match o with
  | .fault f => some f
  | _ => none

/-- The refusal, where there is one. -/
def refusal (o : Out) : Option Refusal :=
  match o with
  | .refused r => some r
  | _ => none

/-- A message with a bitset payload. -/
def M (i w n : Nat) : Msg := ⟨i, .bits (B w n)⟩

def u8 : IntType := ⟨8, .unsigned⟩

/-! ### Ill-formed terms are refused, one for each check -/

theorem test_illformed_ha : ParamSet.wf { ref8 with ha := 0 } = false := by decide
theorem test_illformed_sw : ParamSet.wf { ref8 with sw := 0 } = false := by decide
theorem test_illformed_pw : ParamSet.wf { ref8 with pw := 0 } = false := by decide
theorem test_illformed_ratio : ParamSet.wf { ref8 with pw := 12 } = false := by decide
theorem test_illformed_empty : ParamSet.wf { ref8 with dict := [] } = false := by decide
theorem test_illformed_names : ParamSet.wf { ref8 with dict := [.raw "A" 0, .raw "A" 8] } = false := by decide
theorem test_illformed_type : ParamSet.wf { ref8 with dict := [⟨"A", 8, .number ⟨0, .unsigned⟩⟩] } = false := by decide
theorem test_illformed_bounds : ParamSet.wf { ref8 with dict := [⟨"A", 8, .ranged u8 6 5⟩] } = false := by decide
theorem test_illformed_bound_type : ParamSet.wf { ref8 with dict := [⟨"A", 8, .ranged u8 0 256⟩] } = false := by decide
theorem test_illformed_halt : ParamSet.wf { ref8 with halt := some (M 2 8 0) } = false := by decide
theorem test_illformed_set : WellFormed ref8 { ref8 with sw := 0 } .encFlush = false := by decide
theorem test_illformed_msg_index : WellFormed ref8 ref8 (.msg 2 [] (B 8 0)) = false := by decide
theorem test_illformed_msg_payload : WellFormed ref8 ref8 (.msg 1 [] (B 7 0)) = false := by decide
theorem test_illformed_msg_padding : WellFormed ref8 ref8 (.msg 1 (B 1 0) (B 8 0)) = false := by decide
theorem test_illformed_pad : WellFormed ref8 ref8 (.pad (B 8 0)) = false := by decide
theorem test_illformed_header_known : WellFormed ref8 ref8 (.illegalHeader 1 []) = false := by decide
theorem test_illformed_header_top : WellFormed ref8 ref8 (.illegalHeader 128 []) = false := by decide
theorem test_illformed_header_bits : WellFormed ref8 ref8 (.illegalHeader 2 (B 1 0)) = false := by decide
theorem test_illformed_number : WellFormed ref8 ref8 (.numberEncode u8 8 256) = false := by decide
theorem test_illformed_number_type : WellFormed ref8 ref8 (.numberDecode ⟨0, .signed⟩ []) = false := by decide
theorem test_illformed_make : WellFormed ref8 ref8 (.rangedMake "P4" u8 0 5 256) = false := by decide
theorem test_illformed_ranged : WellFormed ref8 ref8 (.rangedEncode u8 0 5 3 6) = false := by decide
theorem test_illformed_ranged_bounds : WellFormed ref8 ref8 (.rangedDecode "P4" u8 5 0 []) = false := by decide
theorem test_illformed_eq : WellFormed ref8 ref8 (.payloadEq (.raw "B" 8) (.bits (B 8 0)) (.int 0)) = false := by decide
theorem test_illformed_header_msg : WellFormed ref8 ref8 (.msgHeader .toDevice (M 2 8 0)) = false := by decide
theorem test_illformed_index : WellFormed ref8 ref8 (.msgWordWidth .toDevice 2) = false := by decide
theorem test_illformed_pack : WellFormed ref8 ref8 (.msgPack .toDevice (M 1 7 0)) = false := by decide
theorem test_illformed_unpack : WellFormed ref8 ref8 (.msgUnpack .fromDevice (B 8 1)) = false := by decide
theorem test_illformed_name : WellFormed ref8 ref8 (.msgMake .toDevice (.name "C") (.bits [])) = false := by decide
theorem test_illformed_make_type : WellFormed ref8 ref8 (.msgMake .toDevice (.name "B") (.int 0)) = false := by decide
theorem test_illformed_msg_eq : WellFormed ref8 ref8 (.msgEq .toDevice (M 1 8 0) (M 2 8 0)) = false := by decide
theorem test_illformed_encode : WellFormed ref8 ref8 (.encEncode (M 2 8 0)) = false := by decide
theorem test_illformed_batch : WellFormed ref8 ref8 (.encEncodeBatch [M 1 8 0, M 1 7 0]) = false := by decide
theorem test_illformed_word : WellFormed ref8 cfg16 (.decDecode (B 8 0)) = false := by decide
theorem test_illformed_subword : WellFormed ref8 cfg16 (.decSubword (B 16 0)) = false := by decide
theorem test_refused_set : refusal (exec .encFlush (on { ref8 with sw := 0 })) = some .illFormedParameters := by decide
theorem test_refused_word : refusal (exec (.decDecode (B 8 0)) (on cfg16)) = some .wrongWidth := by decide
theorem test_refused_message : refusal (exec (.encEncode (M 2 8 0)) (on ref8)) = some .illFormedMessage := by decide
theorem test_refused_operand : refusal (exec (.numberEncode u8 8 256) (on ref8)) = some .illFormedOperand := by decide

/-! ### Decoding: every wire row's word, written out from its encoding -/

theorem test_decode_ref8A : decode ref8 (B 8 0b00000000) = .ok (.ref8A, []) := by decide
theorem test_decode_ref8B : decode ref8 (B 16 0b0000000110100101) = .ok (.ref8B 0b10100101, []) := by decide
theorem test_decode_ref8Pad : decode ref8 (B 8 0b10100110) = .ok (.ref8Pad 0b0100110, []) := by decide
theorem test_decode_cfg16X : decode cfg16 (B 16 0b0001010101010110) = .ok (.cfg16X 0b1010101010 0b110, []) := by decide
theorem test_decode_cfg16Y : decode cfg16 (B 16 0b0011111111111110) = .ok (.cfg16Y 1 0b111111111110, []) := by decide
theorem test_decode_cfg16Z : decode cfg16 (B 16 0b0101000000000001) = .ok (.cfg16Z 0b1000000000001, []) := by decide
theorem test_decode_cfg16W :
    decode cfg16 (B 24 0b011100000110101010111100) = .ok (.cfg16W 0b1000001 0b10101010111100, []) := by decide
theorem test_decode_cfg16Pad : decode cfg16 (B 8 0b11000001) = .ok (.cfg16Pad 0b1000001, []) := by decide
theorem test_decode_cfg64P0 : decode cfg64 (B 64 0x0080000000000001) = .ok (.cfg64P0 0x80000000000001, []) := by decide
theorem test_decode_cfg64P1 : decode cfg64 (B 64 0x0180000000000001) = .ok (.cfg64P1 0x80000000000001, []) := by decide
theorem test_decode_cfg64P2 : decode cfg64 (B 128 0x02800000000000010300000000000001) =
    .ok (.cfg64P2 0x4000000000000081 0x100000000000001, []) := by decide +kernel
theorem test_decode_cfg64P3 : decode cfg64 (B 128 0x0380000000000001FFFFFFFFFFFFFFFE) =
    .ok (.cfg64P3 0x80000000000001 0xFFFFFFFFFFFFFFFE, []) := by decide +kernel
theorem test_decode_cfg64P4 : decode cfg64 (B 64 0x04000000000000FD) = .ok (.cfg64P4 0b11111 0b101, []) := by decide
theorem test_decode_cfg64Pad : decode cfg64 (B 64 0x8000000000000003) = .ok (.cfg64Pad 3, []) := by decide
theorem test_decode_cfg3N0 : decode cfg3 (B 12 0b000010000001) = .ok (.cfg3N0 0b10000001, []) := by decide
theorem test_decode_cfg3N1 : decode cfg3 (B 12 0b000101101001) = .ok (.cfg3N1 0b0110 0b1001, []) := by decide
theorem test_decode_cfg3N2 : decode cfg3 (B 16 0b0010101100000001) = .ok (.cfg3N2 0b101 0b100000001, []) := by decide
theorem test_decode_cfg3N3 : decode cfg3 (B 12 0b001110000010) = .ok (.cfg3N3 0b1000001 0, []) := by decide
theorem test_decode_cfg3N4 : decode cfg3 (B 24 0x4ABCDE) = .ok (.cfg3N4 0xABCDE, []) := by decide
theorem test_decode_cfg3Pad : decode cfg3 (B 4 0b1110) = .ok (.cfg3Pad 0b110, []) := by decide
theorem test_decode_cfgsS : decode cfgs (B 16 0b0000000010000001) = .ok (.cfgsS 0b10000001, []) := by decide
theorem test_decode_cfgsT : decode cfgs (B 16 0b0000000101101001) = .ok (.cfgsT 0b0110 0b1001, []) := by decide
theorem test_decode_cfgsU : decode cfgs (B 24 0b000000100110100000000001) = .ok (.cfgsU 0b0110 0b100000000001, []) := by
  decide
theorem test_decode_cfgsPad : decode cfgs (B 8 0b10000001) = .ok (.cfgsPad 1, []) := by decide
theorem test_decode_cfg1Only : decode cfg1 (B 4 0b0110) = .ok (.cfg1Only 0b110, []) := by decide
theorem test_decode_cfg1Pad : decode cfg1 (B 4 0b1011) = .ok (.cfg1Pad 0b011, []) := by decide

/-- A parameter set without rows of its own: two bitset entries, header of two sub-words. -/
def own : ParamSet := ⟨8, 4, 8, [.raw "Q0" 0, .raw "Q1" 5], none⟩

theorem test_decode_msg : decode own (B 16 0b0000000101010001) = .ok (.msg 1 (B 3 0b010) (B 5 0b10001), []) := by decide
theorem test_decode_pad : decode own (B 4 0b1010) = .ok (.pad (B 3 0b010), []) := by decide
theorem test_decode_illegalHeader : decode own (B 8 0b01111111) = .ok (.illegalHeader 127 [], []) := by decide
/-- `CFG16` has `HW` 3 and `SW` 8; its four header values are all instructions, so this set has five of them. -/
theorem test_decode_illegalHeader_bits :
    decode { own with ha := 3, dict := [.raw "Q0" 0] } (B 4 0b0101) = .ok (.illegalHeader 2 (B 1 1), []) := by decide

theorem test_decode_rest : decode ref8 (B 24 0x014280) = .ok (.ref8B 0x42, B 8 0x80) := by decide
theorem test_decode_short : decode cfg16 (B 16 0x602A) = .error .incompleteItem := by decide
theorem test_decode_short_subword : decode cfg16 (B 7 0) = .error .incompleteItem := by decide
theorem test_decode_short_header : decode own (B 4 0) = .error .incompleteItem := by decide
theorem test_decode_no_set : decode { ref8 with sw := 0 } (B 8 0) = .error .illFormedParameters := by decide

theorem test_tableWord_ref8A : decodeTableWord 8 0 = some .ref8A := by decide
theorem test_tableWord_cfg16W : decodeTableWord 24 0x602ABC = some (.cfg16W 0 0x2ABC) := by decide
theorem test_tableWord_overlap : decodeTableWord 16 0x010F = some (.ref8B 0x0F) := by decide
theorem test_tableWord_overlap_cfg3 : decodeTableWord 16 0x2155 = some (.cfg16Y 0 0x155) := by decide
theorem test_tableWord_cfgsU : decodeTableWord 24 0x020ABC = some (.cfgsU 0 0xABC) := by decide
theorem test_fetchWord_ref8B :
    seen (step (State.reset.withFetchWord 16 0x0142)) (fun t => t.dec.queue) = some [M 1 8 0x42] := by decide
theorem test_fetchWord_cfg3N4 :
    seen (step (State.reset.withFetchWord 24 0x4ABCDE)) (fun t => t.dec.queue) = some [M 4 20 0xABCDE] := by decide

/-! ### Payload codecs (V8, V9, V10) -/

theorem test_bitset : told (exec (.bitsetEncode (B 8 0x42)) State.reset) = some (.bits (B 8 0x42)) := by decide
theorem test_bitset_decode : told (exec (.bitsetDecode (B 8 0xFF)) State.reset) = some (.bits (B 8 0xFF)) := by decide
theorem test_bitset_empty : told (exec (.bitsetEncode []) State.reset) = some (.bits []) := by decide
theorem test_number_minus_one_wide :
    told (exec (.numberEncode int8 12 (-1)) State.reset) = some (.bits (B 12 0x0FF)) := by
  decide
theorem test_number_truncated :
    told (exec (.numberEncode ⟨16, .unsigned⟩ 8 0x1FF) State.reset) = some (.bits (B 8 0xFF)) := by
  decide
theorem test_number_decode_signed :
    told (exec (.numberDecode int8 (B 8 0x80)) State.reset) = some (.int (-128)) := by decide
theorem test_number_decode_short : told (exec (.numberDecode int8 (B 4 0xF)) State.reset) = some (.int 15) := by decide
theorem test_ranged_make : told (exec (.rangedMake "P4" u8 0 5 5) State.reset) = some (.int 5) := by decide
theorem test_ranged_make_out : told (exec (.rangedMake "P4" u8 0 5 6) State.reset) =
    some (.raised (.fault (.payloadOutOfRange "P4" 6))) := by decide
theorem test_ranged_encode : told (exec (.rangedEncode u8 0 5 3 5) State.reset) = some (.bits (B 3 0b101)) := by decide
theorem test_ranged_decode :
    told (exec (.rangedDecode "P4" u8 0 5 (B 3 0b101)) State.reset) = some (.int 5) := by decide
theorem test_ranged_decode_out : told (exec (.rangedDecode "P4" u8 0 5 (B 3 0b111)) State.reset) =
    some (.raised (.fault (.payloadOutOfRange "P4" 7))) := by decide
theorem test_payload_eq : told (exec (.payloadEq (.raw "B" 8) (.bits (B 8 1)) (.bits (B 8 2))) State.reset) =
    some (.bool false) := by decide

/-! ### Message packer (V6, V7, V11, V12) -/

/-- A parameter set by its alignment, widths and number of empty entries. -/
def sized (ha sw pw n : Nat) : ParamSet :=
  ⟨ha, sw, pw, (List.range n).map (fun k => .raw ("E" ++ toString k) 0), none⟩

theorem test_header_widths : (sized 1 1 1 1).hw = 1 ∧ (sized 8 1 1 128).hw = 8 ∧ (sized 8 1 1 129).hw = 16 ∧
    (sized 1 1 1 129).hw = 9 ∧ (sized 4 1 1 257).hw = 12 := by decide +kernel
theorem test_word_widths : (sized 8 64 64 2).ww (.raw "E" 56) = 64 ∧ (sized 8 64 64 2).ww (.raw "E" 57) = 128 ∧
    (sized 8 64 64 2).ww (.raw "E" 121) = 192 ∧ (sized 8 8 64 2).ww (.raw "E" 57) = 72 ∧
    (sized 8 16 32 2).ww (.raw "E" 25) = 48 := by decide
theorem test_capacities : cfg16.encCap = 40 ∧ cfg16.decCap = 24 ∧ cfg3.encCap = 36 ∧ cfg64.encCap = 192 ∧
    cfgs.decCap = 24 ∧ cfg1.encCap = 8 := by decide
theorem test_cfgw : cfgw.n = 200 ∧ cfgw.hw = 16 ∧ cfgw.maxww = 20 ∧ cfgw.encCap = 28 ∧
    pack cfgw (M 199 4 0xF) = B 20 0x00C7F ∧ pack cfgw (M 3 3 7) = B 20 0x00037 := by decide +kernel
theorem test_header : told (exec (.msgHeader .toDevice (M 1 8 0)) State.reset) = some (.bits (B 8 1)) := by decide
theorem test_word_width : told (exec (.msgWordWidth .fromDevice 3) (on cfg16)) = some (.nat 24) := by decide
theorem test_pack_ref8 :
    told (exec (.msgPack .toDevice (M 1 8 0x42)) State.reset) = some (.bits (B 16 0x0142)) := by decide
theorem test_pack_cfg16 :
    told (exec (.msgPack .toDevice (M 3 14 0x2ABC)) (on cfg16)) = some (.bits (B 24 0x602ABC)) := by
  decide
/-- `REF8`: bits whose first bit is 1 are refused; `0x0242` raises `UnknownHeader(2)`. -/
theorem test_unpack_first_bit : refusal (exec (.msgUnpack .fromDevice (B 16 0x8042)) (on ref8)) = some .illFormedMessage ∧
    told (exec (.msgUnpack .fromDevice (B 16 0x0242)) (on ref8)) = some (.raised (.fault (.unknownHeader 2))) := by decide
theorem test_unpack_padding : told (exec (.msgUnpack .fromDevice (B 64 0x040000000000001D)) (on cfg64)) =
    some (.msg ⟨4, .int 5⟩) := by decide
theorem test_unpack_out : told (exec (.msgUnpack .fromDevice (B 64 0x0400000000000006)) (on cfg64)) =
    some (.raised (.fault (.payloadOutOfRange "P4" 6))) := by decide
theorem test_make_name :
    told (exec (.msgMake .toDevice (.name "B") (.bits (B 8 7))) State.reset) = some (.msg (M 1 8 7)) := by
  decide
theorem test_make_out : told (exec (.msgMake .toDevice (.index 4) (.int 6)) (on cfg64)) =
    some (.raised (.fault (.payloadOutOfRange "P4" 6))) := by decide
theorem test_msg_eq : told (exec (.msgEq .toDevice (M 0 0 0) (M 1 8 0)) State.reset) = some (.bool false) := by decide

/-- A set with a number payload of size 0. -/
def sizeless : ParamSet := ⟨1, 4, 4, [⟨"K", 0, .number u8⟩, ⟨"L", 4, .number u8⟩], none⟩
/-- R137's corner case, in `MSG.eq` and nowhere else. -/
theorem test_msg_eq_size_zero :
    told (exec (.msgEq .toDevice ⟨0, .int 1⟩ ⟨0, .int 2⟩) (on sizeless)) = some (.bool true) ∧
    told (exec (.msgEq .toDevice ⟨1, .int 1⟩ ⟨1, .int 2⟩) (on sizeless)) = some (.bool false) := by decide

/-! ### Encoder (V13 to V20) -/

theorem test_encode_second :
    seen (exec (.encEncode (M 3 14 0)) (encWith cfg16 (B 8 0xFF))) (fun t => (t.enc.sink, t.enc.fill)) =
      some ([B 16 0xFF60, B 16 0x0000], 0) := by decide
theorem test_encode_three_subwords :
    seen (exec (.encEncode (M 4 20 0xABCDE)) (encWith cfg3 (B 4 0x0))) (fun t => (t.enc.sink, t.enc.held)) =
      some ([B 12 0x04A, B 12 0xBCD], B 4 0xE) := by decide
theorem test_batch : seen (exec (.encEncodeBatch [M 0 3 7, M 1 12 0xFFF, M 2 0 0]) (on cfg16)) (fun t => t.enc.sink) =
    some [B 16 0x0007, B 16 0x2FFF, B 16 0x4000] := by decide
theorem test_batch_signed :
    seen (exec (.encEncodeBatch [⟨0, .int (-1)⟩, ⟨1, .int (-1)⟩, ⟨2, .int (-1)⟩]) (on cfgs)) (fun t => t.enc.sink) =
      some [B 8 0x00, B 8 0xFF, B 8 0x01, B 8 0x0F, B 8 0x02, B 8 0x00, B 8 0xFF] := by decide
theorem test_flush_two_pads :
    seen (exec .encFlush (encWith cfg3 (B 4 0x5))) (fun t => t.enc.sink) = some [B 12 0x588] := by
  decide
theorem test_flush_empty : seen (exec .encFlush (on cfg16)) (fun t => t.enc.sink) = some [] := by decide
theorem test_enc_reset : seen (exec .encReset (encWith cfg16 (B 8 0xBC))) (fun t => (t.enc.fill, t.enc.buf)) =
    some (0, zeros 40) := by decide

/-! ### Decoder (V15, V22 to V28, P1, P3) -/

theorem test_decode_resumes :
    seen (exec (.decDecode (B 16 0xBC40)) (decWith cfg16 (B 16 0x602A))) (fun t => (t.dec.queue, t.dec.held)) =
      some ([M 3 14 0x2ABC], B 8 0x40) := by decide
theorem test_decode_fault_in_word :
    seen (exec (.decDecode (B 12 0x561)) (decWith cfg3 (B 12 0x215))) (fun t => (t.dec.queue, t.dec.fault, t.dec.held)) =
      some ([M 2 9 0x155], some (.unknownHeader 6), B 4 0x6) := by decide
theorem test_subword_out_of_range :
    seen (exec (.decSubword (B 64 0x0400000000000006)) (on cfg64)) (fun t => (t.dec.fault, t.dec.fill, t.dec.queue)) =
      some (some (.payloadOutOfRange "P4" 6), 64, []) := by decide
theorem test_listener_before_push :
    seen (exec (.decSubword (B 8 0)) { on ref8 with
        dec := { (on ref8).dec with queue := [M 1 8 1, M 1 8 2], listeners := [.halt, .named "count"] } })
      (fun t => t.calls) = some [⟨.halt, M 0 0 0, 2⟩, ⟨.named "count", M 0 0 0, 2⟩] := by decide
theorem test_add_listener : seen (exec (.decAddListener (.named "count")) (faulted cfg3 (B 4 6) (.unknownHeader 6)))
    (fun t => (t.dec.listeners, t.dec.fault)) = some ([.named "count"], some (.unknownHeader 6)) := by decide
theorem test_latched : told (exec .decEndOfStream (faulted cfg3 (B 4 6) (.unknownHeader 6))) =
    some (.raised (.decoderFaulted (.unknownHeader 6))) := by decide
theorem test_underrun : seen (exec .decEndOfStream (decWith cfg16 (B 16 0x602A))) (fun t => (t.ret, t.dec.fault)) =
    some (.raised (.fault (.streamUnderrun 16)), some (.streamUnderrun 16)) := by decide
theorem test_dec_reset : seen (exec .decReset (faulted cfg3 (B 4 6) (.unknownHeader 6))) (fun t => t.dec) =
    some (on cfg3).dec := by decide
theorem test_fault_codes : faultCode (.fault (.unknownHeader 6)) = 1 ∧ faultCode (.fault (.streamUnderrun 4)) = 2 ∧
    faultCode (.fault (.payloadOutOfRange "P4" 6)) = 3 ∧ faultCode (.decoderFaulted (.unknownHeader 6)) = 4 := by decide

/-! ### Wire items (V22, V25, V26) -/

theorem test_item_padding_ignored :
    seen (exec (.cfg64P4 0b11111 0b101) (on cfg64)) (fun t => t.dec.queue) = some [⟨4, .int 5⟩] := by decide
theorem test_item_signed :
    seen (exec (.cfgsU 0 0x0FF) (on cfgs)) (fun t => t.dec.queue) = some [⟨2, .int (-1)⟩] := by decide
theorem test_item_unsigned :
    seen (exec (.cfgsT 0 0xF) (on cfgs)) (fun t => t.dec.queue) = some [⟨1, .int 15⟩] := by decide
theorem test_item_pad_inside : seen (exec (.cfg16Pad 0) (decWith cfg16 (B 16 0x602A))) (fun t => t.dec.queue) =
    some [M 3 14 0x2A80] := by decide
theorem test_item_of_another_set : seen (exec (.cfg16X 0 0) (on ref8)) (fun t => t.dec.queue) =
    some [M 0 0 0, M 0 0 0] := by decide
theorem test_item_wrong_width : refusal (exec (.cfg1Only 7) (on ref8)) = some .wrongWidth := by decide
theorem test_item_illegal : seen (exec (.illegalHeader 2 []) (on ref8)) (fun t => (t.dec.fault, t.dec.fill)) =
    some (some (.unknownHeader 2), 8) := by decide
theorem test_item_msg :
    seen (exec (.msg 1 [] (B 8 0x42)) (on ref8)) (fun t => t.dec.queue) = some [M 1 8 0x42] := by decide

/-! ### Step and environment -/

theorem test_step_op : seen (step { on ref8 with pending := [.op .encFlush, .op .encReset] }) (fun t => t.pending) =
    some [.op .encReset] := by decide
theorem test_step_wire :
    seen (step { on ref8 with pending := [.wire (B 24 0x014280)] }) (fun t => (t.dec.queue, t.pending)) =
      some ([M 1 8 0x42], [.wire (B 8 0x80)]) := by decide
theorem test_step_rest : seen (step State.reset) id = some State.reset := by decide
theorem test_step_stuck : stopped (step (decWith cfg16 (B 16 0x602A))) = some (.stuckPartialMessage 16) := by decide
theorem test_step_residual : stopped (step (encWith cfg16 (B 8 0xBC))) = some (.unflushedResidual 8) := by decide
theorem test_step_faulted : stopped (step (faulted cfg3 (B 4 6) (.unknownHeader 6))) =
    some (.endedFaulted (.unknownHeader 6)) := by decide
/-- The header of `B` alone arrives (R172's example), and half a sub-word is refused (R256). -/
theorem test_step_incomplete_item :
    seen (step { on ref8 with pending := [.wire (B 8 0x01)] }) (fun t => (t.dec.held, t.pending)) =
      some (B 8 0x01, []) ∧
    refusal (step { on ref8 with pending := [.wire (B 4 0)] }) = some .wrongWidth := by decide
theorem test_step_raised : stopped (step { on ref8 with ret := .raised (.fault (.payloadOutOfRange "P4" 6)) }) =
    some (.endedRaised (.fault (.payloadOutOfRange "P4" 6))) := by decide

/-- A connection whose Stream guard the caller 1 holds, under the from-device set `c`. -/
def held (c : ParamSet) : State :=
  { on cfg16 with dec := Decoder.fresh c, conn := { Connection.fresh with stream := some 1 } }

theorem test_commit :
    seen (execEnv (.commit 1) { held cfg16 with
        conn := { (held cfg16).conn with sendQueue := [M 3 14 0x2ABC] } })
      (fun t => (t.conn.wire, t.conn.sendQueue, t.conn.lifecycle)) =
        some ([B 16 0x602A, B 16 0xBC80], [], .committed) := by decide
theorem test_stream_excludes : told (execEnv (.acquireStream 2) (held cfg16)) = some .blocked ∧
    refusal (execEnv (.add 2 [M 2 0 0]) (held cfg16)) = some .notStreamHolder := by decide
theorem test_stream_shutdown :
    told (execEnv (.acquireStream 2) { held cfg16 with dbuf := { DoubleBuffer.fresh with run := false } }) =
      some .cancelled := by decide
theorem test_receive_empty : told (execEnv (.receive 1) (held cfg16)) = some (.error .emptyQueue) := by decide
theorem test_receive_front :
    seen (execEnv (.receive 1) { held ref8 with dec := { (on ref8).dec with queue := [M 0 0 0, M 1 8 1] } })
    (fun t => (t.ret, t.dec.queue)) = some (.msg (M 0 0 0), [M 1 8 1]) := by decide
theorem test_halt :
    seen (execEnv (.runUntilHalt 1) { held cfg16 with conn := { (held cfg16).conn with haltSeen := true } })
      (fun t => (t.ret, t.conn.lifecycle)) = some (.done, .idle) := by decide
/-- `execute_messages` sends the batch and the halt message `Z`, and waits. -/
theorem test_execute_messages :
    seen (execEnv (.executeMessages 1 [M 0 3 7])
        { held cfg16 with enc := Encoder.fresh { cfg16 with halt := some (M 2 0 0) } })
      (fun t => (t.conn.wire, t.ret, t.conn.waiting)) =
        some ([B 16 0x0007, B 16 0x4000], .blocked, some ⟨1, some ⟨0, 0, 0, 0⟩⟩) := by decide
/-- It returns the responses and the time since its start. -/
theorem test_await_messages :
    seen (execEnv (.awaitMessages 1) { held ref8 with
        dec := { (on ref8).dec with queue := [M 1 8 1, M 0 0 0] }
        conn := { (held ref8).conn with waiting := some ⟨1, some ⟨1, 0, 0, 2⟩⟩, haltSeen := true, time := ⟨3, 1, 0, 5⟩ } })
      (fun t => (t.ret, t.dec.queue)) = some (.responses [M 1 8 1, M 0 0 0] ⟨2, 1, 0, 3⟩, []) := by decide
theorem test_timeout :
    told (execEnv .deadline { held ref8 with conn := { (held ref8).conn with waiting := some ⟨1, none⟩ } }) =
      some (.error .timeout) ∧ told (execEnv .deadline (held ref8)) = some .done := by decide
/-- Words collected in two parts stand in the slot in order, up to its capacity. -/
theorem test_fill_twice :
    seen (execEnv (.fillSlot 5) { on ref8 with
        conn := { Connection.fresh with inbox := [B 8 2, B 8 3] }
        dbuf := { DoubleBuffer.fresh with slotA := [B 8 1], capacity := 2 } })
      (fun t => (t.dbuf.slotA, t.conn.inbox, t.ret)) = some ([B 8 1, B 8 2], [B 8 3], .nat 1) := by decide
theorem test_stop_read_undelivered :
    refusal (execEnv .stopRead { on ref8 with dbuf := { DoubleBuffer.fresh with count := 1, slotA := [B 8 1] } }) =
      some .environmentMisuse := by decide
theorem test_available : told (execEnv .available (on ref8)) = some (.bool false) := by decide
/-- The destructor joins the receive threads: a word on its way to the Decoder is not decoded. -/
theorem test_destroy :
    seen (step { on ref8 with
        conn := { Connection.fresh with registry := ["fpga0", "fpga1"], endpoint := some "fpga0" }
        pending := [.env .destroy, .op (.decDecode (B 8 0)), .env (.arrive []), .op .encFlush] })
      (fun t => (t.pending, t.dbuf.run, t.conn.registry)) = some ([.op .encFlush], false, ["fpga1"]) := by decide
/-- A producer and a consumer that wait when the destructor begins get null (R207, R209, R233). -/
theorem test_destroy_wakes :
    told (execEnv .startWrite { on ref8 with dbuf := { DoubleBuffer.fresh with count := 2 } }.destroyed) =
      some (.slot none) ∧
    told (step { on ref8 with pending := [.env .startRead] }.destroyed) = some (.slot none) := by decide
theorem test_start_write_full :
    told (execEnv .startWrite { on ref8 with dbuf := { DoubleBuffer.fresh with count := 2 } }) =
    some .blocked := by decide
theorem test_start_read_shutdown :
    told (execEnv .startRead { on ref8 with dbuf := { DoubleBuffer.fresh with run := false } }) =
    some (.slot none) := by decide
theorem test_double_allocation :
    told (execEnv (.openConnection "fpga0") { on ref8 with conn := { Connection.fresh with registry := ["fpga0"] } }) =
      some (.error .doubleAllocation) := by decide

/-! ### Witnesses: what the hypotheses of the statements ask for -/

/-- The Encoder of `CFG16` with a residual of one sub-word. -/
theorem enc_inv : (encWith cfg16 (B 8 0xBC)).enc.Inv := by unfold Encoder.Inv; decide

theorem enc_inv_fresh (c : ParamSet) (h : c.wf = true) : (on c).enc.Inv := Encoder.fresh_inv c h

theorem dec_inv_fresh (c : ParamSet) (h : c.wf = true) : (on c).dec.Inv := Decoder.fresh_inv c h

theorem boundary (c : ParamSet) (h : c.wf = true) : (on c).AtBoundary := ⟨dec_inv_fresh c h, rfl, rfl⟩

/-- Inside a message of `CFG16`: 16 of the 24 bits of `W(0x2ABC)`. -/
theorem dec_inv_inside : (decWith cfg16 (B 16 0x602A)).dec.Inv :=
  holding_inv (dec_inv_fresh cfg16 (by decide)) rfl _ rfl (by decide) (Or.inr ⟨.raw "W" 14, by decide, by decide⟩)

/-- Inside the header of a message: `HW` is 8, `SW` is 4. -/
theorem dec_inv_header : (decWith own (B 4 0)).dec.Inv :=
  holding_inv (dec_inv_fresh own (by decide)) rfl _ rfl (by decide) (Or.inl (by decide))

theorem test_witness_sets : ref8.wf = true ∧ cfg16.wf = true ∧ cfg64.wf = true ∧ cfg3.wf = true ∧ cfgs.wf = true ∧
    cfg1.wf = true ∧ own.wf = true := by decide
theorem test_witness_HeaderUniqueness : cfg1.wf = true ∧ 0 < cfg1.n ∧ cfg3.wf = true ∧ 4 < cfg3.n ∧
    cfg3.header 4 = cfg3.header 4 := by decide
theorem test_witness_DecodeInvertsEncode : cfg16.wf = true ∧ (Instr.cfg16W 0 0x2ABC).widthsOk cfg16 = true ∧
    (Instr.cfg16W 0 0x2ABC).isRowOf cfg16 = true ∧ encode cfg16 (.cfg16W 0 0x2ABC) = some (B 24 0x602ABC) ∧
    (Instr.msg 1 (B 3 0) (B 5 1)).widthsOk own = true ∧ (Instr.msg 1 (B 3 0) (B 5 1)).isRowOf own = true ∧
    (Instr.pad (B 3 7)).widthsOk own = true ∧ (Instr.pad (B 3 7)).isRowOf own = true ∧
    (Instr.illegalHeader 2 []).widthsOk own = true ∧ (Instr.illegalHeader 127 []).widthsOk own = true := by decide
theorem test_witness_NumberValidValues : int8.wf = true ∧ int8.contains (-128) = true ∧ int8.contains 127 = true ∧
    u8.contains 0 = true ∧ u8.contains 255 = true := by decide
theorem test_witness_Ranged : u8.boundsWf 0 5 = true ∧ u8.contains 0 = true ∧ u8.contains 5 = true ∧ u8.contains 6 = true ∧
    int8.boundsWf (-1) 5 = true ∧ int8.contains (-2) = true ∧ (-2 : Int) < -1 := by decide
theorem test_witness_RangedDecode : told (exec (.numberDecode u8 (B 3 5)) State.reset) = some (.int 5) ∧
    told (exec (.numberDecode u8 (B 3 6)) State.reset) = some (.int 6) := by decide
theorem test_witness_CodecRoundTrip : Kind.wf .bitset = true ∧ Payload.wf (.raw "B" 8) (.bits (B 8 255)) = true ∧
    Kind.wf (.number int8) = true ∧ Payload.wf ⟨"S", 8, .number int8⟩ (.int (-128)) = true ∧ int8.width ≤ 8 ∧
    Payload.wf ⟨"T", 4, .number int8⟩ (.int 15) = true ∧ Kind.wf (.ranged u8 0 5) = true ∧
    Payload.wf ⟨"P4", 3, .ranged u8 0 5⟩ (.int 5) = true := by decide
theorem test_witness_Messages : ((on cfg16).cfgOf .toDevice).wf = true ∧ (M 3 14 0x3FFF).wf cfg16 = true ∧
    (M 2 0 0).wf cfg16 = true ∧ Msg.wf cfg64 ⟨4, .int 5⟩ = true ∧ ((on cfg16).cfgOf .toDevice).dict[3]? = some (.raw "W" 14) ∧
    ((on sizeless).cfgOf .toDevice).wf = true ∧ Msg.wf sizeless ⟨0, .int 1⟩ = true ∧ Msg.wf sizeless ⟨0, .int 2⟩ = true ∧
    ((on sizeless).cfgOf .toDevice).dict[0]? = some ⟨"K", 0, .number u8⟩ := by decide
theorem test_witness_Entry : ((on cfg16).cfgOf .toDevice).dict[3]? = some (.raw "W" 14) ∧
    Payload.wf (.raw "W" 14) (.bits (B 14 0)) = true := by decide
/-- A ranged instruction made with a value at its bound and with one beyond it. -/
theorem test_witness_Make : ((on cfg64).cfgOf .fromDevice).wf = true ∧
    ((on cfg64).cfgOf .fromDevice).dict[4]? = some ⟨"P4", 3, .ranged u8 0 5⟩ ∧
    Payload.wf ⟨"P4", 3, .ranged u8 0 5⟩ (.int 5) = true ∧ u8.contains 6 = true ∧ (5 : Int) < 6 := by decide
theorem test_witness_Unpack : ((on cfg64).cfgOf .fromDevice).hw ≤ (B 64 0x0400000000000005).length ∧
    cfg64.dict[Bits.toNat ((B 64 0x0400000000000005).take 8)]? = some ⟨"P4", 3, .ranged u8 0 5⟩ ∧
    (B 64 0x0400000000000005).length = cfg64.ww ⟨"P4", 3, .ranged u8 0 5⟩ ∧
    decodePayload ⟨"P4", 3, .ranged u8 0 5⟩ (B 3 5) = .ok (.int 5) ∧
    5 < numberDecode u8 (Bits.low 3 (B 64 0x0400000000000006)) ∧
    cfg64.n ≤ Bits.toNat ((B 64 0x0500000000000000).take 8) := by decide
theorem test_witness_Valid : cfg16.wf = true ∧ (M 3 14 0x2ABC).valid cfg16 = true ∧ Msg.valid cfgs ⟨1, .int 15⟩ = true ∧
    Msg.valid cfgs ⟨1, .int (-1)⟩ = false := by decide
theorem test_witness_Unpacked : unpack cfg64 (B 64 0x040000000000001D) = .msg ⟨4, .int 5⟩ ∧
    cfg64.dict[4]? = some ⟨"P4", 3, .ranged u8 0 5⟩ := by decide
theorem test_witness_Encode : (encWith cfg16 (B 8 0xBC)).enc.Inv ∧ (M 3 14 0).wf (encWith cfg16 (B 8 0xBC)).enc.cfg = true ∧
    (encWith cfg16 (B 8 0xBC)).enc.fill ≠ 0 := ⟨enc_inv, by decide, by decide⟩
theorem test_witness_FlushEmpty : (on cfg16).enc.cfg.wf = true ∧ (on cfg16).enc.fill = 0 := by decide
theorem test_witness_PaddingSubwords : (on cfg3).dec.cfg.wf = true ∧ (on cfg3).dec.fault = none ∧ (on cfg3).dec.fill = 0 ∧
    (B 4 8).length = (on cfg3).dec.cfg.sw ∧ Bits.top (B 4 8) = true ∧ Bits.top (B 4 15) = true := by decide
/-- The header stays incomplete; the body stays incomplete, its sub-word with the top bit 1. -/
theorem test_witness_IncompleteMessage :
    ((on own).dec.Inv ∧ (B 4 7).length = own.sw ∧ Bits.top (B 4 7) = false ∧ (B 4 7).length < own.hw) ∧
    ((decWith own (B 4 0)).dec.Inv ∧ (decWith own (B 4 0)).dec.held ++ B 4 1 = B 8 1 ∧ own.hw ≤ (B 8 1).length ∧
      own.dict[Bits.toNat ((B 8 1).take own.hw)]? = some (.raw "Q1" 5) ∧ (B 8 1).length < own.ww (.raw "Q1" 5)) ∧
    cfg16.dict[Bits.toNat ((B 16 0x60FF).take cfg16.hw)]? = some (.raw "W" 14) ∧
      (B 16 0x60FF).length < cfg16.ww (.raw "W" 14) :=
  ⟨⟨dec_inv_fresh own (by decide), by decide, by decide, by decide⟩,
    ⟨dec_inv_header, by decide, by decide, by decide, by decide⟩, by decide, by decide⟩
theorem test_witness_UnknownHeader : (on cfg3).dec.Inv ∧ (B 4 5).length = cfg3.sw ∧ (on cfg3).dec.fault = none ∧
    Bits.top (B 4 5) = false ∧ cfg3.hw ≤ (B 4 5).length ∧ cfg3.n ≤ Bits.toNat ((B 4 5).take cfg3.hw) :=
  ⟨dec_inv_fresh cfg3 (by decide), by decide, by decide, by decide, by decide, by decide⟩
theorem test_witness_CompleteMessage : (decWith cfg16 (B 16 0x602A)).dec.Inv ∧ (B 8 0xBC).length = cfg16.sw ∧
    (decWith cfg16 (B 16 0x602A)).dec.fill ≠ 0 ∧ (decWith cfg16 (B 16 0x602A)).dec.held ++ B 8 0xBC = B 24 0x602ABC ∧
    cfg16.dict[Bits.toNat ((B 24 0x602ABC).take cfg16.hw)]? = some (.raw "W" 14) ∧
    (B 24 0x602ABC).length = cfg16.ww (.raw "W" 14) ∧
    decodePayload (.raw "W" 14) (B 14 0x2ABC) = .ok (.bits (B 14 0x2ABC)) :=
  ⟨dec_inv_inside, by decide, by decide, by decide, by decide, by decide, by decide⟩
theorem test_witness_OutOfRange : (on cfg64).dec.Inv ∧ (B 64 0x0400000000000006).length = cfg64.sw ∧
    Bits.top (B 64 0x0400000000000006) = false ∧
    cfg64.dict[Bits.toNat ((B 64 0x0400000000000006).take cfg64.hw)]? = some ⟨"P4", 3, .ranged u8 0 5⟩ ∧
    (B 64 0x0400000000000006).length = cfg64.ww ⟨"P4", 3, .ranged u8 0 5⟩ ∧
    5 < numberDecode u8 (Bits.low 3 (B 64 0x0400000000000006)) :=
  ⟨dec_inv_fresh cfg64 (by decide), by decide, by decide, by decide, by decide, by decide⟩
theorem test_witness_Faulted : (faulted cfg3 (B 4 6) (.unknownHeader 6)).dec.cfg.wf = true ∧
    (faulted cfg3 (B 4 6) (.unknownHeader 6)).dec.fault = some (.unknownHeader 6) ∧ (B 12 0x10F).length = cfg3.pw ∧
    (B 4 1).length = cfg3.sw := by decide
theorem test_witness_OnlyReset :
    (seen (exec .encFlush (faulted cfg3 (B 4 6) (.unknownHeader 6))) State.dec).isSome = true ∧
    (seen (exec (.decAddListener .halt) (faulted cfg3 (B 4 6) (.unknownHeader 6))) State.dec).isSome = true := by decide
/-- A faulted Decoder with two messages received. -/
def drained : State :=
  { faulted cfg3 (B 4 6) (.unknownHeader 6) with
    dec := { (faulted cfg3 (B 4 6) (.unknownHeader 6)).dec with queue := [M 0 0 0, M 4 20 7] }
    conn := { Connection.fresh with stream := some 1 }
    pending := [.env (.receive 1)] }
theorem test_witness_OnlyResetEnv : drained.dec.fault = some (.unknownHeader 6) ∧
    seen (execEnv (.receive 1) drained) (fun t => t.dec.queue) = some [M 4 20 7] ∧
    (seen (execEnv .shutdown drained) State.dec).isSome = true ∧ EnvOp.mayDrain .shutdown = false ∧
    seen (step drained) (fun t => t.dec.queue) = some [M 4 20 7] := by decide
theorem test_witness_Word : (decWith cfg16 (B 16 0x602A)).dec.Inv ∧ (B 16 0xBC40).length = cfg16.pw ∧
    (decWith cfg16 (B 16 0x602A)).dec.fault = none := ⟨dec_inv_inside, by decide, by decide⟩
theorem test_witness_EndOfStream : (decWith cfg16 (B 16 0x602A)).dec.cfg.wf = true ∧
    (decWith cfg16 (B 16 0x602A)).dec.fill ≠ 0 ∧ (on cfg16).dec.fill = 0 := by decide
theorem test_witness_MessageItem : (on cfg64).AtBoundary ∧ (on cfg64).dec.cfg.dict[4]? = some ⟨"P4", 3, .ranged u8 0 5⟩ ∧
    (B 53 1).length = cfg64.ww ⟨"P4", 3, .ranged u8 0 5⟩ - cfg64.hw - 3 ∧
    decodePayload ⟨"P4", 3, .ranged u8 0 5⟩ (B 3 5) = .ok (.int 5) ∧
    decodePayload ⟨"P4", 3, .ranged u8 0 5⟩ (B 3 6) = .error (.payloadOutOfRange "P4" 6) :=
  ⟨boundary cfg64 (by decide), by decide, by decide, by decide, by decide⟩
/-- A row of `CFG3` at a Decoder of `REF8` inside a message, and at a faulted one. -/
theorem test_witness_WireItem : (decWith ref8 (B 8 1)).dec.cfg.wf = true ∧
    encode ref8 (.cfg3N2 0 0x155) = some (B 16 0x2155) ∧ (Instr.cfg3N2 0 0x155).widthsOk ref8 = true ∧
    (B 16 0x2155).length % ref8.sw = 0 ∧ (faulted cfg3 (B 4 6) (.unknownHeader 6)).dec.cfg.wf = true ∧
    encode cfg3 (.cfg3Pad 7) = some (B 4 15) ∧ (B 4 15).length % cfg3.sw = 0 := by decide
theorem test_witness_PaddingAndIllegal : (on own).AtBoundary ∧ (B 3 7).length + 1 = own.sw ∧ own.n ≤ 2 ∧
    2 < 2 ^ (own.hw - 1) ∧ 127 < 2 ^ (own.hw - 1) ∧ ([] : Bits).length + own.hw = roundUp own.hw own.sw :=
  ⟨boundary own (by decide), by decide, by decide, by decide, by decide, by decide⟩
theorem test_witness_Rows : ((on ref8).AtBoundary ∧ setName? ref8 = some .ref8) ∧
    ((on cfg16).AtBoundary ∧ setName? cfg16 = some .cfg16) ∧ ((on cfg64).AtBoundary ∧ setName? cfg64 = some .cfg64) ∧
    ((on cfg3).AtBoundary ∧ setName? cfg3 = some .cfg3) ∧ ((on cfgs).AtBoundary ∧ setName? cfgs = some .cfgs) ∧
    (on cfg1).AtBoundary ∧ setName? cfg1 = some .cfg1 :=
  ⟨⟨boundary _ (by decide), by decide⟩, ⟨boundary _ (by decide), by decide⟩, ⟨boundary _ (by decide), by decide⟩,
    ⟨boundary _ (by decide), by decide⟩, ⟨boundary _ (by decide), by decide⟩, boundary _ (by decide), by decide⟩
theorem test_witness_Step : ({ on ref8 with pending := [.op .encFlush] } : State).pending = .op .encFlush :: [] ∧
    decode ref8 (B 24 0x014280) = .ok (.ref8B 0x42, B 8 0x80) ∧ decode ref8 (B 8 0x80) = .ok (.ref8Pad 0, []) ∧
    decode ref8 (B 8 1) = .error .incompleteItem ∧ ref8.sw ≤ (B 8 1).length ∧
    decode ref8 (B 4 0) = .error .incompleteItem ∧ (B 4 0).length < ref8.sw ∧
    decode ref8 [] = .error .incompleteItem := by decide
theorem test_witness_Rest : (on cfg16).pending = [] ∧ (on cfg16).final = true ∧
    (encWith cfg16 (B 8 0xBC)).final = false ∧
    ({ on ref8 with ret := .raised (.fault (.unknownHeader 2)) } : State).final = false := by decide
theorem test_witness_WellFormed : WellFormed cfg16 cfg64 (.encEncode (M 3 14 1)) = true ∧
    WellFormed ref8 cfg64 (.cfg64P4 0 7) = true ∧ (Instr.cfg64P4 0 7).rowSet = setName? cfg64 ∧
    (Instr.encEncode (M 3 14 1)).rowSet = none := by decide
theorem test_witness_IllFormed : (Instr.encEncode (M 2 8 0)).operandsOk ref8 ref8 = false ∧
    instrOnEncoder .encFlush = true ∧ instrOnDecoder .ref8A = true ∧ ParamSet.wf { ref8 with sw := 0 } = false ∧
    encode ref8 (.cfg1Only 7) = some (B 4 7) ∧ (B 4 7).length % ref8.sw ≠ 0 ∧
    (Instr.msg 2 [] []).widthsOk ref8 = false := by decide
theorem test_witness_NextStates : (seen (exec .encFlush (encWith cfg16 (B 8 0xBC))) State.enc).isSome = true ∧
    (seen (exec (.decDecode (B 16 0xBC40)) (decWith cfg16 (B 16 0x602A))) State.dec).isSome = true ∧
    (seen (step { held ref8 with pending := [.env (.receiveAll 1)] }) State.ret).isSome = true := by decide
/-- A caller waits in `run_until_halt` while both agents hold parts of messages. -/
theorem test_witness_Invariant : State.Inv
    { decWith cfg16 (B 16 0x602A) with
      enc := (encWith cfg16 (B 8 0xBC)).enc
      conn := { Connection.fresh with stream := some 1, waiting := some ⟨1, none⟩ } } :=
  ⟨enc_inv, dec_inv_inside, by unfold DoubleBuffer.Inv; decide,
    ⟨fun w h => by cases h; rfl, fun h => by cases h⟩⟩
theorem test_witness_Commit : (encWith cfg16 (B 8 0xBC)).enc.Inv ∧ (M 0 3 5).wf cfg16 = true ∧
    (encWith cfg16 (B 8 0xBC)).conn.taken = (encWith cfg16 (B 8 0xBC)).enc.sink.length ∧
    (held cfg16).conn.stream = some 1 ∧ (held cfg16).conn.waiting = none ∧ (held cfg16).conn.alive = true ∧
    (held cfg16).dbuf.run = true :=
  ⟨enc_inv, by decide, by decide, rfl, rfl, rfl, rfl⟩
/-- A connection whose from-device set designates `Z` as the halt message, with the halt listener added; and the same with
a caller waiting in `execute_messages`. -/
def halting : State :=
  { held cfg16 with
    dec := { (Decoder.fresh { cfg16 with halt := some (M 2 0 0) }) with listeners := [.named "trace", .halt] } }
theorem test_witness_Halt : halting.dec.cfg.wf = true ∧ halting.dec.cfg.halt = some (M 2 0 0) ∧
    Listener.halt ∈ halting.dec.listeners ∧ halting.conn.haltSeen = false ∧ halting.dec.fault = none ∧
    halting.dbuf.run = true ∧ halting.conn.alive = true ∧ halting.conn.stream = some 1 ∧
    halting.conn.waiting = none ∧ msgEq halting.dec.cfg (M 0 3 5) (M 2 0 0) = false ∧
    msgEq halting.dec.cfg (M 2 0 0) (M 2 0 0) = true ∧ halting.enc.cfg.wf = true ∧
    (M 0 3 5).wf halting.enc.cfg = true := by decide
/-- The waits: run_until_halt asked again, and execute_messages in each state its caller can find. -/
theorem test_witness_Waiting :
    (seen (execEnv (.runUntilHalt 1) halting) (fun t => t.conn.waiting)) = some (some ⟨1, none⟩) ∧
    (seen (execEnv (.executeMessages 1 [M 0 3 5]) halting) (fun t =>
      [told (execEnv (.awaitMessages 1) t),
        told (execEnv (.awaitMessages 1) { t with conn := { t.conn with haltSeen := true } }),
        told (execEnv (.awaitMessages 1) { t with dec := { t.dec with fault := some (.unknownHeader 6) } }),
        told (execEnv (.awaitMessages 1) { t with dbuf := { t.dbuf with run := false } })])) =
      some [some .blocked, some (.responses [] ⟨0, 0, 0, 0⟩), some (.raised (.fault (.unknownHeader 6))),
        some .cancelled] := by decide
theorem test_witness_Packet : DoubleBuffer.fresh.Inv ∧ DoubleBuffer.fresh.count = 0 ∧ (on ref8).conn.alive = true ∧
    min 64 (DoubleBuffer.fresh.capacity - (DoubleBuffer.fresh.slot .A).length) = 64 ∧
    { DoubleBuffer.fresh with slotA := [B 8 1] }.Inv :=
  ⟨by unfold DoubleBuffer.Inv; decide, by decide, by decide, by decide, by unfold DoubleBuffer.Inv; decide⟩
/-- One packet outstanding in slot A. -/
def outstanding : State :=
  { on ref8 with
    dbuf := { DoubleBuffer.fresh with count := 1, producer := .B, slotA := [B 8 1] }
    conn := { Connection.fresh with inbox := [B 8 2], endpoint := some "fpga0", registry := ["fpga0"] } }
theorem test_witness_Outstanding : outstanding.dbuf.Inv ∧ outstanding.dbuf.count = 1 ∧ outstanding.conn.alive = true ∧
    outstanding.dbuf.slot outstanding.dbuf.consumer = [B 8 1] ∧
    min 64 (outstanding.dbuf.capacity - (outstanding.dbuf.slot outstanding.dbuf.producer).length) = 64 ∧
    outstanding.dbuf.slot outstanding.dbuf.producer ++ outstanding.conn.inbox.take 64 = [B 8 2] ∧
    outstanding.conn.endpoint = some "fpga0" :=
  ⟨by unfold DoubleBuffer.Inv; decide, by decide, by decide, by decide, by decide, by decide, rfl⟩
theorem test_witness_Destroyed : (on ref8).destroyed.conn.alive = false ∧
    (seen (step { (on ref8).destroyed with pending := [.op .encFlush] }) State.enc).isSome = true ∧
    State.NoReceiveThread { (on ref8).destroyed with pending := [.op .encFlush] } :=
  ⟨rfl, by decide, fun c hc => by simp at hc; subst hc; rfl⟩

end Sys2Proof.Tests
end

