-- ==== Sys2Proof/Proofs/Encoding.lean ====
section
/-! PROOFS. The header width, the word width and the header field of a legal parameter set (30_encoding.md R83, R84,
R96). -/

namespace Sys2Proof

section
variable {c : ParamSet} (hc : c.wf = true)
include hc

/-- The minimality of R83: no aligned width below `HW` holds the comma bit and the index. -/
theorem hw_least (m : Nat) (hm : c.ha ∣ m) (hw : 1 + c.idxw ≤ m) : c.hw ≤ m :=
  roundUp_le _ _ m (wf_ha hc) hm hw

/-- The integer value of a header field is its index, so no two indices below `N` share a field. -/
theorem header_injOn : Set.InjOn c.header {i | i < c.n} := by
  have hinv : Set.LeftInvOn Bits.toNat c.header {i | i < c.n} := fun i hi => header_toNat hc i hi
  exact hinv.injOn

end

/-- Settles O4: `HW` is `round_up` of `1 + clog2(N)`, which is the least multiple of `HA` from there on, and
`clog2` leaves room for every index. -/
theorem headerWidthHoldsEveryIndex : Obligations.HeaderWidthHoldsEveryIndex := by
  intro c hc
  exact ⟨roundUp_dvd _ _, hw_ge hc, hw_least hc, n_le_pow hc⟩

/-- Settles O5: the larger of two multiples of `SW` is one, and is at least each of them. -/
theorem wordWidthIsWholeSubwords : Obligations.WordWidthIsWholeSubwords := by
  intro c e hc
  exact ⟨rfl, sw_dvd_ww hc e, pw_le_ww c e, field_le_ww hc e⟩

/-- Settles O6: below `N` the value of a header field is its index, so the one index with value `h` is `h` itself. -/
theorem headerUniqueness : Obligations.HeaderUniqueness := by
  intro c hc
  refine ⟨fun h hh => ⟨h, ⟨hh, header_toNat hc h hh⟩, ?_⟩, fun i j hi hj hij => header_injOn hc hi hj hij⟩
  intro j hj hval
  calc j = Bits.toNat (c.header j) := (header_toNat hc j hj).symm
    _ = h := hval

end Sys2Proof
end

section
/-! PROOFS. The bitset codec (40_payload_codecs.md R111, R112). -/

namespace Sys2Proof

open Machine

/-- R111: the caller of `BITSET.encode` is answered its own operand. -/
theorem exec_bitsetEncode (v : Bits) (s : State) : exec (.bitsetEncode v) s = .next (s.answer (.bits v)) := rfl

/-- R112: the caller of `BITSET.decode` is answered its own operand. -/
theorem exec_bitsetDecode (b : Bits) (s : State) : exec (.bitsetDecode b) s = .next (s.answer (.bits b)) := rfl

/-- Settles O9: both instructions answer their operand, and answering writes the returned value alone. -/
theorem bitsetCodecIsTheIdentity : Obligations.BitsetCodecIsTheIdentity := by
  intro v s
  exact ⟨exec_bitsetEncode v s, exec_bitsetDecode v s⟩

end Sys2Proof
end

section
/-! PROOFS. The header and the word width a message packer answers (41_message_packer.md R132, R133). -/

namespace Sys2Proof

open Machine

/-- The consequence R132 draws from R83: the top bit of a header field is free, since every index is below
`2 ^ (HW - 1)`. -/
theorem header_top_of_lt_n {c : ParamSet} (hc : c.wf = true) {i : Nat} (hi : i < c.n) :
    Bits.top (c.header i) = false :=
  header_top hc i (hi.trans_le (n_le_pow hc))

theorem msg_idx_lt_n {c : ParamSet} {m : Msg} (hm : m.wf c = true) : m.idx < c.n := by
  obtain ⟨e, he, -⟩ := (msg_wf_iff c m).1 hm
  exact index_lt_n he

/-- R132: a message of the dictionary passes both guards of `MSG.header`. -/
theorem exec_msgHeader {d : Direction} {m : Msg} {s : State} (hc : (s.cfgOf d).wf = true)
    (hm : m.wf (s.cfgOf d) = true) :
    exec (.msgHeader d m) s = .next (s.answer (.bits ((s.cfgOf d).header m.idx))) := by
  change execMsgHeader d m s = _
  rw [execMsgHeader, guarded_true hc, guarded_true hm]

/-- R133: `MSG.word_width` looks the entry of the index up and answers its word width. -/
theorem exec_msgWordWidth {d : Direction} {i : Nat} {e : Entry} {s : State} (hc : (s.cfgOf d).wf = true)
    (he : (s.cfgOf d).dict[i]? = some e) :
    exec (.msgWordWidth d i) s = .next (s.answer (.nat ((s.cfgOf d).ww e))) := by
  change execMsgWordWidth d i s = _
  rw [execMsgWordWidth, guarded_true hc, he]

/-- Settles O16: `MSG.header` answers the header field of the message's index, which is below `N`; the word width
`MSG.word_width` answers is the formula by definition. -/
theorem headerIsTheIndexAndWordWidthTheFormula : Obligations.HeaderIsTheIndexAndWordWidthTheFormula := by
  refine ⟨fun d m s hc hm => ?_, fun d i e s hc he => exec_msgWordWidth hc he⟩
  have hi : m.idx < (s.cfgOf d).n := msg_idx_lt_n hm
  exact ⟨(s.cfgOf d).header m.idx, exec_msgHeader hc hm, header_length _ _, header_toNat hc _ hi,
    header_top_of_lt_n hc hi⟩

end Sys2Proof
end

section
/-! PROOFS. What the Decoder has queued and shown stays so (43_decoder.md R185). -/

namespace Sys2Proof

open Machine

/-- `DEC.end_of_stream` neither queues nor removes a message, whether or not it faults (R175). -/
theorem endOfStream_queue (d : Decoder) : d.endOfStream.dec.queue = d.queue := by
  rw [(endOfStream_frame d).1]

/-- Settles O39: what a next state can be is said by `exec_kinds`; feeding sub-words appends to the queue, every other
operation but the reset leaves it, and calls are only ever appended. -/
theorem resultsAreNotRetracted : Obligations.ResultsAreNotRetracted := by
  intro i s t h hi
  rcases exec_kinds i s t h with ⟨-, -, r, rfl⟩ | ⟨-, -, -, e, k, rfl, -⟩ | ⟨-, -, -, f, rfl, hf⟩
  · exact ⟨⟨[], by simp⟩, [], by simp⟩
  · exact ⟨⟨[], by simp⟩, [], by simp⟩
  · refine ⟨?_, f.calls, rfl⟩
    rcases hf with ⟨l, -, rfl⟩ | rfl | ⟨l, -, rfl⟩ | ⟨rfl, -⟩
    · obtain ⟨-, -, hq⟩ := feed_frame s.dec l
      exact hq
    · exact ⟨[], by simp [endOfStream_queue]⟩
    · exact ⟨[], by simp⟩
    · exact absurd rfl hi

end Sys2Proof
end

section
/-! PROOFS. The round-trip law (43_decoder.md R180): the bits an Encoder's sink stands for after a flush, and what the
Decoder makes of them. -/

namespace Sys2Proof

open Machine

/-! ### Cutting bits into sub-words -/

/-- Pieces of one width, put together and cut again, are the pieces. -/
theorem bits_chunks_of_flatten (w : Nat) (l : List Bits) (h : ∀ s ∈ l, s.length = w) :
    Bits.chunks w l.length l.flatten = l := by
  induction l with
  | nil => rfl
  | cons s rest ih =>
    obtain ⟨hs, hrest⟩ := List.forall_mem_cons.1 h
    simp [Bits.chunks, ← hs, hs ▸ ih hrest]

theorem flatten_length_of_width (w : Nat) (l : List Bits) (h : ∀ s ∈ l, s.length = w) :
    l.flatten.length = l.length * w := by
  rw [List.length_flatten, List.map_congr_left h, List.map_const', List.sum_replicate, smul_eq_mul]

/-! ### Feeding the Decoder bits in two parts -/

/-- A fault in the first sub-words ends the feeding (R171), so none in all of them means none in the first. -/
theorem raised_none_of_feed_append (d : Decoder) (a b : List Bits) (h : (d.feed (a ++ b)).raised = none) :
    (d.feed a).raised = none := by
  induction a generalizing d with
  | nil => rfl
  | cons s rest ih =>
    by_cases hr : (d.subword s).raised = none
    · rw [List.cons_append, feed_cons _ _ _ hr] at h
      rw [feed_cons _ _ _ hr]
      exact ih _ h
    · rw [List.cons_append, feed_cons_raised _ _ _ hr] at h
      exact absurd h hr

/-- Bits after a whole number of sub-words are cut into sub-words on their own. -/
theorem feedBits_append_eq (d : Decoder) (a b : Bits) (ha : d.cfg.sw ∣ a.length) :
    d.feedBits (a ++ b) = d.feed (Bits.chunks d.cfg.sw (a.length / d.cfg.sw) a ++
      Bits.chunks d.cfg.sw (b.length / d.cfg.sw) b) := by
  rw [Decoder.feedBits, List.length_append, Nat.add_div_of_dvd_right ha,
    bits_chunks_append _ _ _ _ _ (Nat.div_mul_cancel ha).symm]

theorem raised_none_of_feedBits_append (d : Decoder) (a b : Bits) (ha : d.cfg.sw ∣ a.length)
    (h : (d.feedBits (a ++ b)).raised = none) : (d.feedBits a).raised = none :=
  raised_none_of_feed_append d _ _ (feedBits_append_eq d a b ha ▸ h)

theorem feedBits_cfg (d : Decoder) (b : Bits) : (d.feedBits b).dec.cfg = d.cfg := (feed_frame d _).1

/-- Feeding a whole number of sub-words that raises nothing, then the bits after them. -/
theorem feedBits_append (d : Decoder) (a b : Bits) (ha : d.cfg.sw ∣ a.length) (h : (d.feedBits a).raised = none) :
    d.feedBits (a ++ b) = ⟨((d.feedBits a).dec.feedBits b).dec,
      (d.feedBits a).calls ++ ((d.feedBits a).dec.feedBits b).calls, ((d.feedBits a).dec.feedBits b).raised⟩ := by
  have hb : (d.feedBits a).dec.feedBits b =
      (d.feedBits a).dec.feed (Bits.chunks d.cfg.sw (b.length / d.cfg.sw) b) := by
    rw [Decoder.feedBits, feedBits_cfg]
  rw [feedBits_append_eq d a b ha, feed_append _ _ _ h, hb]
  rfl

/-- Bits that are given as sub-words are fed as those. -/
theorem feedBits_flatten (d : Decoder) (hc : d.cfg.wf = true) (l : List Bits) (hl : ∀ s ∈ l, s.length = d.cfg.sw) :
    d.feedBits l.flatten = d.feed l := by
  rw [Decoder.feedBits, flatten_length_of_width _ _ hl, Nat.mul_div_cancel _ (wf_sw hc), bits_chunks_of_flatten _ _ hl]

/-! ### The items of the stream -/

/-- `k` padding sub-words (30_encoding.md R90), as the Encoder writes them. -/
def ParamSet.filler (c : ParamSet) (k : Nat) : Bits := (List.replicate k c.padSubword).flatten

theorem padSubword_length {c : ParamSet} (hc : c.wf = true) : c.padSubword.length = c.sw := by
  have := wf_sw hc
  simp [ParamSet.padSubword]
  omega

/-- A Decoder between messages skips the Encoder's filler (R183). -/
theorem feedBits_filler (d : Decoder) (hc : d.cfg.wf = true) (hn : d.fault = none) (hf : d.fill = 0) (k : Nat) :
    d.feedBits (d.cfg.filler k) = ⟨d, [], none⟩ := by
  have hl : ∀ s ∈ List.replicate k d.cfg.padSubword, s.length = d.cfg.sw := fun s hs =>
    List.eq_of_mem_replicate hs ▸ padSubword_length hc
  have ht : ∀ s ∈ List.replicate k d.cfg.padSubword, Bits.top s = true := fun s hs =>
    List.eq_of_mem_replicate hs ▸ rfl
  rw [ParamSet.filler, feedBits_flatten d hc _ hl]
  exact feed_padding d _ hn hf ht

section
variable {c : ParamSet} (hc : c.wf = true) {m : Msg} {e : Entry} (he : c.dict[m.idx]? = some e)
include hc he

/-- The first `HW` bits of a packed message are its index (R134). -/
theorem pack_header : Bits.toNat (Bits.high c.hw (pack c m)) = m.idx := by
  rw [pack_eq he, packEntry, List.append_assoc, high_append _ _ _ (header_length c _).ge, Bits.high,
    List.take_of_length_le (header_length c _).le]
  exact header_toNat hc _ (index_lt_n he)

/-- The comma bit of a packed message is clear (30_encoding.md R81, R85). -/
theorem pack_top : Bits.top (pack c m) = false := by
  have hne : c.header m.idx ≠ [] := List.ne_nil_of_length_pos (by rw [header_length]; exact hw_pos hc)
  rw [pack_eq he, packEntry, List.append_assoc, top_append _ _ hne]
  exact header_top_of_lt_n hc (index_lt_n he)

theorem pack_length (hp : Payload.typed e m.payload = true) : (pack c m).length = c.ww e := by
  rw [pack_eq he]
  exact packEntry_length hc _ _ _ hp

omit hc in
/-- The last bits of a packed message are its payload bits (R134). -/
theorem pack_payload (hp : Payload.typed e m.payload = true) :
    Bits.low e.size (pack c m) = encodePayload e m.payload := by
  rw [pack_eq he]
  exact bits_low_append' _ _ _ (encodePayload_length e _ hp).symm

end

/-- A Decoder between messages that is fed a packed message with a valid payload emits that message. -/
theorem feedBits_pack (d : Decoder) (hc : d.cfg.wf = true) (hn : d.fault = none) (hd : d = d.holding []) {m : Msg}
    (hm : m.valid d.cfg = true) : d.feedBits (pack d.cfg m) = d.emit m := by
  obtain ⟨e, he, hv⟩ := (msg_valid_iff _ _).1 hm
  have hp : Payload.typed e m.payload = true := payload_typed_of_wf (payload_wf_of_valid hv)
  have hi := pack_header hc he
  have hdec : decodePayload e (Bits.low e.size (pack d.cfg m)) = .ok m.payload := by
    rw [pack_payload he hp]
    exact decodePayload_encodePayload e _ hv
  rw [feedBits_message d hc hn hd e _ (hi.symm ▸ he) (pack_length hc he hp) (pack_top hc he), hi, Decoder.outcome, hdec]
  exact congrArg (Decoder.emit · m) hd.symm

/-- A packed message and the filler after it: the message is emitted, the filler skipped. -/
theorem feedBits_pack_filler (d : Decoder) (hc : d.cfg.wf = true) (hn : d.fault = none) (hd : d = d.holding [])
    {m : Msg} (hm : m.valid d.cfg = true) (k : Nat) :
    d.feedBits (pack d.cfg m ++ d.cfg.filler k) = d.emit m := by
  obtain ⟨e, he, hv⟩ := (msg_valid_iff _ _).1 hm
  have hlen := pack_length hc he (payload_typed_of_wf (payload_wf_of_valid hv))
  have hmsg := feedBits_pack d hc hn hd hm
  have hpad : (d.emit m).dec.feedBits (d.cfg.filler k) = ⟨(d.emit m).dec, [], none⟩ :=
    feedBits_filler (d.emit m).dec hc hn rfl k
  rw [feedBits_append d _ _ (hlen ▸ sw_dvd_ww hc e) (by rw [hmsg]; rfl), hmsg, hpad, List.append_nil]
  rfl

/-! ### The words of the stream -/

/-- `DEC.decode` of a word is the feeding of its bits (R171). -/
theorem exec_decDecode {w : Bits} {s : State} (hc : s.dec.cfg.wf = true) (hw : w.length = s.dec.cfg.pw) :
    exec (.decDecode w) s = .next (s.fed (s.dec.feedBits w)) := by
  refine onDecoder_next.2 ⟨hc, by simpa using hw, ?_⟩
  rw [decodeWord_eq hc, ParamSet.ratio, ← hw]
  rfl

@[simp] theorem bitstream_nil : bitstream [] = [] := rfl

@[simp] theorem bitstream_cons (w : Bits) (ws : List Bits) : bitstream (w :: ws) = w ++ bitstream ws := rfl

@[simp] theorem bitstream_append (ws vs : List Bits) : bitstream (ws ++ vs) = bitstream ws ++ bitstream vs :=
  List.flatten_append

@[simp] theorem feedBits_nil (d : Decoder) : d.feedBits [] = ⟨d, [], none⟩ := by
  simp [Decoder.feedBits, Bits.chunks, Decoder.feed]

/-- Words decoded one after the other are the bits of all of them fed at once, where these raise no fault. -/
theorem runOps_decDecode (ws : List Bits) (s : State) (hc : s.dec.cfg.wf = true)
    (hw : ∀ w ∈ ws, w.length = s.dec.cfg.pw) (hret : s.ret = .done)
    (hn : (s.dec.feedBits (bitstream ws)).raised = none) :
    runOps (ws.map .decDecode) s = .next (s.fed (s.dec.feedBits (bitstream ws))) := by
  induction ws generalizing s with
  | nil =>
    rw [bitstream_nil, feedBits_nil, fed_self, ← hret]
    rfl
  | cons w ws ih =>
    obtain ⟨hw1, hws⟩ := List.forall_mem_cons.1 hw
    rw [bitstream_cons] at hn ⊢
    have hdvd : s.dec.cfg.sw ∣ w.length := hw1 ▸ wf_sw_dvd_pw hc
    have hcfg := feedBits_cfg s.dec w
    have hnw : (s.dec.feedBits w).raised = none := raised_none_of_feedBits_append _ _ _ hdvd hn
    have happ := feedBits_append s.dec w (bitstream ws) hdvd hnw
    rw [happ] at hn ⊢
    have hsplit : s.fed (s.dec.feedBits w) = s.fed ⟨(s.dec.feedBits w).dec, (s.dec.feedBits w).calls, none⟩ := by
      rw [← hnw]
    calc runOps ((w :: ws).map .decDecode) s
        = runOps (ws.map .decDecode) (s.fed (s.dec.feedBits w)) := by
          rw [List.map_cons, runOps, exec_decDecode hc hw1]
      _ = .next ((s.fed (s.dec.feedBits w)).fed ((s.dec.feedBits w).dec.feedBits (bitstream ws))) :=
          ih _ (by simpa [hcfg] using hc) (by simpa [hcfg] using hws) (by simp [hnw, Ret.ofRaised]) hn
      _ = _ := by rw [hsplit, fed_trans _ _ _ _ _ _ hcfg]

/-- Words that stand for one packed message and filler, decoded from a message boundary, deliver that message. -/
theorem runOps_decDecode_message {s : State} (hs : s.AtBoundary) (hret : s.ret = .done) {m : Msg}
    (hm : m.valid s.dec.cfg = true) {ws : List Bits} (hw : ∀ w ∈ ws, w.length = s.dec.cfg.pw) {k : Nat}
    (hbits : bitstream ws = pack s.dec.cfg m ++ s.dec.cfg.filler k) :
    runOps (ws.map .decDecode) s = .next (s.received m) := by
  have hd := boundary_holding hs
  obtain ⟨⟨hc, -⟩, hn, -⟩ := hs
  have hfed : s.dec.feedBits (bitstream ws) = s.dec.emit m := hbits ▸ feedBits_pack_filler s.dec hc hn hd hm k
  rw [runOps_decDecode ws s hc hw hret (by rw [hfed]; rfl), hfed]
  rfl

/-! ### What the Encoder pushes -/

/-- After a flush the sink stands for what it stood for, what was held, and filler (R153). -/
theorem flush_bitstream {e : Encoder} (h : e.Inv) :
    ∃ k, bitstream e.flush.sink = bitstream e.sink ++ e.held ++ e.cfg.filler k := by
  by_cases hf : e.fill = 0
  · have hheld : e.held = [] := by rw [← List.length_eq_zero_iff, h.aligned.2.1, hf]
    exact ⟨0, by simp [flush_empty hf, hheld, ParamSet.filler]⟩
  · refine ⟨e.cfg.ratio - e.fill / e.cfg.sw, ?_⟩
    rw [(flush_spec h hf).1]
    simp [bitstream, Encoder.flushWord, ParamSet.filler]

/-- `ENC.encode` of a fresh Encoder and `ENC.flush` push the packed message and filler (R156, for one message). -/
theorem fresh_encode_flush_bitstream {c : ParamSet} (hc : c.wf = true) {m : Msg} (hm : m.wf c = true) :
    ∃ k, bitstream ((Encoder.fresh c).encode m).flush.sink = pack c m ++ c.filler k := by
  obtain ⟨⟨hcfg, ws, hsink, -, -, hbits⟩, hinv⟩ := encode_emits (Encoder.fresh_inv c hc) m hm
  obtain ⟨k, hk⟩ := flush_bitstream hinv
  have hheld : (Encoder.fresh c).held = [] := by simp [Encoder.held, Bits.low]
  refine ⟨k, ?_⟩
  rw [hk, hcfg, hsink, Encoder.fresh_sink, List.nil_append, hbits, hheld]
  rfl

/-- `ENC.encode` and `ENC.flush` of a message of the dictionary (R151, R153). -/
theorem runOps_encode_flush {s : State} (hc : s.enc.cfg.wf = true) {m : Msg} (hm : m.wf s.enc.cfg = true) :
    runOps [.encEncode m, .encFlush] s = .next (s.encoded (s.enc.encode m).flush) := by
  have h1 : exec (.encEncode m) s = .next (s.encoded (s.enc.encode m)) := onEncoder_next.2 ⟨hc, hm, rfl⟩
  have h2 : exec .encFlush (s.encoded (s.enc.encode m)) = .next (s.encoded (s.enc.encode m).flush) :=
    onEncoder_next.2 ⟨by simpa using hc, rfl, rfl⟩
  simp only [runOps, h1, h2]

theorem resetWith_atBoundary (tx : ParamSet) {rx : ParamSet} (hc : rx.wf = true) :
    (State.resetWith tx rx).AtBoundary := ⟨Decoder.fresh_inv rx hc, rfl, rfl⟩

/-- An operation on the Encoder leaves the Decoder at its message boundary. -/
theorem encoded_atBoundary {s : State} (h : s.AtBoundary) (e : Encoder) : (s.encoded e).AtBoundary := h

/-- Settles O47: the words pushed stand for the packed message and filler (`fresh_encode_flush_bitstream`), and such
words deliver the message (`runOps_decDecode_message`) to a Decoder whose queue is empty. -/
theorem roundTripLaw : Obligations.RoundTripLaw := by
  intro c m hc hm
  have hwf : m.wf c = true := msg_wf_of_valid hm
  obtain ⟨k, hk⟩ := fresh_encode_flush_bitstream hc hwf
  obtain ⟨-, -, -, -, -, hwidth⟩ := flush_inv (encode_emits (Encoder.fresh_inv c hc) m hwf).2
  rw [flush_cfg, encode_cfg] at hwidth
  exact ⟨_, _, runOps_encode_flush hc hwf,
    runOps_decDecode_message (encoded_atBoundary (resetWith_atBoundary c hc) _) rfl hm hwidth hk, rfl, rfl, rfl⟩

end Sys2Proof
end

section
/-! PROOFS. The wire format (30_encoding.md R81, R86, R90, R93): the item decoder and the encoder are inverse. A row of a
named parameter set is taken to the generic row with the same bits and back, so the format is argued about once. -/

namespace Sys2Proof

/-- The generic row with the bits of a row of a named set; every other instruction stands for itself. -/
def Instr.generic : Instr → Instr
  | .ref8A => .msg 0 [] []
  | .ref8B p => .msg 1 [] (Bits.ofBitVec p)
  | .cfg16X z p => .msg 0 (Bits.ofBitVec z) (Bits.ofBitVec p)
  | .cfg16Y z p => .msg 1 (Bits.ofBitVec z) (Bits.ofBitVec p)
  | .cfg16Z z => .msg 2 (Bits.ofBitVec z) []
  | .cfg16W z p => .msg 3 (Bits.ofBitVec z) (Bits.ofBitVec p)
  | .cfg64P0 z => .msg 0 (Bits.ofBitVec z) []
  | .cfg64P1 p => .msg 1 [] (Bits.ofBitVec p)
  | .cfg64P2 z p => .msg 2 (Bits.ofBitVec z) (Bits.ofBitVec p)
  | .cfg64P3 z p => .msg 3 (Bits.ofBitVec z) (Bits.ofBitVec p)
  | .cfg64P4 z p => .msg 4 (Bits.ofBitVec z) (Bits.ofBitVec p)
  | .cfg3N0 z => .msg 0 (Bits.ofBitVec z) []
  | .cfg3N1 z p => .msg 1 (Bits.ofBitVec z) (Bits.ofBitVec p)
  | .cfg3N2 z p => .msg 2 (Bits.ofBitVec z) (Bits.ofBitVec p)
  | .cfg3N3 z p => .msg 3 (Bits.ofBitVec z) (Bits.ofBitVec p)
  | .cfg3N4 p => .msg 4 [] (Bits.ofBitVec p)
  | .cfgsS p => .msg 0 [] (Bits.ofBitVec p)
  | .cfgsT z p => .msg 1 (Bits.ofBitVec z) (Bits.ofBitVec p)
  | .cfgsU z p => .msg 2 (Bits.ofBitVec z) (Bits.ofBitVec p)
  | .cfg1Only p => .msg 0 [] (Bits.ofBitVec p)
  | .ref8Pad x | .cfg16Pad x | .cfgsPad x => .pad (Bits.ofBitVec x)
  | .cfg64Pad x => .pad (Bits.ofBitVec x)
  | .cfg3Pad x | .cfg1Pad x => .pad (Bits.ofBitVec x)
  | i => i

/-- The row of the set `n` with the bits of a generic row (R86, R90); an illegal header has the generic row alone. -/
def Instr.rowIn (n : Option SetName) : Instr → Instr
  | .msg i z p => msgRow n i z p
  | .pad x => padRow n x
  | i => i

/-- A generic wire item: what `decodeRow` reads, before the row of the parameter set is looked up. -/
def Instr.IsGeneric (i : Instr) : Prop := (∃ k z p, i = .msg k z p) ∨ (∃ x, i = .pad x) ∨ ∃ h t, i = .illegalHeader h t

theorem isRowOf_iff {c : ParamSet} {i : Instr} : i.isRowOf c = true ↔
    (∃ h t, i = .illegalHeader h t) ∨ ((encode c i).isSome = true ∧ i.rowSet = setName? c) := by
  unfold Instr.isRowOf
  split
  · simp
  · rename_i hne
    simpa using fun h t hi => absurd hi (hne h t)

/-! ### A row and its generic row -/

theorem generic_isGeneric {c : ParamSet} {i : Instr} (h : (encode c i).isSome = true) : i.generic.IsGeneric := by
  cases i <;> simp_all [encode, Instr.generic, Instr.IsGeneric]

theorem named_hw {c : ParamSet} {n : SetName} (h : setName? c = some n) : c.hw = n.params.hw := by
  rw [setName_eq h]
  rfl

theorem named_dict {c : ParamSet} {n : SetName} (h : setName? c = some n) : c.dict = n.params.dict := by
  rw [setName_eq h]

theorem named_ww {c : ParamSet} {n : SetName} (h : setName? c = some n) (e : Entry) : c.ww e = n.params.ww e := by
  rw [setName_eq h]
  rfl

theorem named_sw {c : ParamSet} {n : SetName} (h : setName? c = some n) : c.sw = n.params.sw := by
  rw [setName_eq h]

@[simp] theorem ref8_hw : SetName.ref8.params.hw = 8 := by decide
@[simp] theorem cfg16_hw : SetName.cfg16.params.hw = 3 := by decide
@[simp] theorem cfg64_hw : SetName.cfg64.params.hw = 8 := by decide
@[simp] theorem cfg3_hw : SetName.cfg3.params.hw = 4 := by decide
@[simp] theorem cfgs_hw : SetName.cfgs.params.hw = 8 := by decide
@[simp] theorem cfg1_hw : SetName.cfg1.params.hw = 1 := by decide

theorem generic_of_rowSet_none {i : Instr} (h : i.rowSet = none) : i.generic = i := by
  cases i <;> simp_all [Instr.rowSet, Instr.generic]

/-- A row of `c` has the bits of its generic row. -/
theorem encode_generic {c : ParamSet} {i : Instr} (h : i.rowSet = none ∨ i.rowSet = setName? c) :
    encode c i.generic = encode c i := by
  cases hn : i.rowSet with
  | none => rw [generic_of_rowSet_none hn]
  | some n =>
    have hc : setName? c = some n := (hn ▸ h.resolve_left (by simp [hn])).symm
    cases i <;> cases hn <;> simp [Instr.generic, encode, named_hw hc, rowBits, padBits] <;> rfl

/-- The fields of a row of a named set have that set's widths (R84). -/
theorem generic_widthsOk {c : ParamSet} {i : Instr} (hi : i.widthsOk c = true)
    (h : i.rowSet = none ∨ i.rowSet = setName? c) : i.generic.widthsOk c = true := by
  cases hn : i.rowSet with
  | none => rwa [generic_of_rowSet_none hn]
  | some n =>
    have hc : setName? c = some n := (hn ▸ h.resolve_left (by simp [hn])).symm
    cases i <;> cases hn <;> simp [Instr.generic, Instr.widthsOk, named_hw hc, named_dict hc, named_ww hc, named_sw hc]
      <;> decide

/-- The row of a set is found again from its generic row. -/
theorem rowIn_generic {n : Option SetName} {i : Instr} (h : i.rowSet = n) : i.generic.rowIn n = i := by
  subst h
  cases i <;> simp [Instr.generic, Instr.rowIn, msgRow, padRow, Instr.rowSet, bits_toBitVec_ofBitVec]

theorem isRowOf_rowIn_generic {c : ParamSet} {i : Instr} (h : i.isRowOf c = true) :
    i.generic.rowIn (setName? c) = i ∧ (i.rowSet = none ∨ i.rowSet = setName? c) := by
  rcases isRowOf_iff.1 h with ⟨k, t, rfl⟩ | ⟨-, h⟩
  · exact ⟨rfl, Or.inl rfl⟩
  · exact ⟨rowIn_generic h, Or.inr h⟩

/-! ### Decoding inverts encoding -/

/-- The fields of a generic message fit `c` exactly when they have the entry's widths (R86). -/
theorem msg_widthsOk_iff {c : ParamSet} {i : Nat} {z p : Bits} : (Instr.msg i z p).widthsOk c = true ↔
    ∃ e, c.dict[i]? = some e ∧ p.length = e.size ∧ z.length = c.ww e - c.hw - e.size := by
  cases h : c.dict[i]? <;> simp [Instr.widthsOk, h]

theorem pad_widthsOk_iff {c : ParamSet} {x : Bits} : (Instr.pad x).widthsOk c = true ↔ x.length + 1 = c.sw := by
  simp [Instr.widthsOk]

theorem illegalHeader_widthsOk_iff {c : ParamSet} {h : Nat} {t : Bits} :
    (Instr.illegalHeader h t).widthsOk c = true ↔
      c.n ≤ h ∧ h < 2 ^ (c.hw - 1) ∧ t.length + c.hw = roundUp c.hw c.sw := by
  simp [Instr.widthsOk, and_assoc]

/-- The decoder reads back the bits of a generic row whose fields fit, and answers the set's row with these fields. -/
theorem decodeRow_generic {c : ParamSet} (hc : c.wf = true) (n : Option SetName) {j : Instr} (hj : j.IsGeneric)
    (hw : j.widthsOk c = true) {b : Bits} (hb : encode c j = some b) (rest : Bits) :
    decodeRow n c (b ++ rest) = .ok (j.rowIn n, rest) := by
  rcases hj with ⟨k, z, p, rfl⟩ | ⟨x, rfl⟩ | ⟨k, t, rfl⟩
  · obtain ⟨e, he, hp, hz⟩ := msg_widthsOk_iff.1 hw
    cases hb
    exact decodeRow_msg hc n k z p rest e he hp hz
  · cases hb
    exact decodeRow_pad hc n x rest (pad_widthsOk_iff.1 hw)
  · obtain ⟨hN, hlt, ht⟩ := illegalHeader_widthsOk_iff.1 hw
    cases hb
    exact decodeRow_illegal hc n k t rest hN hlt ht

/-- Settles O7: the row's bits are those of its generic row, which the decoder reads back whatever follows, and the row
the decoder then looks up is the one encoded. -/
theorem decodeInvertsEncode : Obligations.DecodeInvertsEncode := by
  intro c i b rest hc hw hi hb
  obtain ⟨hrow, hset⟩ := isRowOf_rowIn_generic hi
  have hg : i.generic.IsGeneric := generic_isGeneric (by rw [hb]; rfl)
  have h := decodeRow_generic hc (setName? c) hg (generic_widthsOk hw hset) ((encode_generic hset).trans hb) rest
  rwa [hrow] at h

/-! ### Encoding inverts decoding -/

/-- What the row of `c` with the fields of the generic row `j` is. -/
def IsRowWith (c : ParamSet) (j i : Instr) : Prop :=
  i.generic = j ∧ i.rowSet = setName? c ∧ i.widthsOk c = true

theorem padRow_isRowWith {c : ParamSet} {x : Bits} (hx : x.length + 1 = c.sw) :
    IsRowWith c (.pad x) (padRow (setName? c) x) := by
  unfold IsRowWith
  cases hn : setName? c with
  | none => exact ⟨rfl, rfl, pad_widthsOk_iff.2 hx⟩
  | some n =>
    rw [named_sw hn] at hx
    have hl : x.length = n.params.sw - 1 := by omega
    cases n <;> exact ⟨congrArg Instr.pad (bits_ofBitVec_toBitVec _ x hl), rfl, rfl⟩

theorem msgRow_isRowWith {c : ParamSet} {i : Nat} {z p : Bits} {e : Entry} (he : c.dict[i]? = some e)
    (hp : p.length = e.size) (hz : z.length = c.ww e - c.hw - e.size) :
    IsRowWith c (.msg i z p) (msgRow (setName? c) i z p) := by
  unfold IsRowWith
  cases hn : setName? c with
  | none => exact ⟨rfl, rfl, msg_widthsOk_iff.2 ⟨e, he, hp, hz⟩⟩
  | some n =>
    rw [named_dict hn] at he
    rw [named_ww hn, named_hw hn] at hz
    obtain ⟨hi, rfl⟩ := List.getElem?_eq_some_iff.1 he
    cases n
    all_goals
      simp only [SetName.params, ref8, cfg16, cfg64, cfg3, cfgs, cfg1, List.length_cons, List.length_nil] at hi
      interval_cases i
    all_goals
      simp [ParamSet.ww, roundUp] at hz hp
      simp [SetName.params, ref8, cfg16, cfg64, cfg3, cfgs, cfg1, Entry.raw] at hz hp
      simp [msgRow, Instr.generic, Instr.rowSet, Instr.widthsOk, bits_ofBitVec_toBitVec, hz, hp]

/-- The row of `c` with the fields of a generic row that fit: it has them, and its bits are the generic row's. -/
theorem rowIn_spec {c : ParamSet} {j : Instr} (hj : j.IsGeneric) (hw : j.widthsOk c = true) {b : Bits}
    (hb : encode c j = some b) : encode c (j.rowIn (setName? c)) = some b ∧
      (j.rowIn (setName? c)).widthsOk c = true ∧ (j.rowIn (setName? c)).isRowOf c = true := by
  have key : ∀ i, IsRowWith c j i → encode c i = some b ∧ i.widthsOk c = true ∧ i.isRowOf c = true := by
    rintro i ⟨rfl, hset, hwi⟩
    have he := (encode_generic (Or.inr hset)).symm.trans hb
    exact ⟨he, hwi, isRowOf_iff.2 (Or.inr ⟨by rw [he]; rfl, hset⟩)⟩
  rcases hj with ⟨k, z, p, rfl⟩ | ⟨x, rfl⟩ | ⟨k, t, rfl⟩
  · obtain ⟨e, he, hp, hz⟩ := msg_widthsOk_iff.1 hw
    exact key _ (msgRow_isRowWith he hp hz)
  · exact key _ (padRow_isRowWith (pad_widthsOk_iff.1 hw))
  · exact ⟨hb, hw, rfl⟩

/-- The bits before position `b` are those before `a` and those between. -/
theorem take_eq_take_append {α : Type} (l : List α) {a b : Nat} (h : a ≤ b) :
    l.take b = l.take a ++ (l.take b).drop a := by
  conv_lhs => rw [← List.take_append_drop a (l.take b), List.take_take, min_eq_left h]

/-- A header field is the numeral of its value. -/
theorem ofNat_header {c : ParamSet} {raw : Bits} (h : c.hw ≤ raw.length) :
    Bits.ofNat c.hw (Bits.toNat (raw.take c.hw)) = raw.take c.hw := by
  have hl : (raw.take c.hw).length = c.hw := by simp [h]
  have hn := bits_ofNat_toNat (raw.take c.hw)
  rwa [hl] at hn

/-- What the decoder answers is the set's row of a generic row whose fields fit and whose bits stood in front. -/
theorem decodeRow_ok {n : Option SetName} {c : ParamSet} {raw rest : Bits} {i : Instr}
    (h : decodeRow n c raw = .ok (i, rest)) :
    ∃ j b, j.IsGeneric ∧ j.widthsOk c = true ∧ i = j.rowIn n ∧ encode c j = some b ∧ raw = b ++ rest := by
  unfold decodeRow at h
  split at h
  · cases h
  rename_i hc
  replace hc : c.wf = true := by simpa using hc
  have hpos := hw_pos hc
  split at h
  · cases h
  split at h
  · rename_i hlen htop
    cases h
    have hcons : raw.take c.sw = true :: (raw.take c.sw).drop 1 := by
      have := wf_sw hc
      cases raw with
      | nil => simp [Bits.top] at htop
      | cons y r =>
        obtain ⟨k, hk⟩ : ∃ k, c.sw = k + 1 := ⟨c.sw - 1, by omega⟩
        simpa [hk, Bits.top] using htop
    have hl := congrArg List.length hcons
    refine ⟨.pad _, _, Or.inr (Or.inl ⟨_, rfl⟩), pad_widthsOk_iff.2 ?_, rfl, rfl, ?_⟩
    · simp at hl ⊢
      omega
    · rw [← hcons, List.take_append_drop]
  rename_i htop
  split at h
  · cases h
  rename_i hlen
  have hup := roundUp_ge c.hw c.sw (wf_sw hc)
  have hhead := ofNat_header (c := c) (raw := raw) (by omega)
  split at h
  · rename_i he
    cases h
    refine ⟨.illegalHeader _ _, _, Or.inr (Or.inr ⟨_, _, rfl⟩), illegalHeader_widthsOk_iff.2 ⟨?_, ?_, ?_⟩, rfl, rfl, ?_⟩
    · exact List.getElem?_eq_none_iff.1 he
    · exact Machine.header_lt_half hpos (by omega) (by simpa using htop)
    · simp
      omega
    · rw [hhead, ← take_eq_take_append raw hup, List.take_append_drop]
  rename_i e he
  split at h
  · cases h
  rename_i hww
  cases h
  have hf := field_le_ww hc e
  refine ⟨.msg _ _ _, _, Or.inl ⟨_, _, _, rfl⟩, msg_widthsOk_iff.2 ⟨e, he, ?_, ?_⟩, rfl, rfl, ?_⟩
  · simp
    omega
  · simp
    omega
  · rw [hhead, ← List.append_assoc, ← take_eq_take_append raw (show c.hw ≤ c.ww e - e.size by omega),
      ← take_eq_take_append raw (show c.ww e - e.size ≤ c.ww e by omega), List.take_append_drop]

/-- Settles O8: what is decoded is the set's row of a generic row that stood in front of the bits left, and the two have
the same bits. -/
theorem encodeInvertsDecode : Obligations.EncodeInvertsDecode := by
  intro c i raw rest h
  obtain ⟨j, b, hj, hw, rfl, hb, hraw⟩ := decodeRow_ok h
  obtain ⟨he, hwi, hi⟩ := rowIn_spec hj hw hb
  exact ⟨b, he, hraw, hwi, hi⟩

/-- Settles O1: seven closed instances, each evaluated. -/
theorem specWordsDecodeToTheirRows : Obligations.SpecWordsDecodeToTheirRows := by
  unfold Obligations.SpecWordsDecodeToTheirRows
  decide

end Sys2Proof
end

section
/-! PROOFS. `round_up` and `clog2` (00_scope.md R12, R13), and the payload codecs (40_payload_codecs.md). -/

namespace Sys2Proof

open Machine

/-! ### Integer functions -/

/-- Settles O2: the multiple is at or above `x` and every other such multiple is at or above it. -/
theorem roundUpIsTheLeastMultiple : Obligations.RoundUpIsTheLeastMultiple := by
  intro x a ha
  refine ⟨roundUp_dvd x a, roundUp_ge x a ha, fun m hm hx => roundUp_le x a m ha hm hx, rfl, ?_⟩
  exact Nat.le_zero.1 (roundUp_le 0 a 0 ha (dvd_zero a) le_rfl)

/-- Settles O3: the search from 0 upwards finds an exponent that reaches `n`, and none below it does. -/
theorem clogIsTheLeastExponent : Obligations.ClogIsTheLeastExponent := by
  refine ⟨fun n _ => ⟨clog2_spec n, fun k hk => clog2_least n k hk⟩, ?_⟩
  decide

/-! ### Number payloads -/

theorem exec_numberEncode {t : IntType} {size : Nat} {v : Int} {s : State} (ht : t.wf = true)
    (hv : t.contains v = true) :
    exec (.numberEncode t size v) s = .next (s.answer (.bits (numberEncode t size v))) :=
  guarded_true (by rw [ht, hv]; rfl) _ _

theorem exec_numberDecode {t : IntType} {b : Bits} {s : State} (ht : t.wf = true) :
    exec (.numberDecode t b) s = .next (s.answer (.int (numberDecode t b))) :=
  guarded_true ht _ _

/-- Settles O10: both guards hold, and the bits answered have the width and the value R113 gives. -/
theorem numberEncodeGivesTheLowBits : Obligations.NumberEncodeGivesTheLowBits := by
  intro t size v s ht hv
  exact ⟨numberEncode t size v, exec_numberEncode ht hv, numberEncode_length t size v, numberEncode_toNat t size v⟩

/-- Settles O11: the guard holds, and `numberDecode_eq` says which integer is read. -/
theorem numberDecodeReadsTheType : Obligations.NumberDecodeReadsTheType := by
  intro t b s ht
  rw [exec_numberDecode ht, numberDecode_eq t b ht]
  rfl

/-- Settles O12: the round trip keeps a value exactly when the type or the value fits the payload. -/
theorem numberValidValues : Obligations.NumberValidValues :=
  fun t size v ht hv => number_roundtrip_iff t size v ht hv

/-! ### Ranged payloads -/

theorem rangedMake_inside {inst : String} {min max v : Int} (h : min ≤ v ∧ v ≤ max) :
    rangedMake inst min max v = .ok v :=
  if_neg (by omega)

theorem rangedMake_outside {inst : String} {min max v : Int} (h : v < min ∨ max < v) :
    rangedMake inst min max v = .error (.payloadOutOfRange inst v) :=
  if_pos h

theorem boundsWf_iff {t : IntType} {min max : Int} : t.boundsWf min max = true ↔
    t.wf = true ∧ min ≤ max ∧ t.contains min = true ∧ t.contains max = true := by
  simp [IntType.boundsWf, and_assoc]

/-- The values of a type are an interval, so what lies between two of them is one. -/
theorem contains_of_between {t : IntType} {lo hi v : Int} (hlo : t.contains lo = true) (hhi : t.contains hi = true)
    (h : lo ≤ v ∧ v ≤ hi) : t.contains v = true := by
  simp only [IntType.contains, Bool.and_eq_true, decide_eq_true_eq] at hlo hhi ⊢
  omega

theorem exec_rangedMake {inst : String} {t : IntType} {min max v : Int} {s : State} (hb : t.boundsWf min max = true)
    (hv : t.contains v = true) :
    exec (.rangedMake inst t min max v) s = .next (s.answer (Ret.ofRanged (rangedMake inst min max v))) :=
  guarded_true (by rw [hb, hv]; rfl) _ _

theorem exec_rangedEncode {t : IntType} {min max v : Int} {size : Nat} {s : State} (hb : t.boundsWf min max = true)
    (hv : min ≤ v ∧ v ≤ max) :
    exec (.rangedEncode t min max size v) s = .next (s.answer (.bits (numberEncode t size v))) :=
  guarded_true (by simp [hb, hv]) _ _

theorem exec_rangedDecode {inst : String} {t : IntType} {min max : Int} {b : Bits} {s : State}
    (hb : t.boundsWf min max = true) : exec (.rangedDecode inst t min max b) s =
      .next (s.answer (Ret.ofRanged (rangedMake inst min max (numberDecode t b)))) :=
  guarded_true hb _ _

/-- Settles O13: `RANGED.make` answers its own comparison with the two bounds. -/
theorem rangedMakeChecksTheBound : Obligations.RangedMakeChecksTheBound := by
  intro inst t min max v s hb hv
  refine ⟨fun h => ?_, fun h => ?_⟩
  · rw [exec_rangedMake hb hv, rangedMake_inside h]
    rfl
  · rw [exec_rangedMake hb hv, rangedMake_outside h]
    rfl

/-- Settles O14: a value inside the bound is one of the type, so `NUMBER.encode` takes it too and both give its bits;
`RANGED.decode` gives what `RANGED.make` makes of the number `NUMBER.decode` reads. -/
theorem rangedCodecIsTheNumberCodecChecked : Obligations.RangedCodecIsTheNumberCodecChecked := by
  intro inst t min max s hb
  obtain ⟨ht, -, hmin, hmax⟩ := boundsWf_iff.1 hb
  refine ⟨fun size v h1 h2 => ?_, fun b v hv => ?_⟩
  · have hv : t.contains v = true := contains_of_between hmin hmax ⟨h1, h2⟩
    exact ⟨numberEncode t size v, exec_rangedEncode hb ⟨h1, h2⟩, exec_numberEncode ht hv,
      numberEncode_length t size v, numberEncode_toNat t size v⟩
  · have hread : numberDecode t b = v := by
      rw [exec_numberDecode ht] at hv
      injection hv with hv
      exact Ret.int.inj (congrArg State.ret hv)
    refine ⟨fun h => ?_, fun h => ?_⟩
    · rw [exec_rangedDecode hb, hread, rangedMake_inside h]
      rfl
    · rw [exec_rangedDecode hb, hread, rangedMake_outside h]
      rfl

/-! ### Payloads of every kind -/

/-- The premise of R120: the type or the value of a number fits the payload. -/
def Payload.Fits (e : Entry) (p : Payload) : Prop :=
  match e.kind, p with
  | .number t, .int v => t.width ≤ e.size ∨ (0 ≤ v ∧ v < 2 ^ e.size)
  | .ranged t _ _, .int v => t.width ≤ e.size ∨ (0 ≤ v ∧ v < 2 ^ e.size)
  | _, _ => True

/-- A payload value that fits is valid (R115). -/
theorem payload_valid_of_fits {e : Entry} {p : Payload} (he : e.kind.wf = true) (hp : Payload.wf e p = true)
    (hfit : Payload.Fits e p) : Payload.valid e p = true := by
  have ht := payload_typed_of_wf hp
  unfold Payload.valid
  rw [hp, Bool.true_and]
  unfold Payload.typed at ht
  unfold Payload.Fits at hfit
  cases hk : e.kind <;> cases p <;> simp only [hk, Kind.wf] at he hfit ht ⊢
  · exact decide_eq_true ((number_roundtrip_iff _ _ _ he ht).2 hfit)
  · exact decide_eq_true ((number_roundtrip_iff _ _ _ (boundsWf_iff.1 he).1 ht).2 hfit)

/-- Settles O15: a payload that fits is valid, and a valid one survives its codec. -/
theorem codecRoundTrip : Obligations.CodecRoundTrip := by
  intro e p he hp hfit
  exact ⟨encodePayload_length e p (payload_typed_of_wf hp),
    decodePayload_encodePayload e p (payload_valid_of_fits he hp hfit)⟩

end Sys2Proof
end

section
/-! PROOFS. The message packer (41_message_packer.md R134 to R138) and equality of payloads (40_payload_codecs.md R119). -/

namespace Sys2Proof

open Machine

/-! ### Packing -/

theorem exec_msgPack {d : Direction} {m : Msg} {s : State} (hc : (s.cfgOf d).wf = true)
    (hm : m.wf (s.cfgOf d) = true) : exec (.msgPack d m) s = .next (s.answer (.bits (pack (s.cfgOf d) m))) := by
  change execMsgPack d m s = _
  rw [execMsgPack, guarded_true hc, guarded_true hm]

/-- A packed message as an integer: the index above, the payload below (R134). -/
theorem packEntry_toNat {c : ParamSet} (hc : c.wf = true) {i : Nat} {e : Entry} (he : c.dict[i]? = some e) {p : Payload}
    (hp : Payload.typed e p = true) :
    Bits.toNat (packEntry c i e p) = i * 2 ^ (c.ww e - c.hw) + Bits.toNat (encodePayload e p) := by
  have hlen : c.ww e - c.hw - e.size + e.size = c.ww e - c.hw := by
    have := field_le_ww hc e
    omega
  rw [packEntry, List.append_assoc, bits_toNat_append, bits_toNat_append, header_toNat hc i (index_lt_n he),
    List.length_append, zeros_length, encodePayload_length e p hp, hlen, bits_toNat_zeros, Nat.zero_mul, Nat.zero_add]

/-- Settles O17: the message passes both guards of `MSG.pack`, and what is packed is its entry's layout. -/
theorem packLaysOutHeaderPaddingPayload : Obligations.PackLaysOutHeaderPaddingPayload := by
  intro d m e s hc he hp
  have ht := payload_typed_of_wf hp
  have hm : m.wf (s.cfgOf d) = true := (msg_wf_iff _ _).2 ⟨e, he, hp⟩
  refine ⟨packEntry (s.cfgOf d) m.idx e m.payload, _, ?_, rfl, encodePayload_length e _ ht,
    packEntry_length hc _ e _ ht, rfl, packEntry_toNat hc he ht⟩
  rw [exec_msgPack hc hm, pack_eq he]
  rfl

/-! ### Unpacking -/

theorem exec_msgUnpack {d : Direction} {raw : Bits} {s : State} (hc : (s.cfgOf d).wf = true) :
    exec (.msgUnpack d raw) s = s.unpacked (unpack (s.cfgOf d) raw) :=
  guarded_true hc _ _

section
variable {c : ParamSet} {raw : Bits} (hlen : c.hw ≤ raw.length)
include hlen

/-- Bits whose first bit is 1 are not a message (R135). -/
theorem unpack_top (ht : Bits.top raw = true) : unpack c raw = .notMessage := by
  simp [unpack, Nat.not_lt.2 hlen, ht]

/-- A header that is no instruction's is raised (R135). -/
theorem unpack_unknown (ht : Bits.top raw = false) (hn : c.n ≤ Bits.toNat (Bits.high c.hw raw)) :
    unpack c raw = .raised (.unknownHeader (Bits.toNat (Bits.high c.hw raw))) := by
  have hnone : c.dict[Bits.toNat (Bits.high c.hw raw)]? = none := List.getElem?_eq_none hn
  simp [unpack, Nat.not_lt.2 hlen, ht, hnone]

section
variable (ht : Bits.top raw = false) {e : Entry} (he : c.dict[Bits.toNat (Bits.high c.hw raw)]? = some e)
  (hww : raw.length = c.ww e)
include ht he hww

/-- The bits of one message whose payload decodes are that message (R135). -/
theorem unpack_ok {p : Payload} (hp : decodePayload e (Bits.low e.size raw) = .ok p) :
    unpack c raw = .msg ⟨Bits.toNat (Bits.high c.hw raw), p⟩ := by
  simp only [unpack, Nat.not_lt.2 hlen, ht, he, if_pos hww, if_false, Bool.false_eq_true, hp]

/-- The bits of one message whose payload is out of its bound are faulted on (R135). -/
theorem unpack_error {f : BlockFault} (hf : decodePayload e (Bits.low e.size raw) = .error f) :
    unpack c raw = .raised f := by
  simp only [unpack, Nat.not_lt.2 hlen, ht, he, if_pos hww, if_false, Bool.false_eq_true, hf]

end

/-- A header that names an entry has its top bit clear (30_encoding.md R83). -/
theorem top_of_known_header (hc : c.wf = true) (h : Bits.toNat (Bits.high c.hw raw) < c.n) : Bits.top raw = false := by
  have hl : (Bits.high c.hw raw).length = c.hw := by simpa [Bits.high] using hlen
  have hiff := bits_top_iff (Bits.high c.hw raw) (by rw [hl]; exact hw_pos hc)
  rw [top_high c.hw raw (hw_pos hc), hl] at hiff
  have := n_le_pow hc
  rw [← Bool.not_eq_true, hiff]
  omega

end

/-- A ranged payload whose number is outside the bound is faulted on (R118). -/
theorem decodePayload_outside {e : Entry} {t : IntType} {min max : Int} {b : Bits} (hk : e.kind = .ranged t min max)
    (h : numberDecode t b < min ∨ max < numberDecode t b) :
    decodePayload e b = .error (.payloadOutOfRange e.name (numberDecode t b)) := by
  simp [decodePayload, hk, rangedDecode, rangedMake_outside h]

/-- Settles O18: the first bit, the header's entry and the payload decide in this order which answer `MSG.unpack`
gives. -/
theorem unpackReadsHeaderAndPayload : Obligations.UnpackReadsHeaderAndPayload := by
  intro d raw s hc hlen
  rw [exec_msgUnpack hc]
  refine ⟨fun ht => ?_, fun ht hn => ⟨?_, ?_⟩, fun e he hww => ?_⟩
  · rw [unpack_top hlen ht]
    rfl
  · rw [unpack_unknown hlen ht hn]
    rfl
  · exact header_lt_half (hw_pos hc) hlen ht
  · have ht := top_of_known_header hlen hc (index_lt_n he)
    refine ⟨fun p hp => ?_, fun t min max hk hout => ?_⟩
    · rw [unpack_ok hlen ht he hww hp]
      rfl
    · rw [unpack_error hlen ht he hww (decodePayload_outside hk hout)]
      rfl

/-! ### Making -/

theorem find_index {c : ParamSet} {i : Nat} {e : Entry} (he : c.dict[i]? = some e) : c.find (.index i) = some i :=
  if_pos (index_lt_n he)

theorem exec_msgMake {d : Direction} {r : InstrRef} {i : Nat} {e : Entry} {p : Payload} {s : State}
    (hc : (s.cfgOf d).wf = true) (hr : (s.cfgOf d).find r = some i) (he : (s.cfgOf d).dict[i]? = some e) :
    exec (.msgMake d r p) s = s.made i e p := by
  change execMsgMake d r p s = _
  rw [execMsgMake, guarded_true hc, hr]
  simp only [he]

/-- A payload value of the entry is made into its message. -/
theorem made_of_wf {s : State} {i : Nat} {e : Entry} {p : Payload} (hp : Payload.wf e p = true) :
    s.made i e p = .next (s.answer (.msg ⟨i, p⟩)) := by
  unfold State.made
  rw [guarded_true (payload_typed_of_wf hp)]
  have hin : e.kind.inBound p = true := (Bool.and_eq_true _ _ ▸ hp).2
  cases hk : e.kind with
  | bitset => rfl
  | number t => rfl
  | ranged t min max =>
    cases p with
    | bits b => rfl
    | int v =>
      simp only [hk, Kind.inBound, Bool.and_eq_true, decide_eq_true_eq] at hin
      simp only [rangedMake_inside hin]

/-- A value of a ranged entry's type outside the bound is raised to the caller. -/
theorem made_outside {s : State} {i : Nat} {e : Entry} {t : IntType} {min max v : Int} (hk : e.kind = .ranged t min max)
    (hv : t.contains v = true) (h : v < min ∨ max < v) :
    s.made i e (.int v) = .next (s.answer (.raised (.fault (.payloadOutOfRange e.name v)))) := by
  have ht : Payload.typed e (.int v) = true := by simpa [Payload.typed, hk] using hv
  unfold State.made
  rw [guarded_true ht, hk]
  simp only [rangedMake_outside h]

/-- Settles O19: the entry's name and its index both stand for the index, and making checks the bound. -/
theorem makeByNameOrIndex : Obligations.MakeByNameOrIndex := by
  intro d i e p s hc he
  have hname := find_name hc he
  have hindex := find_index he
  refine ⟨fun hp => ?_, fun t min max v hk hv hout => ?_⟩
  · rw [exec_msgMake hc hname he, exec_msgMake hc hindex he, made_of_wf hp]
    exact ⟨rfl, rfl⟩
  · rw [exec_msgMake hc hname he, exec_msgMake hc hindex he, made_outside hk hv hout]
    exact ⟨rfl, rfl⟩

/-! ### Equality -/

/-- On payloads of one instruction `PAYLOAD.eq` is equality: the kind decides which constructor both have (R119). -/
theorem payloadEq_eq_decide {e : Entry} {p q : Payload} (hp : Payload.typed e p = true)
    (hq : Payload.typed e q = true) : payloadEq p q = decide (p = q) := by
  unfold Payload.typed at hp hq
  cases hk : e.kind <;> cases p <;> cases q <;> simp_all [payloadEq]

/-- `MSG.eq` compares the index, and the payload where it has any bits (R137). -/
theorem msgEq_eq_decide {c : ParamSet} {m k : Msg} {e : Entry} (hm : m.wf c = true) (hk : k.wf c = true)
    (he : c.dict[m.idx]? = some e) :
    msgEq c m k = decide (m.idx = k.idx ∧ (e.size = 0 ∨ m.payload = k.payload)) := by
  obtain ⟨em, hem, hpm⟩ := (msg_wf_iff c m).1 hm
  obtain ⟨ek, hek, hpk⟩ := (msg_wf_iff c k).1 hk
  by_cases hidx : m.idx = k.idx
  · rw [← hidx, hem] at hek
    cases hek
    rw [hem] at he
    cases he
    have hp := payloadEq_eq_decide (payload_typed_of_wf hpm) (payload_typed_of_wf hpk)
    simp [msgEq, hidx, hidx ▸ hem, hp, Bool.decide_or, beq_eq_decide]
  · simp [msgEq, hidx]

/-- Settles O20: the guards hold, and each comparison is equality as `payloadEq_eq_decide` and `msgEq_eq_decide` say. -/
theorem equalityOfPayloadsAndMessages : Obligations.EqualityOfPayloadsAndMessages := by
  refine ⟨fun e p q s he hp hq => ?_, fun d m k e s hc hm hk he => ?_⟩
  · change execPayloadEq e p q s = _
    rw [execPayloadEq, guarded_true (by rw [he, hp, hq]; rfl),
      payloadEq_eq_decide (payload_typed_of_wf hp) (payload_typed_of_wf hq)]
    rfl
  · change execMsgEq d m k s = _
    rw [execMsgEq, guarded_true hc, guarded_true (by rw [hm, hk]; rfl), msgEq_eq_decide hm hk he]
    rfl

/-! ### Packing and unpacking -/

/-- A valid message is unpacked from its packed form (R138). -/
theorem unpack_pack {c : ParamSet} (hc : c.wf = true) {m : Msg} (hm : m.valid c = true) :
    unpack c (pack c m) = .msg m := by
  obtain ⟨e, he, hv⟩ := (msg_valid_iff c m).1 hm
  have ht := payload_typed_of_wf (payload_wf_of_valid hv)
  have hww := pack_length hc he ht
  have hhead := pack_header hc he
  have hlen : c.hw ≤ (pack c m).length := by
    have := field_le_ww hc e
    omega
  have hdec : decodePayload e (Bits.low e.size (pack c m)) = .ok m.payload := by
    rw [pack_payload he ht, decodePayload_encodePayload e _ hv]
  rw [unpack_ok hlen (pack_top hc he) (hhead.symm ▸ he) hww hdec, hhead]

/-- What `MSG.unpack` accepted: the bits of one message, their header the index and their payload decoded. -/
theorem unpack_msg {c : ParamSet} {raw : Bits} {m : Msg} {e : Entry} (h : unpack c raw = .msg m)
    (he : c.dict[m.idx]? = some e) : c.hw ≤ raw.length ∧ Bits.toNat (Bits.high c.hw raw) = m.idx ∧
      raw.length = c.ww e ∧ decodePayload e (Bits.low e.size raw) = .ok m.payload := by
  unfold unpack at h
  split at h
  · cases h
  rename_i hlen
  split at h
  · cases h
  split at h
  · cases h
  rename_i e' he'
  split at h
  · rename_i hww
    split at h
    · rename_i p hp
      cases h
      rw [he'] at he
      cases he
      exact ⟨Nat.le_of_not_lt hlen, rfl, hww, hp⟩
    · cases h
  · cases h

theorem readBits_le_size (e : Entry) : readBits e ≤ e.size := by
  unfold readBits
  split <;> omega

/-- The low bits of the low bits. -/
theorem bits_low_low {m n : Nat} (v : Bits) (h : m ≤ n) (hn : n ≤ v.length) : Bits.low m (Bits.low n v) = Bits.low m v := by
  simp only [Bits.low, List.drop_drop, List.length_drop]
  congr 1
  omega

/-- Packing what was unpacked gives the header and the payload bits that are read, with zeros between (R138). -/
theorem pack_unpacked {c : ParamSet} (hc : c.wf = true) {raw : Bits} {m : Msg} {e : Entry} (h : unpack c raw = .msg m)
    (he : c.dict[m.idx]? = some e) :
    pack c m = raw.take c.hw ++ zeros (c.ww e - c.hw - readBits e) ++ Bits.low (readBits e) raw := by
  obtain ⟨hlen, hidx, hww, hdec⟩ := unpack_msg h he
  have hf := field_le_ww hc e
  have hr := readBits_le_size e
  have hhead : c.header m.idx = raw.take c.hw := by
    rw [← hidx]
    exact ofNat_header hlen
  have hlow : (Bits.low e.size raw).length = e.size := by
    rw [bits_low_length]
    omega
  have hz : c.ww e - c.hw - e.size + (e.size - readBits e) = c.ww e - c.hw - readBits e := by omega
  rw [pack_eq he, packEntry, hhead, encode_decodePayload e _ _ (wf_kind hc e (List.mem_of_getElem? he)) hlow hdec,
    bits_low_low raw hr (by omega), List.append_assoc, ← List.append_assoc (zeros _), zeros_append, hz,
    ← List.append_assoc]

/-- Settles O21. -/
theorem packAndUnpackAreInverse : Obligations.PackAndUnpackAreInverse :=
  fun _ hc => ⟨fun _ hm => unpack_pack hc hm, fun _ _ _ h he => pack_unpacked hc h he⟩

end Sys2Proof
end

section
/-! PROOFS. The Encoder's instructions (42_encoder.md R151 to R157). -/

namespace Sys2Proof

open Machine

/-! ### Encoding -/

theorem exec_encEncode {m : Msg} {s : State} (hc : s.enc.cfg.wf = true) (hm : m.wf s.enc.cfg = true) :
    exec (.encEncode m) s = .next (s.encoded (s.enc.encode m)) :=
  onEncoder_next.2 ⟨hc, hm, rfl⟩

theorem exec_encEncodeBatch {ms : List Msg} {s : State} (hc : s.enc.cfg.wf = true)
    (hm : ∀ m ∈ ms, m.wf s.enc.cfg = true) :
    exec (.encEncodeBatch ms) s = .next (s.encoded (s.enc.encodeBatch ms)) :=
  onEncoder_next.2 ⟨hc, by simpa using hm, rfl⟩

theorem exec_encFlush {s : State} (hc : s.enc.cfg.wf = true) : exec .encFlush s = .next (s.encoded s.enc.flush) :=
  onEncoder_next.2 ⟨hc, rfl, rfl⟩

/-- A packed message is at least one physical word (R84). -/
theorem pw_le_pack {c : ParamSet} (hc : c.wf = true) {m : Msg} (hm : m.wf c = true) : c.pw ≤ (pack c m).length := by
  obtain ⟨e, he, hp⟩ := (msg_wf_iff c m).1 hm
  rw [pack_length hc he (payload_typed_of_wf hp)]
  exact pw_le_ww c e

/-- An emission of at least one physical word pushes one. -/
theorem emitted_sink_length_lt {e f : Encoder} {v : Bits} (hpw : 1 ≤ e.cfg.pw) (hv : e.cfg.pw ≤ v.length)
    (h : e.Emitted f v) : e.sink.length < f.sink.length := by
  obtain ⟨-, ws, hsink, hlen, -, -⟩ := h
  have : 0 < (e.fill + v.length) / e.cfg.pw := Nat.div_pos (by omega) hpw
  rw [hsink, List.length_append]
  omega

/-- Settles O22: the Encoder after is what `encode_emits` says, and the packed message fills a word. -/
theorem encodeAppendsAndPushesWords : Obligations.EncodeAppendsAndPushesWords := by
  intro m s hi hm
  obtain ⟨hemit, hinv⟩ := encode_emits hi m hm
  exact ⟨_, exec_encEncode hi.1 hm, hemit, hinv, emitted_sink_length_lt (wf_pw hi.1) (pw_le_pack hi.1 hm) hemit⟩

/-- Messages encoded one after the other are the batch of them (R152). -/
theorem runOps_encEncode (ms : List Msg) (s : State) (hc : s.enc.cfg.wf = true) (hm : ∀ m ∈ ms, m.wf s.enc.cfg = true)
    (hret : s.ret = .done) : runOps (ms.map .encEncode) s = .next (s.encoded (s.enc.encodeBatch ms)) := by
  induction ms generalizing s with
  | nil =>
    change Host.Outcome.next s = _
    rw [State.encoded, ← hret]
    rfl
  | cons m ms ih =>
    obtain ⟨hm1, hms⟩ := List.forall_mem_cons.1 hm
    have hrest := ih (s.encoded (s.enc.encode m)) (by simpa using hc) (by simpa using hms) rfl
    rw [List.map_cons, runOps, exec_encEncode hc hm1]
    exact hrest

/-- Settles O23: the batch is the run of its messages, and what it emits is `encodeBatch_emits`. -/
theorem batchIsRepeatedEncode : Obligations.BatchIsRepeatedEncode := by
  intro ms s hi hm
  exact ⟨_, exec_encEncodeBatch hi.1 hm, runOps_encEncode ms { s with ret := .done } hi.1 hm rfl,
    (encodeBatch_emits hi ms hm).1⟩

/-! ### Flushing -/

/-- The word of a flush is completed by at least one padding sub-word, and holds at least one of a message (R153). -/
theorem flush_filler_count {e : Encoder} (h : e.Inv) (hf : e.fill ≠ 0) :
    1 ≤ e.cfg.ratio - e.fill / e.cfg.sw ∧ e.cfg.ratio - e.fill / e.cfg.sw + 1 ≤ e.cfg.ratio := by
  obtain ⟨hc, -, -, hsw, hroom, -⟩ := h
  have hpos := wf_sw hc
  obtain ⟨k, hk⟩ := Nat.dvd_of_mod_eq_zero hsw
  have hdiv : e.fill / e.cfg.sw = k := by rw [hk, Nat.mul_div_cancel_left _ hpos]
  have hk0 : k ≠ 0 := by
    rintro rfl
    exact hf hk
  have hlt : k + 1 ≤ e.cfg.ratio := by
    rw [← ratio_mul hc, hk, ← Nat.mul_succ, Nat.mul_comm] at hroom
    exact Nat.le_of_mul_le_mul_right hroom hpos
  omega

/-- Settles O24: `flush_spec` gives the word and the Encoder after it; an empty Encoder is left as it is. -/
theorem flushCompletesTheWord : Obligations.FlushCompletesTheWord := by
  refine ⟨fun s hi hf => ?_, fun s hc hf => ?_⟩
  · obtain ⟨hflush, hlen, -⟩ := flush_spec hi hf
    obtain ⟨h1, h2⟩ := flush_filler_count hi hf
    refine ⟨s.enc.flushWord, _, rfl, hlen, h1, h2, ?_⟩
    rw [exec_encFlush hi.1, hflush]
    rfl
  · rw [exec_encFlush hc, flush_empty hf]
    rfl

/-- Settles O25: after a flush nothing is held, so the second one leaves the Encoder as it is. -/
theorem flushIsIdempotent : Obligations.FlushIsIdempotent := by
  intro s hc
  have h1 : exec .encFlush s = .next (s.encoded s.enc.flush) := exec_encFlush hc
  have h2 : exec .encFlush (s.encoded s.enc.flush) = .next (s.encoded s.enc.flush) := by
    rw [exec_encFlush (by simpa using hc), State.encoded_enc, flush_empty (flush_fill s.enc)]
    rfl
  exact ⟨_, h1, h2, by simp only [runOps, h1, h2]⟩

/-- Settles O26: the guard holds, and `Encoder.reset` is the fresh Encoder of the same set. -/
theorem encoderResetEmptiesTheEncoder : Obligations.EncoderResetEmptiesTheEncoder :=
  fun _ hc => guarded_true hc _ _

/-! ### The closed form of the stream (R156) -/

@[simp] theorem fresh_held (c : ParamSet) : (Encoder.fresh c).held = [] := by
  simp [Encoder.held, Bits.low]

/-- How many bits complete the last word of a stream of `T` bits. -/
def ParamSet.completion (c : ParamSet) (T : Nat) : Nat := (c.pw - T % c.pw) % c.pw

/-- A fresh Encoder that has emitted `b` and is flushed has pushed `b` and filler, in whole words (R156). -/
theorem fresh_emitted_flush {c : ParamSet} {f : Encoder} {b : Bits} (hi : f.Inv) (h : (Encoder.fresh c).Emitted f b) :
    c.sw ∣ c.completion b.length ∧ bitstream f.flush.sink = b ++ c.filler (c.completion b.length / c.sw) ∧
      f.flush.sink.length = (b.length + c.completion b.length) / c.pw ∧
      f.sink = f.flush.sink.take (b.length / c.pw) ∧ f.fill = b.length % c.pw := by
  obtain ⟨rfl, ws, hsink, hlen, hfill, hbits⟩ := h
  simp only [Encoder.fresh_cfg, Encoder.fresh_fill, Encoder.fresh_sink, List.nil_append, Nat.zero_add, fresh_held]
    at hsink hlen hfill hbits
  have hpw := wf_pw hi.1
  have hdm := Nat.div_add_mod b.length f.cfg.pw
  have hlt := Nat.mod_lt b.length hpw
  unfold ParamSet.completion
  by_cases hf : f.fill = 0
  · have hheld : f.held = [] := by rw [← List.length_eq_zero_iff, hi.aligned.2.1, hf]
    have hmod : b.length % f.cfg.pw = 0 := hfill ▸ hf
    rw [hheld, List.append_nil] at hbits
    rw [hmod, Nat.sub_zero, Nat.mod_self, flush_empty hf, hsink]
    simp [ParamSet.filler, hbits, hlen, hf]
  · have hq : (f.cfg.pw - b.length % f.cfg.pw) % f.cfg.pw = f.cfg.pw - f.fill := by
      rw [← hfill, Nat.mod_eq_of_lt (by omega)]
    have hsw : f.cfg.sw ∣ f.fill := Nat.dvd_of_mod_eq_zero hi.2.2.2.1
    rw [hq, (flush_spec hi hf).1, hsink]
    refine ⟨Nat.dvd_sub (wf_sw_dvd_pw hi.1) hsw, ?_, ?_, ?_, hfill⟩
    · have hdiv : (f.cfg.pw - f.fill) / f.cfg.sw = f.cfg.pw / f.cfg.sw - f.fill / f.cfg.sw := by
        obtain ⟨k, hk⟩ := hsw
        rw [hk, Nat.sub_mul_div, Nat.mul_div_cancel_left _ (wf_sw hi.1)]
      rw [hdiv]
      simp [bitstream, Encoder.flushWord, ParamSet.filler, ← hbits, ParamSet.ratio]
    · have : b.length + (f.cfg.pw - f.fill) = f.cfg.pw * (b.length / f.cfg.pw + 1) := by
        rw [Nat.mul_succ]
        omega
      rw [this, Nat.mul_div_cancel_left _ hpw]
      simp [hlen]
    · rw [← hlen]
      simp

/-- Settles O27: the run of the messages is the batch, whose emission from a fresh Encoder `fresh_emitted_flush` puts
into words. -/
theorem closedFormOfTheStream : Obligations.ClosedFormOfTheStream := by
  intro c rx ms hc hm
  obtain ⟨hemit, hinv⟩ := encodeBatch_emits (Encoder.fresh_inv c hc) ms hm
  exact ⟨_, _, runOps_encEncode ms (State.resetWith c rx) hc hm rfl, exec_encFlush hinv.1,
    fresh_emitted_flush hinv hemit⟩

end Sys2Proof
end

section
/-! PROOFS. The Decoder's instructions (43_decoder.md R171 to R176; 60_exceptions.md R255, R260). -/

namespace Sys2Proof

open Machine

/-! ### One sub-word -/

theorem exec_decSubword {b : Bits} {s : State} (hc : s.dec.cfg.wf = true) (hb : b.length = s.dec.cfg.sw) :
    exec (.decSubword b) s = .next (s.fed (s.dec.subword b)) :=
  onDecoder_next.2 ⟨hc, by simpa using hb, rfl⟩

/-- A padding sub-word at a message start changes nothing but the returned value (R172 line 2). -/
theorem exec_decSubword_padding {b : Bits} {s : State} (hc : s.dec.cfg.wf = true) (hn : s.dec.fault = none)
    (hf : s.dec.fill = 0) (hb : b.length = s.dec.cfg.sw) (ht : Bits.top b = true) :
    exec (.decSubword b) s = .next { s with ret := .done } := by
  rw [exec_decSubword hc hb, subword_padding _ _ hn hf ht, fed_self]

/-- Settles O28, the sequence by induction on it. -/
theorem paddingSubwordsAreSkipped : Obligations.PaddingSubwordsAreSkipped := by
  intro s hc hn hf
  refine ⟨fun b hb ht => exec_decSubword_padding hc hn hf hb ht, fun ps hps => ?_⟩
  induction ps with
  | nil => rfl
  | cons b ps ih =>
    obtain ⟨⟨hb, ht⟩, hrest⟩ := List.forall_mem_cons.1 hps
    have hstep : exec (.decSubword b) { s with ret := .done } = .next { s with ret := .done } :=
      exec_decSubword_padding (s := { s with ret := .done }) hc hn hf hb ht
    rw [List.map_cons, runOps, hstep]
    exact ih hrest

/-- A sub-word that is no padding is put after the bits held, and what is then held is examined (R172 lines 3 to 5). -/
theorem subword_of_data {d : Decoder} (h : d.Inv) (hn : d.fault = none) {b : Bits} (hb : b.length = d.cfg.sw)
    (ht : d.fill = 0 → Bits.top b = false) : d.subword b = (d.holding (d.held ++ b)).examine := by
  obtain ⟨-, hlen, hd⟩ := h.aligned
  obtain ⟨-, -, -, -, -, hlatch, -⟩ := h
  simp only [Decoder.LatchInv, hn] at hlatch
  have hroom : d.fill + d.cfg.sw ≤ d.cfg.decCap := hlatch.1
  have hcap : d.held.length + b.length ≤ d.cfg.decCap := by rw [hlen, hb]; exact hroom
  have htop : d.held = [] → Bits.top b = false := fun h0 => ht (by rw [← hlen, h0]; rfl)
  conv_lhs => rw [hd]
  exact subword_data d d.held b hn htop hcap

theorem fed_takeFault (s : State) (x : Bits) (f : BlockFault) :
    s.fed ((s.dec.holding x).takeFault f) = s.faulted x f := by
  simp [State.fed, State.faulted, Decoder.takeFault, Ret.ofRaised]

theorem fed_holding (s : State) (x : Bits) :
    s.fed ⟨s.dec.holding x, [], none⟩ = { s with dec := s.dec.holding x, ret := .done } := by
  simp [State.fed, Ret.ofRaised]

section
variable {b x : Bits} {s : State} (h : s.dec.Inv) (hb : b.length = s.dec.cfg.sw) (hn : s.dec.fault = none)
  (ht : s.dec.fill = 0 → Bits.top b = false) (hx : x = s.dec.held ++ b)
include h hb hn ht hx

/-- `DEC.subword` of data is the examination of the bits then held. -/
theorem exec_decSubword_data : exec (.decSubword b) s = .next (s.fed (s.dec.holding x).examine) := by
  rw [exec_decSubword h.1 hb, subword_of_data h hn hb ht, hx]

/-- An unknown header is noticed by the sub-word that completes it (R172 lines 6 to 8, decision D10). -/
theorem unknown_header_length (hle : s.dec.cfg.hw ≤ x.length)
    (hun : s.dec.cfg.n ≤ Bits.toNat (Bits.high s.dec.cfg.hw x)) : x.length = roundUp s.dec.cfg.hw s.dec.cfg.sw := by
  have hnone : s.dec.cfg.dict[Bits.toNat (Bits.high s.dec.cfg.hw x)]? = none := List.getElem?_eq_none hun
  subst hx
  rcases subword_cases h hn b hb with ⟨h0, h1, -⟩ | ⟨-, -, -, -, ⟨hlt, -⟩ | ⟨-, -, hlen, -⟩ | ⟨e, -, he, -⟩⟩
  · rw [ht h0] at h1
    cases h1
  · omega
  · exact hlen
  · rw [hnone] at he
    cases he

end

/-- Settles O29: the examination ends at line 5 or at line 9. -/
theorem incompleteMessageIsBuffered : Obligations.IncompleteMessageIsBuffered := by
  intro b x s h hb hn ht hx hinc
  have hexam : (s.dec.holding x).examine = ⟨s.dec.holding x, [], none⟩ := by
    rcases hinc with hlt | ⟨hle, e, he, hlt⟩
    · exact examine_header _ _ hlt
    · exact examine_body _ _ e hle he hlt
  rw [exec_decSubword_data h hb hn ht hx, hexam, fed_holding]

/-- Settles O30: the examination ends at line 8, which takes the fault. -/
theorem unknownHeaderIsLatched : Obligations.UnknownHeaderIsLatched := by
  intro b x s h hb hn ht hx hle hun
  refine ⟨?_, unknown_header_length h hb hn ht hx hle hun⟩
  rw [exec_decSubword_data h hb hn ht hx, examine_unknown _ _ hle (List.getElem?_eq_none hun), fed_takeFault]
  rfl

/-- Settles O31: the examination reaches line 12, and the payload decodes. -/
theorem completeMessageIsDelivered : Obligations.CompleteMessageIsDelivered := by
  intro b x e p s h hb hn ht hx he hww hp
  rw [exec_decSubword_data h hb hn ht hx, examine_complete _ _ h.1 e he hww, outcome_ok _ hp]
  rfl

/-- Settles O32: the examination reaches line 12, and the payload is out of its bound. -/
theorem outOfRangePayloadIsLatched : Obligations.OutOfRangePayloadIsLatched := by
  intro b x e t min max s h hb hn ht hx he hww hk hout
  rw [exec_decSubword_data h hb hn ht hx, examine_complete _ _ h.1 e he hww,
    outcome_error _ (decodePayload_outside hk hout)]

/-! ### The latch, the end of the stream, listeners and reset -/

/-- Settles O33: each of the three looks at the latch first. -/
theorem faultedDecoderTakesNothing : Obligations.FaultedDecoderTakesNothing := by
  intro f s hc hf
  refine ⟨fun w hw => onDecoder_next.2 ⟨hc, by simpa using hw, ?_⟩,
    fun b hb => onDecoder_next.2 ⟨hc, by simpa using hb, ?_⟩, onDecoder_next.2 ⟨hc, rfl, ?_⟩⟩
  · rw [Decoder.decodeWord, hf, fed_latched]
  · rw [subword_latched _ _ f hf, fed_latched]
  · rw [Decoder.endOfStream, hf, fed_latched]

/-- Settles O36: a held bit makes `DEC.end_of_stream` take the fault. -/
theorem endOfStreamReportsAPartialMessage : Obligations.EndOfStreamReportsAPartialMessage := by
  intro s hc hn
  refine ⟨fun hf => onDecoder_next.2 ⟨hc, rfl, ?_⟩, fun hf => onDecoder_next.2 ⟨hc, rfl, ?_⟩⟩
  · simp [Decoder.endOfStream, hn, hf, State.fed, Decoder.takeFault, Ret.ofRaised]
  · simp [Decoder.endOfStream, hn, hf, fed_self]

/-- Settles O37: neither operation looks at the latch. -/
theorem addListenerAppendsAndResetClears : Obligations.AddListenerAppendsAndResetClears := by
  intro s hc
  refine ⟨fun l => onDecoder_next.2 ⟨hc, rfl, ?_⟩, onDecoder_next.2 ⟨hc, rfl, ?_⟩⟩
  · simp [State.fed, Ret.ofRaised]
  · simp [State.fed, Ret.ofRaised, Decoder.reset, Decoder.fresh]

/-! ### Several sub-words -/

/-- `DEC.subword` of one sub-word after the other, ended by the first fault, is the feeding of them (R171). -/
theorem runSubwords_eq_feed (l : List Bits) (s : State) (hc : s.dec.cfg.wf = true)
    (hl : ∀ b ∈ l, b.length = s.dec.cfg.sw) (hret : l = [] → s.ret = .done) :
    runSubwords l s = .next (s.fed (s.dec.feed l)) := by
  induction l generalizing s with
  | nil =>
    change Host.Outcome.next s = .next (s.fed ⟨s.dec, [], none⟩)
    rw [fed_self, ← hret rfl]
  | cons b rest ih =>
    obtain ⟨hb, hrest⟩ := List.forall_mem_cons.1 hl
    have hcfg : (s.dec.subword b).dec.cfg = s.dec.cfg := (subword_frame s.dec b).1
    rw [runSubwords, exec_decSubword hc hb]
    cases hr : (s.dec.subword b).raised with
    | none =>
      have hfed : s.fed (s.dec.subword b) = s.fed ⟨(s.dec.subword b).dec, (s.dec.subword b).calls, none⟩ := by
        rw [← hr]
      have hgo := ih (s.fed (s.dec.subword b)) (by simpa [hcfg] using hc) (by simpa [hcfg] using hrest)
        (fun _ => by simp [hr, Ret.ofRaised])
      rw [feed_cons _ _ _ hr, ← fed_trans s _ _ _ _ _ hcfg, ← hfed]
      simpa [hr, Ret.ofRaised] using hgo
    | some r =>
      rw [feed_cons_raised _ _ _ (by rw [hr]; nofun)]
      simp [hr, Ret.ofRaised]

/-- Settles O34: both are the feeding of the word's `RATIO` chunks, of which there is at least one. -/
theorem decodeIsItsSubwords : Obligations.DecodeIsItsSubwords := by
  intro w s hc hw hn
  have hwidth := bits_chunks_width s.dec.cfg.sw s.dec.cfg.ratio w (by rw [hw, ratio_mul hc])
  have hne : Bits.chunks s.dec.cfg.sw s.dec.cfg.ratio w ≠ [] := List.ne_nil_of_length_pos (by
    rw [bits_chunks_length]
    exact ratio_pos hc)
  refine ⟨_, onDecoder_next.2 ⟨hc, by simpa using hw, rfl⟩, ?_⟩
  rw [← bits_chunks_eq_map, runSubwords_eq_feed _ s hc hwidth (fun h => absurd h hne), decodeWord_eq hc]

/-! ### At most one message per physical word (R60) -/

/-- A sub-word either queues nothing, or completes a message of at least a physical word and leaves nothing held. -/
theorem subword_queue {d : Decoder} (h : d.Inv) {b : Bits} (hb : b.length = d.cfg.sw) :
    ((d.subword b).dec.queue = d.queue ∧ (d.subword b).dec.fill ≤ d.fill + d.cfg.sw) ∨
      (d.cfg.pw ≤ d.fill + d.cfg.sw ∧ (d.subword b).dec.fill = 0 ∧ ∃ m, (d.subword b).dec.queue = d.queue ++ [m]) := by
  cases hn : d.fault with
  | some f =>
    rw [subword_latched d b f hn]
    exact Or.inl ⟨rfl, Nat.le_add_right _ _⟩
  | none =>
    have hlen : (d.held ++ b).length = d.fill + d.cfg.sw := by rw [List.length_append, h.aligned.2.1, hb]
    rcases subword_cases h hn b hb with
      ⟨-, -, h1⟩ | ⟨-, -, -, -, ⟨-, h1⟩ | ⟨-, -, -, h1⟩ | ⟨e, -, -, ⟨-, h1⟩ | ⟨hww, h1⟩⟩⟩ <;> rw [h1]
    · exact Or.inl ⟨rfl, Nat.le_add_right _ _⟩
    · exact Or.inl ⟨rfl, hlen.le⟩
    · exact Or.inl ⟨rfl, hlen.le⟩
    · exact Or.inl ⟨rfl, hlen.le⟩
    · unfold Decoder.outcome
      split
      · exact Or.inl ⟨rfl, hlen.le⟩
      · exact Or.inr ⟨by rw [← hlen, hww]; exact pw_le_ww _ _, rfl, _, rfl⟩

/-- Fewer bits than a physical word complete no message. -/
theorem feed_queue_of_short (l : List Bits) {d : Decoder} (h : d.Inv) (hl : ∀ b ∈ l, b.length = d.cfg.sw)
    (hshort : d.fill + l.length * d.cfg.sw < d.cfg.pw) : (d.feed l).dec.queue = d.queue := by
  induction l generalizing d with
  | nil => rfl
  | cons b rest ih =>
    obtain ⟨hb, hrest⟩ := List.forall_mem_cons.1 hl
    rw [List.length_cons, Nat.succ_mul] at hshort
    rcases subword_queue h hb with ⟨hq, hfill⟩ | ⟨hfull, -⟩
    · by_cases hr : (d.subword b).raised = none
      · have hcfg := (subword_frame d b).1
        rw [feed_cons _ _ _ hr]
        refine (ih (subword_inv h b hb) ?_ ?_).trans hq
        · rwa [hcfg]
        · rw [hcfg]
          omega
      · rw [feed_cons_raised _ _ _ hr]
        exact hq
    · omega

/-- As many sub-words as a physical word has complete at most one message. -/
theorem feed_queue_of_word (l : List Bits) {d : Decoder} (h : d.Inv) (hl : ∀ b ∈ l, b.length = d.cfg.sw)
    (hword : l.length * d.cfg.sw ≤ d.cfg.pw) :
    (d.feed l).dec.queue = d.queue ∨ ∃ m, (d.feed l).dec.queue = d.queue ++ [m] := by
  induction l generalizing d with
  | nil => exact Or.inl rfl
  | cons b rest ih =>
    obtain ⟨hb, hrest⟩ := List.forall_mem_cons.1 hl
    have hcfg := (subword_frame d b).1
    have hinv := subword_inv h b hb
    have hpos := wf_sw h.1
    rw [List.length_cons, Nat.succ_mul] at hword
    by_cases hr : (d.subword b).raised = none
    · rw [feed_cons _ _ _ hr]
      rcases subword_queue h hb with ⟨hq, -⟩ | ⟨-, hfill, m, hq⟩
      · rw [← hq]
        exact ih hinv (by rwa [hcfg]) (by rw [hcfg]; omega)
      · refine Or.inr ⟨m, (feed_queue_of_short rest hinv (by rwa [hcfg]) ?_).trans hq⟩
        rw [hcfg, hfill]
        omega
    · rw [feed_cons_raised _ _ _ hr]
      rcases subword_queue h hb with ⟨hq, -⟩ | ⟨-, -, hq⟩
      · exact Or.inl hq
      · exact Or.inr hq

/-- Settles O35: a word is as many sub-words as `feed_queue_of_word` asks. -/
theorem atMostOneMessagePerWord : Obligations.AtMostOneMessagePerWord := by
  intro w s h hw
  have hwidth := bits_chunks_width s.dec.cfg.sw s.dec.cfg.ratio w (by rw [hw, ratio_mul h.1])
  refine ⟨_, onDecoder_next.2 ⟨h.1, by simpa using hw, rfl⟩, decodeWord_inv h w hw, ?_⟩
  rw [State.fed_dec, decodeWord_eq h.1]
  exact feed_queue_of_word _ h hwidth (by rw [bits_chunks_length, ratio_mul h.1])

end Sys2Proof
end

section
/-! PROOFS. The stream-concatenation law (20_memory.md R68; 43_decoder.md R181): the bits an Encoder has put out, after any
encodes and flushes, carry its messages to every Decoder that stands between messages. -/

namespace Sys2Proof

open Machine

/-! ### Bits that carry messages -/

/-- What a Decoder between messages has done once it has received `ms`: the queue has them, and each listener was called
for each message with the queue before it (R174). -/
def Decoder.delivered (d : Decoder) (ms : List Msg) : Fed :=
  ⟨{ d with queue := d.queue ++ ms },
    ((ms.zipIdx d.queue.length).map (fun mk => d.listeners.map (fun l => ⟨l, mk.1, mk.2⟩))).flatten, none⟩

theorem delivered_nil (d : Decoder) : Decoder.delivered d [] = ⟨d, [], none⟩ := by
  simp [Decoder.delivered]

/-- Receiving one message more. -/
theorem delivered_append (d : Decoder) (ms : List Msg) (m : Msg) (hd : d = d.holding []) :
    Decoder.delivered d (ms ++ [m]) = ⟨((Decoder.delivered d ms).dec.emit m).dec,
      (Decoder.delivered d ms).calls ++ ((Decoder.delivered d ms).dec.emit m).calls, none⟩ := by
  have hd' : (Decoder.delivered d ms).dec = (Decoder.delivered d ms).dec.holding [] :=
    congrArg (fun d' : Decoder => { d' with queue := d.queue ++ ms }) hd
  rw [emit_dec_eq _ _ hd']
  simp [Decoder.delivered, Decoder.emit, List.zipIdx_append]

/-- Bits that are whole sub-words and deliver exactly `ms` to every Decoder of the set `c` between messages. -/
def Carries (c : ParamSet) (ms : List Msg) (b : Bits) : Prop :=
  c.sw ∣ b.length ∧ ∀ d : Decoder, d.cfg = c → d.fault = none → d = d.holding [] →
    d.feedBits b = Decoder.delivered d ms

theorem carries_nil (c : ParamSet) : Carries c [] [] :=
  ⟨dvd_zero _, fun d _ _ _ => by rw [feedBits_nil, delivered_nil]⟩

section
variable {c : ParamSet} (hc : c.wf = true) {ms : List Msg} {b : Bits} (h : Carries c ms b)
include hc h

/-- A packed message after bits that carry `ms` (R181). -/
theorem carries_append_pack {m : Msg} (hm : m.valid c = true) : Carries c (ms ++ [m]) (b ++ pack c m) := by
  obtain ⟨hdvd, hfeed⟩ := h
  obtain ⟨e, he, hv⟩ := (msg_valid_iff _ _).1 hm
  have hlen := pack_length hc he (payload_typed_of_wf (payload_wf_of_valid hv))
  refine ⟨?_, fun d hcfg hn hd => ?_⟩
  · rw [List.length_append, hlen]
    exact Nat.dvd_add hdvd (sw_dvd_ww hc e)
  · have hb := hfeed d hcfg hn hd
    have hd' : (Decoder.delivered d ms).dec = (Decoder.delivered d ms).dec.holding [] :=
      congrArg (fun d' : Decoder => { d' with queue := d.queue ++ ms }) hd
    have hpack : (Decoder.delivered d ms).dec.feedBits (pack c m) = (Decoder.delivered d ms).dec.emit m := by
      subst hcfg
      exact feedBits_pack (Decoder.delivered d ms).dec hc hn hd' hm
    rw [feedBits_append d _ _ (hcfg ▸ hdvd) (by rw [hb]; rfl), hb, hpack, delivered_append d ms m hd]
    rfl

/-- Filler after bits that carry `ms` (R183). -/
theorem carries_append_filler (k : Nat) : Carries c ms (b ++ c.filler k) := by
  obtain ⟨hdvd, hfeed⟩ := h
  refine ⟨?_, fun d hcfg hn hd => ?_⟩
  · have hl : ∀ s ∈ List.replicate k c.padSubword, s.length = c.sw := fun s hs =>
      List.eq_of_mem_replicate hs ▸ padSubword_length hc
    rw [List.length_append, ParamSet.filler, flatten_length_of_width _ _ hl]
    exact Nat.dvd_add hdvd (Dvd.intro_left _ rfl)
  · have hb := hfeed d hcfg hn hd
    have hfill : (Decoder.delivered d ms).dec.fill = 0 := congrArg Decoder.fill hd
    have hpad : (Decoder.delivered d ms).dec.feedBits (c.filler k) = ⟨(Decoder.delivered d ms).dec, [], none⟩ := by
      subst hcfg
      exact feedBits_filler (Decoder.delivered d ms).dec hc hn hfill k
    rw [feedBits_append d _ _ (hcfg ▸ hdvd) (by rw [hb]; rfl), hb, hpad, List.append_nil]
    rfl

end

/-! ### What an Encoder has put out -/

/-- The bits an Encoder has been given: those pushed, then those still held. -/
def Encoder.output (e : Encoder) : Bits := bitstream e.sink ++ e.held

theorem emitted_output {e f : Encoder} {v : Bits} (h : e.Emitted f v) :
    Encoder.output f = Encoder.output e ++ v := by
  obtain ⟨-, ws, hsink, -, -, hbits⟩ := h
  rw [Encoder.output, Encoder.output, hsink, bitstream_append, List.append_assoc, hbits, List.append_assoc]

theorem held_of_fill_zero {e : Encoder} (h : e.Inv) (hf : e.fill = 0) : e.held = [] := by
  rw [← List.length_eq_zero_iff, h.aligned.2.1, hf]

/-- A flush puts filler after what was given and holds nothing. -/
theorem flush_output {e : Encoder} (h : e.Inv) : Encoder.output e.flush = bitstream e.flush.sink ∧
    ∃ k, Encoder.output e.flush = Encoder.output e ++ e.cfg.filler k := by
  have hheld := held_of_fill_zero (flush_inv h) (flush_fill e)
  obtain ⟨k, hk⟩ := flush_bitstream h
  refine ⟨by rw [Encoder.output, hheld, List.append_nil], k, ?_⟩
  rw [Encoder.output, hheld, List.append_nil, hk]
  rfl

/-- An operation of the law: the encode of a message, or a flush. -/
def Encoder.perform (e : Encoder) : Option Msg → Encoder
  | some m => e.encode m
  | none => e.flush

/-- The instruction of such an operation. -/
def Instr.ofEncoderOp : Option Msg → Instr
  | some m => .encEncode m
  | none => .encFlush

/-- An Encoder of the set `c` whose output carries the messages `ms`. -/
def Encoder.HasPut (c : ParamSet) (ms : List Msg) (e : Encoder) : Prop :=
  e.Inv ∧ e.cfg = c ∧ Carries c ms (Encoder.output e)

theorem fresh_hasPut {c : ParamSet} (hc : c.wf = true) : Encoder.HasPut c [] (Encoder.fresh c) := by
  refine ⟨Encoder.fresh_inv c hc, rfl, ?_⟩
  rw [Encoder.output, fresh_held]
  exact carries_nil c

/-- An operation adds its message, if it has one, to those put out. -/
theorem perform_hasPut {c : ParamSet} {ms : List Msg} {e : Encoder} (h : Encoder.HasPut c ms e) {o : Option Msg}
    (ho : ∀ m, o = some m → m.valid c = true) : Encoder.HasPut c (ms ++ o.toList) (Encoder.perform e o) := by
  obtain ⟨hinv, rfl, hcar⟩ := h
  cases o with
  | some m =>
    have hm := ho m rfl
    obtain ⟨hemit, hinv'⟩ := encode_emits hinv m (msg_wf_of_valid hm)
    refine ⟨hinv', encode_cfg e m, ?_⟩
    rw [Encoder.perform, emitted_output hemit]
    exact carries_append_pack hinv.1 hcar hm
  | none =>
    obtain ⟨-, k, hk⟩ := flush_output hinv
    refine ⟨flush_inv hinv, flush_cfg e, ?_⟩
    rw [Encoder.perform, hk, Option.toList_none, List.append_nil]
    exact carries_append_filler hinv.1 hcar k

theorem foldl_perform_hasPut (ops : List (Option Msg)) {c : ParamSet} {ms : List Msg} {e : Encoder}
    (h : Encoder.HasPut c ms e) (ho : ∀ m, some m ∈ ops → m.valid c = true) :
    Encoder.HasPut c (ms ++ ops.filterMap id) (ops.foldl Encoder.perform e) := by
  induction ops generalizing ms e with
  | nil => simpa using h
  | cons o ops ih =>
    have hstep := perform_hasPut h (o := o) (fun m hm => ho m (by simp [hm]))
    have hrest := ih hstep (fun m hm => ho m (List.mem_cons_of_mem _ hm))
    cases o <;> simpa using hrest

/-! ### The run -/

/-- Operations on the Encoder, performed one after the other. -/
theorem runOps_perform (ops : List (Option Msg)) (s : State) (hc : s.enc.cfg.wf = true)
    (ho : ∀ m, some m ∈ ops → m.wf s.enc.cfg = true) (hret : s.ret = .done) :
    runOps (ops.map Instr.ofEncoderOp) s = .next (s.encoded (ops.foldl Encoder.perform s.enc)) := by
  induction ops generalizing s with
  | nil =>
    change Host.Outcome.next s = _
    rw [State.encoded, ← hret]
    rfl
  | cons o ops ih =>
    have hcfg : (Encoder.perform s.enc o).cfg = s.enc.cfg := by
      cases o
      · exact flush_cfg _
      · exact encode_cfg _ _
    have hstep : exec (Instr.ofEncoderOp o) s = .next (s.encoded (Encoder.perform s.enc o)) := by
      cases o with
      | none => exact exec_encFlush hc
      | some m => exact exec_encEncode hc (ho m (by simp))
    rw [List.map_cons, runOps, hstep]
    exact ih _ (by simpa [hcfg] using hc) (fun m hm => by simpa [hcfg] using ho m (List.mem_cons_of_mem _ hm)) rfl

/-- Listeners added one after the other (R173). -/
theorem runOps_decAddListener (ls : List Listener) (s : State) (hc : s.dec.cfg.wf = true) (hret : s.ret = .done) :
    runOps (ls.map .decAddListener) s =
      .next { s with dec := { s.dec with listeners := s.dec.listeners ++ ls }, ret := .done } := by
  induction ls generalizing s with
  | nil =>
    change Host.Outcome.next s = _
    rw [← hret, List.append_nil]
  | cons l ls ih =>
    have hrest := ih { s with dec := { s.dec with listeners := s.dec.listeners ++ [l] }, ret := .done } hc rfl
    rw [List.map_cons, runOps, (addListenerAppendsAndResetClears s hc).1 l]
    simpa using hrest

/-- Words whose bits carry `ms`, decoded by a Decoder between messages, deliver them. -/
theorem runOps_decDecode_carries {s : State} (hs : s.AtBoundary) (hret : s.ret = .done) {ms : List Msg} {ws : List Bits}
    (hw : ∀ w ∈ ws, w.length = s.dec.cfg.pw) (h : Carries s.dec.cfg ms (bitstream ws)) :
    runOps (ws.map .decDecode) s = .next (s.fed (Decoder.delivered s.dec ms)) := by
  have hfed := h.2 s.dec rfl hs.2.1 (boundary_holding hs)
  rw [runOps_decDecode ws s hs.1.1 hw hret (by rw [hfed]; rfl), hfed]

/-- Encodes and flushes from a fresh Encoder, and a last flush, push whole words that carry the messages (R156). -/
theorem runOps_encoder_carries {c : ParamSet} (hc : c.wf = true) (ops : List (Option Msg))
    (hv : ∀ m, some m ∈ ops → m.valid c = true) {s : State} (hs : s.enc = Encoder.fresh c) (hret : s.ret = .done) :
    ∃ e, runOps (ops.map Instr.ofEncoderOp ++ [.encFlush]) s = .next (s.encoded e) ∧
      (∀ w ∈ e.sink, w.length = c.pw) ∧ Carries c (ops.filterMap id) (bitstream e.sink) := by
  have hput := foldl_perform_hasPut ops (fresh_hasPut hc) hv
  have hinv := hput.1
  obtain ⟨hflushed, hcfg, hcar⟩ := perform_hasPut hput (o := none) nofun
  obtain ⟨-, -, -, -, -, hwidth⟩ := hflushed
  rw [hcfg] at hwidth
  have hrun := runOps_perform (ops ++ [none]) s (by rw [hs]; exact hc)
    (fun m hm => by rw [hs]; exact msg_wf_of_valid (hv m (by simpa using hm))) hret
  rw [List.map_append, List.foldl_append, hs] at hrun
  refine ⟨_, hrun, hwidth, ?_⟩
  have hout := (flush_output hinv).1
  rw [Encoder.perform, hout, Option.toList_none, List.append_nil, List.nil_append] at hcar
  exact hcar

/-- Settles O48: the words pushed carry the messages (`runOps_encoder_carries`), and the Decoder, whose listeners were
added before anything was received, is between messages. -/
theorem streamConcatenationLaw : Obligations.StreamConcatenationLaw := by
  intro c ops ls hc hv
  have hadd := runOps_decAddListener ls (State.resetWith c c) hc rfl
  obtain ⟨e, henc, hwidth, hcar⟩ := runOps_encoder_carries hc ops hv
    (s := { State.resetWith c c with dec := { Decoder.fresh c with listeners := [] ++ ls }, ret := .done }) rfl rfl
  have hdec := runOps_decDecode_carries
    (s := State.encoded { State.resetWith c c with
      dec := { Decoder.fresh c with listeners := [] ++ ls }, ret := .done } e)
    ⟨Decoder.fresh_inv c hc, rfl, rfl⟩ rfl hwidth hcar
  exact ⟨_, _, _, hadd, henc, hdec, rfl, rfl, rfl, rfl⟩

end Sys2Proof
end

section
/-! PROOFS. The machine: what an instruction, an operation of the environment and a step leave unchanged, and the
invariant (10_state.md sections 1 to 4; 60_exceptions.md R255, R263; 44_environment.md section 4). -/

namespace Sys2Proof

open Machine

/-! ### Instructions -/

/-- The listener calls write nothing of the connection but the halt record and the lifecycle (R224). -/
theorem notified_frame (n : Connection) (c : ParamSet) (ks : List Call) : n.notified c ks =
    { n with haltSeen := (n.notified c ks).haltSeen, lifecycle := (n.notified c ks).lifecycle } := by
  unfold Connection.notified
  split <;> rfl

/-- Settles O53: each of the three kinds of instruction writes its own agent's part of the state. -/
theorem agentsShareNoState : Obligations.AgentsShareNoState := by
  intro i s t h
  rcases exec_kinds i s t h with ⟨he, hd, r, rfl⟩ | ⟨he, hd, -, e, k, rfl, hk, -⟩ | ⟨he, hd, -, f, rfl, -⟩
  · exact ⟨rfl, rfl, fun _ => rfl, fun _ => ⟨rfl, rfl⟩, fun _ _ => rfl, rfl, fun _ => rfl, fun _ => ⟨rfl, rfl⟩⟩
  · refine ⟨rfl, rfl, ?_, fun _ => ⟨rfl, rfl⟩, ?_, rfl, hk, fun _ => ⟨rfl, rfl⟩⟩ <;> simp [he]
  · have hconn := notified_frame s.conn s.dec.cfg f.calls
    refine ⟨rfl, rfl, fun _ => rfl, ?_, ?_, ?_, fun _ => ?_, ?_⟩
    · simp [hd]
    · simp [hd]
    · rw [State.fed_conn, hconn]
    · rw [State.fed_conn, hconn]
    · simp [hd]

/-- An instruction leaves both parameter sets (R22). -/
theorem exec_cfg {i : Instr} {s t : State} (h : exec i s = .next t) :
    t.enc.cfg = s.enc.cfg ∧ t.dec.cfg = s.dec.cfg := by
  rcases exec_kinds i s t h with ⟨-, -, r, rfl⟩ | ⟨-, -, -, e, k, rfl, -, he⟩ | ⟨-, -, -, f, rfl, hf⟩
  · exact ⟨rfl, rfl⟩
  · refine ⟨?_, rfl⟩
    rcases he with ⟨ms, -, rfl⟩ | rfl | rfl
    · exact encodeBatch_cfg _ ms
    · exact flush_cfg _
    · rfl
  · refine ⟨rfl, ?_⟩
    rcases hf with ⟨l, -, rfl⟩ | rfl | ⟨l, -, rfl⟩ | ⟨-, rfl⟩
    · exact (feed_frame s.dec l).1
    · rw [State.fed_dec, (endOfStream_frame s.dec).1]
    · rfl
    · rfl

/-- An instruction keeps the Encoder's invariant. -/
theorem exec_enc_inv {i : Instr} {s t : State} (h : exec i s = .next t) (hi : s.enc.Inv) : t.enc.Inv := by
  rcases exec_kinds i s t h with ⟨-, -, r, rfl⟩ | ⟨-, -, -, e, k, rfl, -, he⟩ | ⟨-, -, -, f, rfl, -⟩
  · exact hi
  · rcases he with ⟨ms, hms, rfl⟩ | rfl | rfl
    · exact (encodeBatch_emits hi ms hms).2
    · exact flush_inv hi
    · exact Encoder.fresh_inv _ hi.1
  · exact hi

/-- An instruction keeps the Decoder's invariant. -/
theorem exec_dec_inv {i : Instr} {s t : State} (h : exec i s = .next t) (hi : s.dec.Inv) : t.dec.Inv := by
  rcases exec_kinds i s t h with ⟨-, -, r, rfl⟩ | ⟨-, -, -, e, k, rfl, -⟩ | ⟨-, -, -, f, rfl, hf⟩
  · exact hi
  · exact hi
  · rcases hf with ⟨l, hl, rfl⟩ | rfl | ⟨l, -, rfl⟩ | ⟨-, rfl⟩
    · exact feed_inv hi l hl
    · exact endOfStream_inv hi
    · exact hi
    · exact Decoder.fresh_inv _ hi.1

/-- An instruction keeps the machine's invariant: it touches nothing of what the callers' part speaks of. -/
theorem exec_inv {i : Instr} {s t : State} (h : exec i s = .next t) (hi : s.Inv) : t.Inv := by
  obtain ⟨henc, hdec, hbuf, hcall⟩ := hi
  obtain ⟨hp, hb, -, -, -, hconn, -⟩ := agentsShareNoState i s t h
  refine ⟨exec_enc_inv h henc, exec_dec_inv h hdec, hb ▸ hbuf, callers_of hcall ?_ (Or.inr (Or.inl ?_)) (Or.inr ⟨?_, hp⟩)⟩
  all_goals rw [hconn]

/-! ### Operations of the environment -/

/-- Messages taken from the front of the queue leave the Decoder's invariant. -/
theorem drop_queue_inv {d : Decoder} (h : d.Inv) (k : Nat) : Decoder.Inv { d with queue := d.queue.drop k } := by
  obtain ⟨h1, h2, h3, h4, h5, h6, hq⟩ := h
  exact ⟨h1, h2, h3, h4, h5, h6, fun m hm => hq m (List.mem_of_mem_drop hm)⟩

theorem env_cfg {a : EnvOp} {s t : State} (h : execEnv a s = .next t) :
    t.enc.cfg = s.enc.cfg ∧ t.dec.cfg = s.dec.cfg := by
  obtain ⟨henc, k, hdec⟩ := env_frame a s t h
  refine ⟨?_, by rw [hdec]⟩
  rcases henc with henc | ⟨-, ms, -, henc⟩
  · rw [henc]
  · rw [henc, flush_cfg, encodeBatch_cfg]

/-- An operation of the environment keeps the machine's invariant. -/
theorem env_inv {a : EnvOp} {s t : State} (h : execEnv a s = .next t) (hi : s.Inv) : t.Inv := by
  obtain ⟨henc, hdec, hbuf, hcall⟩ := hi
  obtain ⟨hte, k, htd⟩ := env_frame a s t h
  refine ⟨?_, htd ▸ drop_queue_inv hdec k, env_dbuf_inv a s t h hbuf, env_callers a s t h hcall⟩
  rcases hte with hte | ⟨-, ms, hms, hte⟩
  · rwa [hte]
  · rw [hte]
    exact flush_inv (encodeBatch_emits henc ms hms).2

/-- What an operation of the environment leaves unchanged that is no receive thread's (R232, R233): the listener calls,
the words received and the packets; it adds nothing to what is pending and does not undo the destruction; and it leaves
the Decoder, unless it is a receiving one on a live connection. -/
structure CallerFrame (a : EnvOp) (s t : State) : Prop where
  calls : t.calls = s.calls
  inbox : t.conn.inbox = s.conn.inbox
  dbuf : t.dbuf = { s.dbuf with run := t.dbuf.run }
  pending : ∀ c ∈ t.pending, c ∈ s.pending
  alive : s.conn.alive = false → t.conn.alive = false
  dec : a.mayDrain = false ∨ s.conn.alive = false → t.dec = s.dec

/-- Where the Decoder may have changed the operation is a receiving one on a live connection. -/
theorem CallerFrame.of_live {a : EnvOp} {s t : State} (ha : s.conn.alive = true) (hc : t.calls = s.calls)
    (hi : t.conn.inbox = s.conn.inbox) (hb : t.dbuf = s.dbuf) (hp : t.pending = s.pending)
    (hd : a.mayDrain = false → t.dec = s.dec) : CallerFrame a s t where
  calls := hc
  inbox := hi
  dbuf := by rw [hb]
  pending := by rw [hp]; exact fun _ h => h
  alive := by rw [ha]; nofun
  dec := by
    rintro (h | h)
    · exact hd h
    · rw [ha] at h
      cases h

theorem CallerFrame.of_same {a : EnvOp} {s t : State} (hc : t.calls = s.calls) (hi : t.conn.inbox = s.conn.inbox)
    (hb : t.dbuf = { s.dbuf with run := t.dbuf.run }) (hp : t.pending = s.pending)
    (ha : t.conn.alive = s.conn.alive) (hd : t.dec = s.dec) : CallerFrame a s t :=
  ⟨hc, hi, hb, by rw [hp]; exact fun _ h => h, by rw [ha]; exact id, fun _ => hd⟩

/-- Waiting for the halt message (R224, R229): `execute_messages` alone drains the queue, on a live connection. -/
theorem await_callerFrame {a : EnvOp} {s : State} {w : Waiting} (h : a.mayDrain = false → w.since = none) :
    CallerFrame a s (s.await w) := by
  obtain ⟨-, -, hp, hc, hb, hconn, -, hd⟩ := await_frame s w
  refine ⟨hc, by rw [hconn], by rw [hb], by rw [hp]; exact fun _ h => h, by rw [hconn]; exact id, ?_⟩
  rintro (hm | ha)
  · exact hd (Or.inr (h hm))
  · exact hd (Or.inl ha)

theorem destroyed_callerFrame (a : EnvOp) (s : State) : CallerFrame a s s.destroyed :=
  ⟨rfl, rfl, rfl, fun _ hc => (List.mem_filter.1 hc).1, fun _ => rfl, fun _ => rfl⟩

/-- The operations that are no receive thread's, one by one. -/
theorem env_callerFrame {a : EnvOp} {s t : State} (ha : a.ofReceiveThread = false) (h : execEnv a s = .next t) :
    CallerFrame a s t := by
  cases a with
  | arrive | loopback | available | fillSlot | stopWrite | decodeSlot | stopRead => cases ha
  | acquireStream u =>
    cases h
    unfold State.acquire
    split
    · exact .of_same rfl rfl rfl rfl rfl rfl
    · split <;> exact .of_same rfl rfl rfl rfl rfl rfl
  | releaseStream u =>
    cases (guarded_next.1 h).2
    exact .of_same rfl rfl rfl rfl rfl rfl
  | add u ms =>
    obtain ⟨hl, -, -, h⟩ := asHolder_next.1 h
    cases (guarded_next.1 (guarded_next.1 h).2).2
    exact .of_live hl rfl rfl rfl rfl (fun _ => rfl)
  | commit u =>
    obtain ⟨hl, -, -, h⟩ := asHolder_next.1 h
    cases (guarded_next.1 (guarded_next.1 h).2).2
    exact .of_live hl rfl rfl rfl rfl (fun _ => rfl)
  | runUntilHalt u =>
    cases (guarded_next.1 h).2
    exact await_callerFrame (fun _ => rfl)
  | executeMessages u ms =>
    obtain ⟨hl, -, -, h⟩ := asHolder_next.1 h
    cases (guarded_next.1 (guarded_next.1 h).2).2
    obtain ⟨-, -, hp, hc, hb, hconn, -⟩ := await_frame (s.submitted ms) ⟨u, some s.conn.time⟩
    exact .of_live hl hc (by rw [hconn]; rfl) hb hp nofun
  | awaitMessages u =>
    simp only [execEnv] at h
    split at h
    · cases (guarded_next.1 h).2
      exact await_callerFrame nofun
    · cases h
  | receive u =>
    obtain ⟨hl, -, -, h⟩ := asHolder_next.1 h
    cases h
    unfold State.receive
    split <;> exact .of_live hl rfl rfl rfl rfl nofun
  | tryReceive u =>
    obtain ⟨hl, -, -, h⟩ := asHolder_next.1 h
    cases h
    unfold State.tryReceive
    split <;> exact .of_live hl rfl rfl rfl rfl nofun
  | receiveAll u =>
    obtain ⟨hl, -, -, h⟩ := asHolder_next.1 h
    cases h
    exact .of_live hl rfl rfl rfl rfl nofun
  | receiveEmpty | getTimeInfo =>
    obtain ⟨hl, -, -, h⟩ := asHolder_next.1 h
    cases h
    exact .of_live hl rfl rfl rfl rfl (fun _ => rfl)
  | openConnection e =>
    cases h
    unfold State.opened
    split <;> exact .of_same rfl rfl rfl rfl rfl rfl
  | closeConnection e =>
    cases h
    unfold State.closed
    split
    · exact destroyed_callerFrame _ s
    · exact .of_same rfl rfl rfl rfl rfl rfl
  | destroy =>
    cases h
    exact destroyed_callerFrame _ s
  | deadline =>
    cases h
    unfold State.deadline
    split <;> exact .of_same rfl rfl rfl rfl rfl rfl
  | execute | accrue | carry | startWrite | startRead | notify | shutdown =>
    cases h
    exact .of_same rfl rfl rfl rfl rfl rfl

/-- An operation that receives no message leaves the Decoder (R226). -/
theorem env_dec_of_not_mayDrain {a : EnvOp} {s t : State} (h : execEnv a s = .next t) (hd : a.mayDrain = false) :
    t.dec = s.dec := by
  cases ha : a.ofReceiveThread with
  | false => exact (env_callerFrame ha h).dec (Or.inl hd)
  | true =>
    cases a with
    | arrive | loopback | available =>
      rcases onReceiveThread_next.1 h with ⟨-, h⟩ | ⟨-, rfl⟩
      · cases h
        rfl
      · rfl
    | fillSlot | stopWrite | decodeSlot | stopRead =>
      rcases onReceiveThread_next.1 h with ⟨-, h⟩ | ⟨-, rfl⟩
      · cases (guarded_next.1 h).2
        rfl
      · rfl
    | _ => cases ha

/-! ### A step -/

/-- Bits are an incomplete item under a legal parameter set only. -/
theorem wf_of_incompleteItem {c : ParamSet} {b : Bits} (h : decode c b = .error .incompleteItem) : c.wf = true := by
  cases hc : c.wf with
  | true => rfl
  | false => simp [decode, decodeRow, hc] at h

/-- Settles O49: the front of the pending commands decides what is fetched. -/
theorem stepRunsTheDecodedInstruction : Obligations.StepRunsTheDecodedInstruction := by
  refine ⟨fun i rest s hp => ?_, fun a rest s hp => ?_, fun b b' i rest s hp hd => ?_, fun b rest s hp hd => ?_⟩
  · simp only [step, State.fetch, hp]
  · simp only [step, State.fetch, hp]
  · simp only [step, State.fetch, hp, hd, putBack]
  · refine ⟨fun hb => ?_, fun hlen => ?_, fun hb hlt => ?_⟩
    · simp only [step, State.fetch, hp, hd, if_pos hb]
    · have hsw := wf_sw (wf_of_incompleteItem hd)
      have hne : b ≠ [] := List.ne_nil_of_length_pos (by omega)
      simp only [step, State.fetch, hp, hd, if_neg hne, if_neg (Nat.not_lt.2 hlen), putBack]
    · simp only [step, State.fetch, hp, hd, if_neg hb, if_pos hlt]

/-- With no fault latched or reported the fill levels decide whether the machine rests (R263). -/
theorem idle_of_no_fault {s : State} (hf : s.dec.fault = none) (hr : s.ret.isRaised = false) :
    s.idle = if s.dec.fill ≠ 0 then .fault (.stuckPartialMessage s.dec.fill)
      else if s.enc.fill ≠ 0 then .fault (.unflushedResidual s.enc.fill) else .next s := by
  unfold State.idle
  split
  · rename_i hs
    rw [hf] at hs
    cases hs
  · rename_i hs
    rw [hs] at hr
    cases hr
  · rfl

/-- With a fault latched or reported the machine stops (R263). -/
theorem idle_of_fault {s : State} (h : s.dec.fault ≠ none ∨ s.ret.isRaised = true) : ∃ f, s.idle = .fault f := by
  unfold State.idle
  split
  · exact ⟨_, rfl⟩
  · exact ⟨_, rfl⟩
  · rename_i hf hr
    rcases h with h | h
    · exact absurd hf h
    · cases hs : s.ret <;> simp_all [Ret.isRaised]

theorem final_iff {s : State} : s.final = true ↔
    s.dec.fault = none ∧ s.dec.fill = 0 ∧ s.enc.fill = 0 ∧ s.ret.isRaised = false := by
  simp [State.final, and_assoc]

/-- Settles O50: `State.idle` asks for each part of being final in turn. -/
theorem onlyFinalStatesRest : Obligations.OnlyFinalStatesRest := by
  intro s hp
  have hstep : step s = s.idle := by simp only [step, State.fetch, hp]
  rw [hstep]
  refine ⟨fun h => ?_, fun h => ?_⟩
  · obtain ⟨hf, hd, he, hr⟩ := final_iff.1 h
    rw [idle_of_no_fault hf hr, if_neg (by simp [hd]), if_neg (by simp [he])]
  · by_cases hok : s.dec.fault = none ∧ s.ret.isRaised = false
    · rw [idle_of_no_fault hok.1 hok.2]
      by_cases hd : s.dec.fill = 0
      · by_cases he : s.enc.fill = 0
        · rw [final_iff.2 ⟨hok.1, hd, he, hok.2⟩] at h
          cases h
        · exact ⟨_, by rw [if_neg (by simp [hd]), if_pos he]⟩
      · exact ⟨_, if_pos hd⟩
    · refine idle_of_fault ?_
      by_cases hf : s.dec.fault = none
      · exact Or.inr (by simpa using fun hr => hok ⟨hf, hr⟩)
      · exact Or.inl hf

/-- A step leaves both parameter sets. -/
theorem configurationIsNeverWritten : Obligations.ConfigurationIsNeverWritten := by
  intro s t h
  rcases step_kinds s t h with rfl | ⟨r, -, rfl⟩ | ⟨i, r, h, -⟩ | ⟨a, r, h, -⟩
  · exact ⟨rfl, rfl⟩
  · exact ⟨rfl, rfl⟩
  · exact exec_cfg (s := { s with pending := r }) h
  · exact env_cfg (s := { s with pending := r }) h

/-- Taking commands off the pending ones keeps the invariant, as long as no receive thread's is put back once the
destructor has begun. -/
theorem pending_inv {s : State} (h : s.Inv) {r : List Command}
    (hr : s.conn.alive = false → ∀ c ∈ r, c.ofReceiveThread = false) : State.Inv { s with pending := r } := by
  obtain ⟨henc, hdec, hbuf, hwait, -⟩ := h
  exact ⟨henc, hdec, hbuf, hwait, hr⟩

/-- The commands after the first are no receive thread's where none is. -/
theorem noReceiveThread_tail {s : State} (h : s.CallersInv) {c : Command} {r : List Command} (hp : s.pending = c :: r)
    (ha : s.conn.alive = false) : c.ofReceiveThread = false ∧ ∀ c ∈ r, c.ofReceiveThread = false := by
  have := h.2 ha
  unfold State.NoReceiveThread at this
  rw [hp] at this
  exact List.forall_mem_cons.1 this

/-- Settles O57: what a step performs keeps the invariant, and so does taking it off the pending commands. -/
theorem invariantIsKeptByEveryStep : Obligations.InvariantIsKeptByEveryStep := by
  intro s t hi h
  have hcall := hi.2.2.2
  rcases step_kinds s t h with rfl | ⟨r, hp, rfl⟩ | ⟨i, r, h, hp | ⟨b, b', rest, hp, -, -⟩⟩ | ⟨a, r, h, hp⟩
  · exact hi
  · exact pending_inv hi (fun ha => (noReceiveThread_tail hcall hp ha).2)
  · exact exec_inv h (pending_inv hi (fun ha => (noReceiveThread_tail hcall hp ha).2))
  · refine exec_inv h (pending_inv hi (fun ha => ?_))
    have hwire := (noReceiveThread_tail hcall hp ha).1
    cases hwire
  · exact env_inv h (pending_inv hi (fun ha => (noReceiveThread_tail hcall hp ha).2))

/-! ### Reset -/

/-- Settles O55: the values are those of the two constructions. -/
theorem resetValues : Obligations.ResetValues := by
  refine ⟨fun tx rx => ⟨rfl, rfl⟩, rfl, ?_⟩
  decide

theorem dbuf_fresh_inv : DoubleBuffer.fresh.Inv := by
  unfold DoubleBuffer.Inv
  decide

theorem resetWith_inv {tx rx : ParamSet} (htx : tx.wf = true) (hrx : rx.wf = true) : (State.resetWith tx rx).Inv :=
  ⟨Encoder.fresh_inv tx htx, Decoder.fresh_inv rx hrx, dbuf_fresh_inv, nofun, nofun⟩

/-- Settles O56: both agents are freshly constructed, nobody waits and the connection is alive. -/
theorem invariantHoldsAtReset : Obligations.InvariantHoldsAtReset := by
  refine ⟨resetWith_inv ?_ ?_, fun tx rx htx hrx => resetWith_inv htx hrx⟩ <;> decide

/-! ### The fault latch -/

/-- While a fault is latched an instruction that is no reset can only add a listener (R255, R262). -/
theorem exec_latched {i : Instr} {f : BlockFault} {s t : State} (h : exec i s = .next t) (hf : s.dec.fault = some f)
    (hi : i ≠ .decReset) : ∃ ls, t.dec = { s.dec with listeners := s.dec.listeners ++ ls } := by
  rcases exec_kinds i s t h with ⟨-, -, r, rfl⟩ | ⟨-, -, -, e, k, rfl, -⟩ | ⟨-, -, -, g, rfl, hg⟩
  · exact ⟨[], by simp⟩
  · exact ⟨[], by simp⟩
  · rcases hg with ⟨l, -, rfl⟩ | rfl | ⟨l, -, rfl⟩ | ⟨rfl, -⟩
    · exact ⟨[], by simp [(feed_latched s.dec l f hf).1]⟩
    · exact ⟨[], by simp [(endOfStream_frame s.dec).2.2 f hf]⟩
    · exact ⟨[l], rfl⟩
    · exact absurd rfl hi

/-- Settles O38: an instruction can only add a listener, an operation of the environment only take messages from the
front of the queue, and a step performs one of the two. -/
theorem onlyResetLeavesAFault : Obligations.OnlyResetLeavesAFault := by
  refine ⟨fun i f s t h hf hi => ?_, fun a f s t h hf => ?_, fun f s t h hf hp => ?_⟩
  · obtain ⟨ls, hls⟩ := exec_latched h hf hi
    obtain ⟨-, -, -, hown, -⟩ := agentsShareNoState i s t h
    exact ⟨by rw [hls], fun hd => (hown hd).1, ls, by rw [hls]⟩
  · exact ⟨(env_frame a s t h).2, fun hd => env_dec_of_not_mayDrain h hd⟩
  · have hexec : ∀ (i : Instr) (r : List Command), exec i { s with pending := r } = .next t → i ≠ .decReset →
        ∃ k ls, t.dec = { s.dec with queue := s.dec.queue.drop k, listeners := s.dec.listeners ++ ls } :=
      fun i r h hi => ⟨0, exec_latched (s := { s with pending := r }) h hf hi⟩
    rcases step_kinds s t h with rfl | ⟨r, -, rfl⟩ | ⟨i, r, h, hr | ⟨b, b', rest, -, -, hi⟩⟩ | ⟨a, r, h, -⟩
    · exact ⟨0, [], by simp⟩
    · exact ⟨0, [], by simp⟩
    · exact hexec i r h (by rintro rfl; exact hp r hr)
    · exact hexec i r h hi
    · obtain ⟨k, hk⟩ := (env_frame a _ t h).2
      exact ⟨k, [], by simpa using hk⟩

end Sys2Proof
end

section
/-! PROOFS. The wire items, received by the Decoder (30_encoding.md sections 3 to 5; 43_decoder.md R172). -/

namespace Sys2Proof

open Machine

/-! ### A wire item is the reception of its bits -/

/-- Whatever has bits on the wire is received (log entry 7). -/
theorem exec_eq_receiveItem {c : ParamSet} {i : Instr} {b : Bits} (h : encode c i = some b) (s : State) :
    exec i s = s.receiveItem i := by
  cases i <;> simp only [encode, reduceCtorEq] at h <;> rfl

theorem exec_wire {i : Instr} {b : Bits} {s : State} (hc : s.dec.cfg.wf = true) (hb : encode s.dec.cfg i = some b)
    (hw : i.widthsOk s.dec.cfg = true) (hm : s.dec.cfg.sw ∣ b.length) :
    exec i s = .next (s.fed (s.dec.feedBits b)) := by
  rw [exec_eq_receiveItem hb]
  exact receiveItem_next.2 ⟨b, hb, hc, hw, Nat.mod_eq_zero_of_dvd hm, rfl⟩

/-- No wire item is empty. -/
theorem encode_ne_nil {c : ParamSet} (hc : c.wf = true) {i : Instr} {b : Bits} (h : encode c i = some b) : b ≠ [] := by
  have hne : c.hw ≠ 0 := Nat.ne_of_gt (hw_pos hc)
  rintro rfl
  have hlen : (encode c i).map List.length = some 0 := by
    rw [h]
    rfl
  cases i <;> simp [encode, rowBits, padBits, hne] at hlen

/-- Settles O41: both are the feeding of the item's chunks, of which there is at least one. -/
theorem wireItemIsItsSubwords : Obligations.WireItemIsItsSubwords := by
  intro i b s hc hb hw hm
  have hdvd := Nat.dvd_of_mod_eq_zero hm
  have hpos : 0 < b.length := List.length_pos_of_ne_nil (encode_ne_nil hc hb)
  have hk : 0 < b.length / s.dec.cfg.sw := Nat.div_pos (Nat.le_of_dvd hpos hdvd) (wf_sw hc)
  have hne : Bits.chunks s.dec.cfg.sw (b.length / s.dec.cfg.sw) b ≠ [] :=
    List.ne_nil_of_length_pos (by rwa [bits_chunks_length])
  refine ⟨_, exec_wire hc hb hw hdvd, ?_⟩
  rw [← bits_chunks_eq_map, runSubwords_eq_feed _ s hc
    (bits_chunks_width _ _ _ (Nat.div_mul_cancel hdvd).symm) (fun h => absurd h hne)]
  rfl

/-! ### Messages -/

/-- A message's bits, received between messages, are the whole message of the entry its index names. -/
theorem feedBits_msg {d : Decoder} (hc : d.cfg.wf = true) (hn : d.fault = none) (hd : d = d.holding []) {k : Nat}
    {z p : Bits} {e : Entry} (he : d.cfg.dict[k]? = some e) (hp : p.length = e.size)
    (hz : z.length = d.cfg.ww e - d.cfg.hw - e.size) :
    (d.cfg.header k ++ (z ++ p)).length = d.cfg.ww e ∧
      d.feedBits (d.cfg.header k ++ (z ++ p)) = d.outcome k e (d.cfg.header k ++ (z ++ p)) := by
  have hlt := index_lt_n he
  have hf := field_le_ww hc e
  have hlen : (d.cfg.header k ++ (z ++ p)).length = d.cfg.ww e := by
    simp only [List.length_append, header_length]
    omega
  have hhead : Bits.toNat (Bits.high d.cfg.hw (d.cfg.header k ++ (z ++ p))) = k := by
    rw [high_append _ _ _ (header_length _ _).ge, Bits.high, List.take_of_length_le (header_length _ _).le,
      header_toNat hc k hlt]
  have htop : Bits.top (d.cfg.header k ++ (z ++ p)) = false := by
    rw [top_append _ _ (List.ne_nil_of_length_pos (by rw [header_length]; exact hw_pos hc))]
    exact header_top_of_lt_n hc hlt
  have hfeed := feedBits_message d hc hn hd e _ (hhead.symm ▸ he) hlen htop
  rw [hhead] at hfeed
  exact ⟨hlen, hfeed⟩

/-- A wire item with the bits of a message of the dictionary, received between messages, is delivered or faulted on. -/
theorem receive_msg {s : State} (hs : s.AtBoundary) {i : Instr} (hw : i.widthsOk s.dec.cfg = true) {k : Nat} {z p : Bits}
    {e : Entry} (henc : encode s.dec.cfg i = encode s.dec.cfg (.msg k z p)) (he : s.dec.cfg.dict[k]? = some e)
    (hp : p.length = e.size) (hz : z.length = s.dec.cfg.ww e - s.dec.cfg.hw - e.size) :
    (∀ v, decodePayload e p = .ok v → exec i s = .next (s.received ⟨k, v⟩)) ∧
      (∀ f, decodePayload e p = .error f → exec i s = .next (s.faulted (s.dec.cfg.header k ++ (z ++ p)) f)) := by
  have hc : s.dec.cfg.wf = true := hs.1.1
  obtain ⟨hlen, hfeed⟩ := feedBits_msg hc hs.2.1 (boundary_holding hs) he hp hz
  have hlow : Bits.low e.size (s.dec.cfg.header k ++ (z ++ p)) = p := by
    rw [← List.append_assoc]
    exact bits_low_append' _ _ _ hp.symm
  have hexec : exec i s = .next (s.fed (s.dec.outcome k e (s.dec.cfg.header k ++ (z ++ p)))) := by
    rw [exec_wire hc (henc.trans rfl) hw (hlen ▸ sw_dvd_ww hc e), ← hfeed]
    rfl
  refine ⟨fun v hv => ?_, fun f hf => ?_⟩
  · rw [hexec, outcome_ok k (hlow.symm ▸ hv)]
  · rw [hexec, outcome_error k (hlow.symm ▸ hf)]

/-- Settles O40. -/
theorem messageItemIsDelivered : Obligations.MessageItemIsDelivered :=
  fun _ _ _ e _ hs he hp hz => receive_msg hs (msg_widthsOk_iff.2 ⟨e, he, hp, hz⟩) rfl he hp hz

/-! ### Padding sub-words and illegal headers -/

/-- A wire item with the bits of a padding sub-word, received between messages, changes nothing (R92). -/
theorem receive_pad {s : State} (hs : s.AtBoundary) {i : Instr} (hw : i.widthsOk s.dec.cfg = true) {x : Bits}
    (henc : encode s.dec.cfg i = encode s.dec.cfg (.pad x)) (hx : x.length + 1 = s.dec.cfg.sw) :
    exec i s = .next { s with ret := .done } := by
  have hc : s.dec.cfg.wf = true := hs.1.1
  have hfeed : s.dec.feedBits (true :: x) = ⟨s.dec, [], none⟩ := by
    have h := feedBits_flatten s.dec hc [true :: x] (by simpa using hx)
    rw [List.flatten_singleton, feed_singleton, subword_padding _ _ hs.2.1 hs.2.2 rfl] at h
    exact h
  have hb : encode s.dec.cfg i = some (true :: x) := henc
  rw [exec_wire hc hb hw (by rw [List.length_cons, hx]), hfeed, fed_self]

/-- The sub-words of an illegal header are buffered until the last one completes it (R172 lines 5 to 8). -/
theorem feed_illegalHeader {d : Decoder} (hc : d.cfg.wf = true) (hn : d.fault = none) {raw : Bits}
    (hl : raw.length = roundUp d.cfg.hw d.cfg.sw) (hun : d.cfg.n ≤ Bits.toNat (Bits.high d.cfg.hw raw)) (r : Nat) :
    ∀ pre suf : Bits, raw = pre ++ suf → suf.length = (r + 1) * d.cfg.sw → (pre = [] → Bits.top suf = false) →
      (d.holding pre).feed (Bits.chunks d.cfg.sw (r + 1) suf) =
        (d.holding raw).takeFault (.unknownHeader (Bits.toNat (Bits.high d.cfg.hw raw))) := by
  have hsw := wf_sw hc
  have hge := roundUp_ge d.cfg.hw d.cfg.sw hsw
  have hcap : raw.length ≤ d.cfg.decCap := by
    obtain ⟨e, -, hmax⟩ := maxww_attained d.cfg (wf_n hc)
    rw [hl, ParamSet.decCap, ← hmax]
    exact headerSubwords_le_ww hc e
  induction r with
  | zero =>
    intro pre suf hraw hs ht
    rw [Nat.zero_add, Nat.one_mul] at hs
    simp only [Bits.chunks]
    rw [List.take_of_length_le hs.le, feed_singleton,
      subword_data d pre suf hn ht (by rwa [← List.length_append, ← hraw]), ← hraw,
      examine_unknown d raw (by omega) (List.getElem?_eq_none hun)]
  | succ r ih =>
    intro pre suf hraw hs ht
    have hlen : raw.length = pre.length + suf.length := by rw [hraw, List.length_append]
    rw [Nat.succ_mul] at hs
    have htake : (suf.take d.cfg.sw).length = d.cfg.sw := by
      rw [List.length_take]
      omega
    have hdrop : (suf.drop d.cfg.sw).length = (r + 1) * d.cfg.sw := by
      rw [List.length_drop]
      omega
    have hraw' : raw = (pre ++ suf.take d.cfg.sw) ++ suf.drop d.cfg.sw := by
      rw [List.append_assoc, List.take_append_drop]
      exact hraw
    have hpre : (pre ++ suf.take d.cfg.sw).length = pre.length + d.cfg.sw := by rw [List.length_append, htake]
    have hpos : 0 < (r + 1) * d.cfg.sw := Nat.mul_pos (Nat.succ_pos r) hsw
    have hshort : (pre ++ suf.take d.cfg.sw).length < d.cfg.hw := by
      by_contra hlong
      have hdvd : d.cfg.sw ∣ (pre ++ suf.take d.cfg.sw).length := by
        refine (Nat.dvd_add_iff_left (Dvd.intro_left (r + 1) rfl)).2 ?_
        rw [← hdrop, ← List.length_append, ← hraw', hl]
        exact roundUp_dvd _ _
      have := roundUp_le _ _ _ hsw hdvd (Nat.le_of_not_lt hlong)
      omega
    have htop : pre = [] → Bits.top (suf.take d.cfg.sw) = false := fun h0 => by
      have := top_high d.cfg.sw suf hsw
      rw [Bits.high] at this
      rw [this]
      exact ht h0
    have hsub : (d.holding pre).subword (suf.take d.cfg.sw) = ⟨d.holding (pre ++ suf.take d.cfg.sw), [], none⟩ := by
      rw [subword_data d pre _ hn htop (by omega), examine_header _ _ hshort]
    have hrest := ih (pre ++ suf.take d.cfg.sw) (suf.drop d.cfg.sw) hraw' hdrop (fun h0 => by
      rw [h0, List.length_nil] at hpre
      omega)
    simp only [Bits.chunks] at hrest ⊢
    rw [feed_cons _ _ _ (by rw [hsub]), hsub]
    simp only [hrest, List.nil_append]

/-- An illegal header, received between messages, is faulted on with its sub-words held (R93, R260). -/
theorem feedBits_illegalHeader {d : Decoder} (hc : d.cfg.wf = true) (hn : d.fault = none) (hd : d = d.holding [])
    {raw : Bits} (hl : raw.length = roundUp d.cfg.hw d.cfg.sw) (ht : Bits.top raw = false)
    (hun : d.cfg.n ≤ Bits.toNat (Bits.high d.cfg.hw raw)) :
    d.feedBits raw = (d.holding raw).takeFault (.unknownHeader (Bits.toNat (Bits.high d.cfg.hw raw))) := by
  have hge := roundUp_ge d.cfg.hw d.cfg.sw (wf_sw hc)
  have hpos := hw_pos hc
  have hdvd : d.cfg.sw ∣ raw.length := hl ▸ roundUp_dvd _ _
  have hk : 0 < raw.length / d.cfg.sw := Nat.div_pos (Nat.le_of_dvd (by omega) hdvd) (wf_sw hc)
  obtain ⟨r, hr⟩ := Nat.exists_eq_add_of_le' hk
  have hlen : raw.length = (r + 1) * d.cfg.sw := by rw [← hr, Nat.div_mul_cancel hdvd]
  rw [Decoder.feedBits, hr]
  conv_lhs => rw [hd]
  exact feed_illegalHeader hc hn hl hun r [] raw rfl hlen (fun _ => ht)

/-- Settles O42: the filler of a padding sub-word is not looked at, and the header field holds the value. -/
theorem paddingAndIllegalHeaderItems : Obligations.PaddingAndIllegalHeaderItems := by
  refine ⟨fun x s hs hx => receive_pad hs (pad_widthsOk_iff.2 hx) rfl hx, fun h r s hs hN hlt hr => ?_⟩
  have hc : s.dec.cfg.wf = true := hs.1.1
  have hpos := hw_pos hc
  have hhl : (Bits.ofNat s.dec.cfg.hw h).length = s.dec.cfg.hw := bits_ofNat_length _ _
  have hlen : (Bits.ofNat s.dec.cfg.hw h ++ r).length = roundUp s.dec.cfg.hw s.dec.cfg.sw := by
    rw [List.length_append, hhl]
    omega
  have htop : Bits.top (Bits.ofNat s.dec.cfg.hw h ++ r) = false := by
    rw [top_append _ _ (List.ne_nil_of_length_pos (by omega))]
    exact header_top hc h hlt
  have hval : Bits.toNat (Bits.high s.dec.cfg.hw (Bits.ofNat s.dec.cfg.hw h ++ r)) = h := by
    rw [high_append _ _ _ hhl.ge, Bits.high, List.take_of_length_le hhl.le, bits_toNat_ofNat]
    exact Nat.mod_eq_of_lt (by rw [pow_hw hc]; omega)
  have hfeed := feedBits_illegalHeader hc hs.2.1 (boundary_holding hs) hlen htop (by rw [hval]; exact hN)
  rw [exec_wire hc rfl (illegalHeader_widthsOk_iff.2 ⟨hN, hlt, hr⟩) (hlen ▸ roundUp_dvd _ _), hfeed, hval, fed_takeFault]

/-! ### The rows of the named parameter sets -/

section
variable {s : State} (hs : s.AtBoundary) (i : Instr) (hset : i.rowSet = setName? s.dec.cfg)
  (hw : i.widthsOk s.dec.cfg = true)
include hs hset hw

section
variable {k : Nat} {z p : Bits} (hg : i.generic = .msg k z p) {l : List Entry} (hl : s.dec.cfg.dict = l) {e : Entry}
  (he : l[k]? = some e)
include hg hl he

omit hs in
/-- A message row of the Decoder's named set has the fields of its generic row, and they fit. -/
theorem row_fields : encode s.dec.cfg i = encode s.dec.cfg (.msg k z p) ∧ s.dec.cfg.dict[k]? = some e ∧
    p.length = e.size ∧ z.length = s.dec.cfg.ww e - s.dec.cfg.hw - e.size := by
  have henc := encode_generic (c := s.dec.cfg) (Or.inr hset)
  have hwg := generic_widthsOk hw (Or.inr hset)
  rw [hg] at henc hwg
  obtain ⟨e', he', hp, hz⟩ := msg_widthsOk_iff.1 hwg
  rw [hl, he] at he'
  cases he'
  exact ⟨henc.symm, hl ▸ he, hp, hz⟩

/-- Received between messages, the row is delivered as the message of its generic row. -/
theorem receive_row {v : Payload} (hv : decodePayload e p = .ok v) : exec i s = .next (s.received ⟨k, v⟩) := by
  obtain ⟨henc, hk, hp, hz⟩ := row_fields i hset hw hg hl he
  exact (receive_msg hs hw henc hk hp hz).1 v hv

/-- Received between messages, the row is faulted on where its payload is out of the bound. -/
theorem receive_row_error {f : BlockFault} (hf : decodePayload e p = .error f) :
    ∃ x, encode s.dec.cfg i = some x ∧ exec i s = .next (s.faulted x f) := by
  obtain ⟨henc, hk, hp, hz⟩ := row_fields i hset hw hg hl he
  exact ⟨_, henc, (receive_msg hs hw henc hk hp hz).2 f hf⟩

end

/-- A padding row of the Decoder's named set, received between messages, changes nothing. -/
theorem receive_padRow {x : Bits} (hg : i.generic = .pad x) : exec i s = .next { s with ret := .done } := by
  have henc := encode_generic (c := s.dec.cfg) (Or.inr hset)
  have hwg := generic_widthsOk hw (Or.inr hset)
  rw [hg] at henc hwg
  exact receive_pad hs hw henc.symm (pad_widthsOk_iff.1 hwg)

end

/-- Settles O43: each row is its generic row, whose entry is of the bitset kind. -/
theorem referenceAndCfgSixteenRowsAreReceived : Obligations.ReferenceAndCfgSixteenRowsAreReceived := by
  refine ⟨fun s hs hn => ?_, fun s hs hn => ?_⟩
  · have hdict : s.dec.cfg.dict = ref8.dict := named_dict hn
    exact ⟨receive_row hs .ref8A hn.symm rfl rfl hdict rfl rfl,
      fun p => receive_row hs (.ref8B p) hn.symm rfl rfl hdict rfl rfl,
      fun x => receive_padRow hs (.ref8Pad x) hn.symm rfl rfl⟩
  · have hdict : s.dec.cfg.dict = cfg16.dict := named_dict hn
    exact ⟨fun z p => receive_row hs (.cfg16X z p) hn.symm rfl rfl hdict rfl rfl,
      fun z p => receive_row hs (.cfg16Y z p) hn.symm rfl rfl hdict rfl rfl,
      fun z => receive_row hs (.cfg16Z z) hn.symm rfl rfl hdict rfl rfl,
      fun z p => receive_row hs (.cfg16W z p) hn.symm rfl rfl hdict rfl rfl,
      fun x => receive_padRow hs (.cfg16Pad x) hn.symm rfl rfl⟩

/-- Settles O45: each row is its generic row, whose entry is of the bitset kind. -/
theorem cfgThreeRowsAreReceived : Obligations.CfgThreeRowsAreReceived := by
  intro s hs hn
  have hdict : s.dec.cfg.dict = cfg3.dict := named_dict hn
  exact ⟨fun z => receive_row hs (.cfg3N0 z) hn.symm rfl rfl hdict rfl rfl,
    fun z p => receive_row hs (.cfg3N1 z p) hn.symm rfl rfl hdict rfl rfl,
    fun z p => receive_row hs (.cfg3N2 z p) hn.symm rfl rfl hdict rfl rfl,
    fun z p => receive_row hs (.cfg3N3 z p) hn.symm rfl rfl hdict rfl rfl,
    fun p => receive_row hs (.cfg3N4 p) hn.symm rfl rfl hdict rfl rfl,
    fun x => receive_padRow hs (.cfg3Pad x) hn.symm rfl rfl⟩

/-! ### Numbers on the wire -/

@[simp] theorem bits_toNat_ofBitVec {w : Nat} (p : BitVec w) : Bits.toNat (Bits.ofBitVec p) = p.toNat := by
  rw [Bits.ofBitVec, bits_toNat_ofNat, Nat.mod_eq_of_lt p.isLt]

/-- An unsigned type reads a payload that is no wider than itself as its value (R114). -/
theorem numberDecode_unsigned {tw w : Nat} (htw : 1 ≤ tw) (hle : w ≤ tw) (p : BitVec w) :
    numberDecode ⟨tw, .unsigned⟩ (Bits.ofBitVec p) = p.toNat := by
  have hlt : p.toNat < 2 ^ tw := p.isLt.trans_le (Nat.pow_le_pow_right (by omega) hle)
  rw [numberDecode_eq _ _ (by simpa [IntType.wf] using htw), if_neg (by simp), bits_toNat_ofBitVec,
    Nat.mod_eq_of_lt hlt]

/-- A signed type reads the low bits of a payload as two's complement (R114, R121). -/
theorem numberDecode_signed {tw w : Nat} (htw : 1 ≤ tw) (p : BitVec w) :
    numberDecode ⟨tw, .signed⟩ (Bits.ofBitVec p) = (p.setWidth tw).toInt := by
  have hpow : 2 ^ tw = 2 * 2 ^ (tw - 1) := by
    conv_lhs => rw [show tw = (tw - 1) + 1 by omega, Nat.pow_succ]
    omega
  rw [numberDecode_eq _ _ (by simpa [IntType.wf] using htw), BitVec.toInt_eq_toNat_cond, BitVec.toNat_setWidth,
    bits_toNat_ofBitVec]
  by_cases h : 2 ^ (tw - 1) ≤ p.toNat % 2 ^ tw
  · rw [if_pos ⟨rfl, h⟩, if_neg (by omega)]
    push_cast
    rfl
  · rw [if_neg (fun hh => h hh.2), if_pos (by omega)]

/-- Settles O44: `P3` is an unsigned number, and `P4` one whose bound is 0 to 5. -/
theorem cfgSixtyFourRowsAreReceived : Obligations.CfgSixtyFourRowsAreReceived := by
  intro s hs hn
  have hdict : s.dec.cfg.dict = cfg64.dict := named_dict hn
  have hread : ∀ p : BitVec 3, numberDecode ⟨8, .unsigned⟩ (Bits.ofBitVec p) = p.toNat :=
    numberDecode_unsigned (by omega) (by omega)
  refine ⟨fun z => receive_row hs (.cfg64P0 z) hn.symm rfl rfl hdict rfl rfl,
    fun p => receive_row hs (.cfg64P1 p) hn.symm rfl rfl hdict rfl rfl,
    fun z p => receive_row hs (.cfg64P2 z p) hn.symm rfl rfl hdict rfl rfl,
    fun z p => receive_row hs (.cfg64P3 z p) hn.symm rfl rfl hdict rfl ?_,
    fun z p hp => receive_row hs (.cfg64P4 z p) hn.symm rfl rfl hdict rfl ?_,
    fun z p hp => receive_row_error hs (.cfg64P4 z p) hn.symm rfl rfl hdict rfl ?_,
    fun x => receive_padRow hs (.cfg64Pad x) hn.symm rfl rfl⟩
  · exact congrArg (Except.ok ∘ Payload.int) (numberDecode_unsigned (by omega) (by omega) p)
  · simp only [decodePayload, rangedDecode, hread]
    rw [rangedMake_inside (by omega)]
  · rw [decodePayload_outside rfl (by rw [hread]; omega), hread]

/-- Settles O46: `S`, `T` and `U` are signed eight-bit numbers of 8, 4 and 12 payload bits. -/
theorem signedAndSingleRowsAreReceived : Obligations.SignedAndSingleRowsAreReceived := by
  refine ⟨fun s hs hn => ?_, fun s hs hn => ?_⟩
  · have hdict : s.dec.cfg.dict = cfgs.dict := named_dict hn
    have hread : ∀ {w : Nat} (p : BitVec w), numberDecode int8 (Bits.ofBitVec p) = (p.setWidth 8).toInt :=
      fun p => numberDecode_signed (by omega) p
    refine ⟨fun p => receive_row hs (.cfgsS p) hn.symm rfl rfl hdict rfl ?_,
      fun z p => receive_row hs (.cfgsT z p) hn.symm rfl rfl hdict rfl ?_,
      fun z p => receive_row hs (.cfgsU z p) hn.symm rfl rfl hdict rfl ?_,
      fun x => receive_padRow hs (.cfgsPad x) hn.symm rfl rfl⟩
    · exact congrArg (Except.ok ∘ Payload.int) ((hread p).trans (by rw [BitVec.setWidth_eq]))
    · have hlt := p.isLt
      have hnat : (p.setWidth 8).toInt = p.toNat := by
        rw [BitVec.toInt_eq_toNat_cond, BitVec.toNat_setWidth, Nat.mod_eq_of_lt (by omega), if_pos (by omega)]
      exact congrArg (Except.ok ∘ Payload.int) ((hread p).trans hnat)
    · exact congrArg (Except.ok ∘ Payload.int) (hread p)
  · have hdict : s.dec.cfg.dict = cfg1.dict := named_dict hn
    exact ⟨fun p => receive_row hs (.cfg1Only p) hn.symm rfl rfl hdict rfl rfl,
      fun x => receive_padRow hs (.cfg1Pad x) hn.symm rfl rfl⟩

end Sys2Proof
end

section
/-! PROOFS. Well-formed instructions run, ill-formed input is refused (60_exceptions.md R256; 00_scope.md R9). -/

namespace Sys2Proof

open Machine

/-! ### Well-formed instructions -/

/-- The bits of a generic row whose fields fit are whole sub-words (R84, R90, R93). -/
theorem sw_dvd_encode_generic {c : ParamSet} (hc : c.wf = true) {j : Instr} (hj : j.IsGeneric)
    (hw : j.widthsOk c = true) {b : Bits} (hb : encode c j = some b) : c.sw ∣ b.length := by
  rcases hj with ⟨k, z, p, rfl⟩ | ⟨x, rfl⟩ | ⟨k, t, rfl⟩
  · obtain ⟨e, -, hp, hz⟩ := msg_widthsOk_iff.1 hw
    have hf := field_le_ww hc e
    cases hb
    have hlen : (Bits.ofNat c.hw k ++ (z ++ p)).length = c.ww e := by
      simp only [List.length_append, bits_ofNat_length]
      omega
    exact hlen ▸ sw_dvd_ww hc e
  · cases hb
    rw [List.length_cons, pad_widthsOk_iff.1 hw]
  · obtain ⟨-, -, ht⟩ := illegalHeader_widthsOk_iff.1 hw
    cases hb
    rw [List.length_append, bits_ofNat_length, Nat.add_comm, ht]
    exact roundUp_dvd _ _

/-- A wire row of the Decoder's set whose fields fit is received. -/
theorem exec_row {i : Instr} {s : State} (hc : s.dec.cfg.wf = true) (hw : i.widthsOk s.dec.cfg = true)
    (hset : i.rowSet = none ∨ i.rowSet = setName? s.dec.cfg) {b : Bits} (hb : encode s.dec.cfg i = some b) :
    ∃ t, exec i s = .next t :=
  ⟨_, exec_wire hc hb hw (sw_dvd_encode_generic hc (generic_isGeneric (by rw [hb]; rfl)) (generic_widthsOk hw hset)
    ((encode_generic hset).trans hb))⟩

/-- A guarded answer is a next state where the guard holds and the answer is. -/
theorem exists_next_of_guarded {ok : Bool} (h : ok = true) (r : Refusal) {o : Out} (ho : ∃ t, o = .next t) :
    ∃ t, guarded ok r o = .next t := by
  rwa [guarded_true h]

theorem wellFormed_iff {tx rx : ParamSet} {i : Instr} : WellFormed tx rx i = true ↔
    tx.wf = true ∧ rx.wf = true ∧ i.widthsOk rx = true ∧ i.operandsOk tx rx = true := by
  simp [WellFormed, and_assoc]

theorem cfgOf_wf {s : State} (htx : s.enc.cfg.wf = true) (hrx : s.dec.cfg.wf = true) (d : Direction) :
    (s.cfgOf d).wf = true := by
  cases d
  · exact htx
  · exact hrx

/-- `MSG.unpack` answers whatever it does not refuse. -/
theorem exists_next_of_unpacked {s : State} {u : Unpacked} (h1 : u ≠ .wrongWidth) (h2 : u ≠ .notMessage) :
    ∃ t, s.unpacked u = .next t := by
  cases u with
  | msg m => exact ⟨_, rfl⟩
  | raised f => exact ⟨_, rfl⟩
  | wrongWidth => exact absurd rfl h1
  | notMessage => exact absurd rfl h2

/-- What `MSG.make` asks of its operands: a name or index of the dictionary, and a payload of its entry's type. -/
theorem msgMake_operandsOk_iff {tx rx : ParamSet} {d : Direction} {r : InstrRef} {p : Payload} :
    (Instr.msgMake d r p).operandsOk tx rx = true ↔
      ∃ i e, (d.pick tx rx).find r = some i ∧ (d.pick tx rx).dict[i]? = some e ∧ Payload.typed e p = true := by
  cases hr : (d.pick tx rx).find r with
  | none => simp [Instr.operandsOk, hr]
  | some i => cases he : (d.pick tx rx).dict[i]? <;> simp [Instr.operandsOk, hr, he]

/-- Settles O51: a wire row is received, and of an operation every guard holds. -/
theorem wellFormedInstructionsRun : Obligations.WellFormedInstructionsRun := by
  intro i s h hset
  obtain ⟨htx, hrx, hw, hops⟩ := wellFormed_iff.1 h
  have hcfg := cfgOf_wf htx hrx
  cases i with
  | bitsetEncode v => exact ⟨_, rfl⟩
  | bitsetDecode b => exact ⟨_, rfl⟩
  | numberEncode => exact exists_next_of_guarded hops _ ⟨_, rfl⟩
  | numberDecode => exact exists_next_of_guarded hops _ ⟨_, rfl⟩
  | rangedMake => exact exists_next_of_guarded hops _ ⟨_, rfl⟩
  | rangedEncode => exact exists_next_of_guarded hops _ ⟨_, rfl⟩
  | rangedDecode => exact exists_next_of_guarded hops _ ⟨_, rfl⟩
  | payloadEq => exact exists_next_of_guarded hops _ ⟨_, rfl⟩
  | msgHeader d => exact exists_next_of_guarded (hcfg d) _ (exists_next_of_guarded hops _ ⟨_, rfl⟩)
  | msgWordWidth d j =>
    have hlt : j < (s.cfgOf d).dict.length := of_decide_eq_true hops
    exact ⟨_, exec_msgWordWidth (hcfg d) (List.getElem?_eq_getElem hlt)⟩
  | msgPack d => exact exists_next_of_guarded (hcfg d) _ (exists_next_of_guarded hops _ ⟨_, rfl⟩)
  | msgUnpack d raw =>
    simp only [Instr.operandsOk, Bool.and_eq_true, decide_eq_true_eq] at hops
    exact exists_next_of_guarded (hcfg d) _ (exists_next_of_unpacked hops.1 hops.2)
  | msgMake d r p =>
    obtain ⟨j, e, hr, he, hp⟩ := msgMake_operandsOk_iff.1 hops
    exact ⟨_, (exec_msgMake (hcfg d) hr he).trans (guarded_true hp _ _)⟩
  | msgEq d => exact exists_next_of_guarded (hcfg d) _ (exists_next_of_guarded hops _ ⟨_, rfl⟩)
  | encEncode => exact ⟨_, onEncoder_next.2 ⟨htx, hops, rfl⟩⟩
  | encEncodeBatch => exact ⟨_, onEncoder_next.2 ⟨htx, hops, rfl⟩⟩
  | encFlush => exact ⟨_, onEncoder_next.2 ⟨htx, rfl, rfl⟩⟩
  | encReset => exact exists_next_of_guarded htx _ ⟨_, rfl⟩
  | decDecode => exact ⟨_, onDecoder_next.2 ⟨hrx, hops, rfl⟩⟩
  | decSubword => exact ⟨_, onDecoder_next.2 ⟨hrx, hops, rfl⟩⟩
  | decAddListener => exact ⟨_, onDecoder_next.2 ⟨hrx, rfl, rfl⟩⟩
  | decEndOfStream => exact ⟨_, onDecoder_next.2 ⟨hrx, rfl, rfl⟩⟩
  | decReset => exact ⟨_, onDecoder_next.2 ⟨hrx, rfl, rfl⟩⟩
  | _ => exact exec_row hrx hw hset rfl

/-! ### Ill-formed input -/

/-- A guarded answer is a refusal where the guard fails or the answer is one. -/
theorem exists_refused_of_guarded {ok : Bool} (r : Refusal) {o : Out} (h : ok = false ∨ ∃ q, o = .refused q) :
    ∃ q, guarded ok r o = .refused q := by
  cases ok with
  | false => exact ⟨r, rfl⟩
  | true => exact h.resolve_left nofun

/-- Operands that are not of the types their rule gives are refused. -/
theorem operands_refused {i : Instr} {s : State} (h : i.operandsOk s.enc.cfg s.dec.cfg = false) :
    ∃ r, exec i s = .refused r := by
  cases i with
  | numberEncode => exact exists_refused_of_guarded _ (Or.inl h)
  | numberDecode => exact exists_refused_of_guarded _ (Or.inl h)
  | rangedMake => exact exists_refused_of_guarded _ (Or.inl h)
  | rangedEncode => exact exists_refused_of_guarded _ (Or.inl h)
  | rangedDecode => exact exists_refused_of_guarded _ (Or.inl h)
  | payloadEq => exact exists_refused_of_guarded _ (Or.inl h)
  | msgHeader => exact exists_refused_of_guarded _ (Or.inr (exists_refused_of_guarded _ (Or.inl h)))
  | msgWordWidth d j =>
    have hnone : (s.cfgOf d).dict[j]? = none := List.getElem?_eq_none (Nat.le_of_not_lt (of_decide_eq_false h))
    exact exists_refused_of_guarded _ (Or.inr ⟨_, by rw [hnone]⟩)
  | msgPack => exact exists_refused_of_guarded _ (Or.inr (exists_refused_of_guarded _ (Or.inl h)))
  | msgUnpack d raw =>
    refine exists_refused_of_guarded _ (Or.inr ?_)
    have hu : unpack (s.cfgOf d) raw = .wrongWidth ∨ unpack (s.cfgOf d) raw = .notMessage := by
      by_contra hne
      rw [not_or] at hne
      simp [Instr.operandsOk, show d.pick s.enc.cfg s.dec.cfg = s.cfgOf d from rfl, hne] at h
    rcases hu with hu | hu
    · exact ⟨_, by rw [hu]; rfl⟩
    · exact ⟨_, by rw [hu]; rfl⟩
  | msgMake d r p =>
    have hno := mt msgMake_operandsOk_iff.2 (by rw [h]; nofun)
    refine exists_refused_of_guarded _ (Or.inr ?_)
    change ¬ ∃ i e, (s.cfgOf d).find r = some i ∧ (s.cfgOf d).dict[i]? = some e ∧ Payload.typed e p = true at hno
    cases hr : (s.cfgOf d).find r with
    | none => exact ⟨_, rfl⟩
    | some j =>
      simp only
      cases he : (s.cfgOf d).dict[j]? with
      | none => exact ⟨_, rfl⟩
      | some e =>
        have hp : Payload.typed e p = false := by
          simpa using fun hp => hno ⟨j, e, hr, he, hp⟩
        exact exists_refused_of_guarded _ (Or.inl hp)
  | msgEq => exact exists_refused_of_guarded _ (Or.inr (exists_refused_of_guarded _ (Or.inl h)))
  | encEncode => exact exists_refused_of_guarded _ (Or.inr (exists_refused_of_guarded _ (Or.inl h)))
  | encEncodeBatch => exact exists_refused_of_guarded _ (Or.inr (exists_refused_of_guarded _ (Or.inl h)))
  | decDecode => exact exists_refused_of_guarded _ (Or.inr (exists_refused_of_guarded _ (Or.inl h)))
  | decSubword => exact exists_refused_of_guarded _ (Or.inr (exists_refused_of_guarded _ (Or.inl h)))
  | _ => cases h

/-- An operation of the Encoder looks at its parameter set first (R9). -/
theorem encoder_parameters_refused {i : Instr} {s : State} (hi : instrOnEncoder i = true) (h : s.enc.cfg.wf = false) :
    exec i s = .refused .illFormedParameters := by
  cases i with
  | encEncode | encEncodeBatch | encFlush | encReset => exact guarded_false h _ _
  | _ => cases hi

/-- So does an operation of the Decoder, and the reception of a wire item. -/
theorem decoder_parameters_refused {i : Instr} {s : State} (hi : instrOnDecoder i = true) (h : s.dec.cfg.wf = false) :
    exec i s = .refused .illFormedParameters := by
  cases hb : encode s.dec.cfg i with
  | some b =>
    rw [exec_eq_receiveItem hb, State.receiveItem, hb]
    exact guarded_false h _ _
  | none =>
    cases i with
    | decDecode | decSubword | decAddListener | decEndOfStream | decReset => exact guarded_false h _ _
    | _ => simp [instrOnDecoder, Instr.rowSet, encode] at hi hb

/-- Settles O52: each kind of ill-formed input fails its guard. -/
theorem illFormedInputIsRefused : Obligations.IllFormedInputIsRefused := by
  refine ⟨fun i s h => operands_refused h, fun i s hi h => encoder_parameters_refused hi h,
    fun i s hi h => decoder_parameters_refused hi h, fun i b s hc hb h => ?_⟩
  have hguard : (i.widthsOk s.dec.cfg && b.length % s.dec.cfg.sw == 0) = false := by
    rcases h with h | h <;> simp [h]
  rw [exec_eq_receiveItem hb, State.receiveItem, hb]
  simp only
  rw [State.onDecoder, guarded_true hc, guarded_false hguard]

end Sys2Proof
end

section
/-! PROOFS. The connection (44_environment.md R223 to R229): committing, the Stream guard, waiting for the halt message. -/

namespace Sys2Proof

open Machine

/-! ### Committing (R223) -/

/-- The words a flush pushes are what was held, and filler (R153). -/
theorem flush_words {e : Encoder} (h : e.Inv) :
    ∃ ws k, e.flush.sink = e.sink ++ ws ∧ bitstream ws = e.held ++ e.cfg.filler k := by
  by_cases hf : e.fill = 0
  · exact ⟨[], 0, by simp [flush_empty hf], by simp [held_of_fill_zero h hf, ParamSet.filler]⟩
  · refine ⟨[e.flushWord], e.cfg.ratio - e.fill / e.cfg.sw, ?_, ?_⟩
    · rw [(flush_spec h hf).1]
    · simp [Encoder.flushWord, ParamSet.filler]

/-- The words a batch and a flush push are what was held, the packed messages, and filler (R151, R153). -/
theorem encodeBatch_flush_words {e : Encoder} (h : e.Inv) {ms : List Msg} (hm : ∀ m ∈ ms, m.wf e.cfg = true) :
    ∃ ws k, (e.encodeBatch ms).flush.sink = e.sink ++ ws ∧
      bitstream ws = e.held ++ (ms.map (pack e.cfg)).flatten ++ e.cfg.filler k := by
  obtain ⟨⟨hcfg, ws1, hs1, -, -, hb1⟩, hinv⟩ := encodeBatch_emits h ms hm
  obtain ⟨ws2, k, hs2, hb2⟩ := flush_words hinv
  refine ⟨ws1 ++ ws2, k, by rw [hs2, hs1, List.append_assoc], ?_⟩
  rw [bitstream_append, hb2, hcfg, ← List.append_assoc, hb1]

/-- The holder of the Stream guard who waits in nothing gets what the operation of the public surface answers. -/
theorem asHolder_of_holder {s : State} {u : Nat} {free : Bool} (ha : s.conn.alive = true)
    (hs : s.conn.stream = some u) (hf : free = true) (o : Out) : s.asHolder u free o = o := by
  simp [State.asHolder, guarded, ha, hs, hf]

theorem exec_commit {s : State} {u : Nat} (ha : s.conn.alive = true) (hs : s.conn.stream = some u)
    (hw : s.conn.waiting = none) (hc : s.enc.cfg.wf = true) (hm : ∀ m ∈ s.conn.sendQueue, m.wf s.enc.cfg = true) :
    execEnv (.commit u) s = .next s.commit := by
  simp only [execEnv]
  rw [asHolder_of_holder ha hs (by rw [hw]; rfl), guarded_true hc, guarded_true (by simpa using hm)]

/-! ### The Stream guard (R228) -/

/-- A caller that does not hold the guard is refused. -/
theorem asHolder_of_other {s : State} {u v : Nat} (free : Bool) (ha : s.conn.alive = true)
    (hs : s.conn.stream = some u) (hv : v ≠ u) (o : Out) : s.asHolder v free o = .refused .notStreamHolder := by
  simp [State.asHolder, guarded, ha, hs, hv.symm]

/-- Whoever asks for a held guard waits, as long as the run flag is set. -/
theorem acquire_held {s : State} {u : Nat} (v : Nat) (ha : s.conn.alive = true) (hr : s.dbuf.run = true)
    (hs : s.conn.stream = some u) : s.acquire v = s.answer .blocked := by
  simp [State.acquire, ha, hr, hs]

/-- Settles O58: `commit` answers `State.commit`, whose new words are `encodeBatch_flush_words`, all of them new to the
transport; every operation of the public surface asks for the guard first. -/
theorem commitTransfersEverything : Obligations.CommitTransfersEverything := by
  refine ⟨fun v s ha hs hw hi hm htaken => ?_, fun u v ms a s ha hr hs hv => ⟨?_, fun hmem => ?_⟩⟩
  · obtain ⟨ws, k, hsink, hbits⟩ := encodeBatch_flush_words hi hm
    refine ⟨s.commit, ws, k, exec_commit ha hs hw hi.1 hm, rfl, flush_fill _, hsink, ?_, rfl, hbits, rfl⟩
    change s.conn.wire ++ (s.enc.encodeBatch s.conn.sendQueue).flush.sink.drop s.conn.taken = _
    rw [hsink, htaken, List.drop_left]
  · exact congrArg Host.Outcome.next (acquire_held v ha hr hs)
  · have hno : ∀ free, (decide (s.conn.stream = some v) && free) = false := by
      simp [hs, hv.symm]
    have hother : ∀ free o, s.asHolder v free o = .refused .notStreamHolder := fun free o =>
      asHolder_of_other free ha hs hv o
    simp only [List.mem_cons, List.not_mem_nil, or_false] at hmem
    rcases hmem with rfl | rfl | rfl | rfl | rfl | rfl | rfl | rfl | rfl | rfl
    · exact guarded_false (hno _) _ _
    · exact hother _ _
    · exact hother _ _
    · exact guarded_false (hno _) _ _
    all_goals exact hother _ _

/-! ### Waiting for the halt message (R224, R229) -/

section
variable {s : State} {w : Waiting}

theorem await_of_halt (ha : s.conn.alive = true) (hh : s.conn.haltSeen = true) : s.await w = s.halted w := by
  simp [State.await, ha, hh]

theorem await_of_fault (hh : s.conn.haltSeen = false) {f : BlockFault} (hf : s.dec.fault = some f) :
    s.await w = s.released (.raised (.fault f)) := by
  simp [State.await, hh, hf]

theorem await_of_nothing (ha : s.conn.alive = true) (hr : s.dbuf.run = true) (hh : s.conn.haltSeen = false)
    (hf : s.dec.fault = none) :
    s.await w = { s with conn := { s.conn with waiting := some w }, ret := .blocked } := by
  simp [State.await, ha, hr, hh, hf]

theorem await_of_shutdown (hr : s.dbuf.run = false) (hh : s.conn.haltSeen = false) (hf : s.dec.fault = none) :
    s.await w = s.released .cancelled := by
  simp [State.await, hr, hh, hf]

/-- Who already waits and finds nothing waits on, and nothing else changes. -/
theorem await_again (hw : s.conn.waiting = some w) (ha : s.conn.alive = true) (hr : s.dbuf.run = true)
    (hh : s.conn.haltSeen = false) (hf : s.dec.fault = none) : s.await w = { s with ret := .blocked } := by
  rw [await_of_nothing ha hr hh hf, ← hw]

end

theorem exec_runUntilHalt {s : State} {u : Nat} (hs : s.conn.stream = some u)
    (hw : s.conn.waiting = none ∨ s.conn.waiting = some ⟨u, none⟩) :
    execEnv (.runUntilHalt u) s = .next (s.await ⟨u, none⟩) :=
  guarded_true (by rcases hw with hw | hw <;> simp [hs, hw]) _ _

theorem exec_executeMessages {s : State} {u : Nat} {ms : List Msg} (ha : s.conn.alive = true)
    (hs : s.conn.stream = some u) (hw : s.conn.waiting = none) (hc : s.enc.cfg.wf = true)
    (hm : ∀ m ∈ s.conn.sendQueue ++ ms, m.wf s.enc.cfg = true) :
    execEnv (.executeMessages u ms) s = .next ((s.submitted ms).await ⟨u, some s.conn.time⟩) := by
  simp only [execEnv]
  rw [asHolder_of_holder ha hs (by rw [hw]; rfl), guarded_true hc, guarded_true (List.all_eq_true.2 hm)]

theorem exec_awaitMessages {s : State} {u : Nat} {start : TimeInfo} (hw : s.conn.waiting = some ⟨u, some start⟩) :
    execEnv (.awaitMessages u) s = .next (s.await ⟨u, some start⟩) := by
  simp only [execEnv, hw]
  exact guarded_true (by simp) _ _

/-- The listener calls for the message `m` record a halt exactly where it equals `HALT_RX`, if the halt listener is one of
them (R224). -/
theorem notified_of_halt_listener {c : ParamSet} {h : Msg} (hh : c.halt = some h) {ls : List Listener}
    (hl : .halt ∈ ls) (n : Connection) (m : Msg) (q : Nat) :
    n.notified c (ls.map (fun l => ⟨l, m, q⟩)) =
      if msgEq c m h then { n with haltSeen := true, lifecycle := .halted } else n := by
  have hany : (ls.map (fun l => (⟨l, m, q⟩ : Call))).any (Call.isHalt c) = msgEq c m h := by
    rw [List.any_map]
    cases hm : msgEq c m h with
    | true => exact List.any_eq_true.2 ⟨.halt, hl, by simp [Call.isHalt, hh, hm]⟩
    | false =>
      refine List.any_eq_false.2 fun l _ => ?_
      cases l <;> simp [Call.isHalt, hh, hm]
  unfold Connection.notified
  rw [hany]

/-- `run_until_halt` (R224): the caller waits until a message equal to `HALT_RX` is received. -/
theorem runUntilHalt_waits {u : Nat} {m h : Msg} {s : State} (hc : s.dec.cfg.halt = some h)
    (hl : .halt ∈ s.dec.listeners) (hh : s.conn.haltSeen = false) (hf : s.dec.fault = none) (hr : s.dbuf.run = true)
    (ha : s.conn.alive = true) (hs : s.conn.stream = some u) (hw : s.conn.waiting = some ⟨u, none⟩) :
    (msgEq s.dec.cfg m h = true → ∃ t, execEnv (.runUntilHalt u) (s.received m) = .next t ∧ t.ret = .done ∧
      t.dec = (s.received m).dec ∧ t.conn.waiting = none) ∧
    (msgEq s.dec.cfg m h = false →
      execEnv (.runUntilHalt u) (s.received m) = .next { s.received m with ret := .blocked }) := by
  have hconn : (s.received m).conn =
      if msgEq s.dec.cfg m h then { s.conn with haltSeen := true, lifecycle := .halted } else s.conn :=
    notified_of_halt_listener hc hl s.conn m s.dec.queue.length
  refine ⟨fun hm => ?_, fun hm => ?_⟩
  · rw [if_pos hm] at hconn
    have hexec := exec_runUntilHalt (s := s.received m) (u := u) (by rw [hconn]; exact hs)
      (Or.inr (by rw [hconn]; exact hw))
    rw [await_of_halt (by rw [hconn]; exact ha) (by rw [hconn])] at hexec
    exact ⟨_, hexec, rfl, rfl, rfl⟩
  · rw [if_neg (by rw [hm]; nofun)] at hconn
    rw [exec_runUntilHalt (by rw [hconn]; exact hs) (Or.inr (by rw [hconn]; exact hw)),
      await_again (s := s.received m) (by rw [hconn]; exact hw) (by rw [hconn]; exact ha) hr (by rw [hconn]; exact hh) hf]

/-- The caller of `execute_messages` that waits finds the halt message, a fault, nothing, or the run flag cleared (R229,
R233, R236). -/
theorem awaitMessages_finds {u : Nat} {start : TimeInfo} {t : State} (hw : t.conn.waiting = some ⟨u, some start⟩)
    (ha : t.conn.alive = true) :
    (t.conn.haltSeen = true → ∃ r, execEnv (.awaitMessages u) t = .next r ∧
      r.ret = .responses t.dec.queue (t.conn.time.since start) ∧ r.dec = { t.dec with queue := [] } ∧
      r.conn.waiting = none) ∧
    (∀ f, t.conn.haltSeen = false → t.dec.fault = some f → ∃ r, execEnv (.awaitMessages u) t = .next r ∧
      r.ret = .raised (.fault f) ∧ r.dec = t.dec ∧ r.conn.waiting = none) ∧
    (t.conn.haltSeen = false → t.dec.fault = none → t.dbuf.run = true →
      execEnv (.awaitMessages u) t = .next { t with ret := .blocked }) ∧
    (t.conn.haltSeen = false → t.dec.fault = none → t.dbuf.run = false →
      ∃ r, execEnv (.awaitMessages u) t = .next r ∧ r.ret = .cancelled ∧ r.dec = t.dec ∧ r.conn.waiting = none) := by
  rw [exec_awaitMessages hw]
  refine ⟨fun hh => ?_, fun f hh hf => ?_, fun hh hf hr => ?_, fun hh hf hr => ?_⟩
  · rw [await_of_halt ha hh]
    exact ⟨_, rfl, rfl, rfl, rfl⟩
  · rw [await_of_fault hh hf]
    exact ⟨_, rfl, rfl, rfl, rfl⟩
  · rw [await_again hw ha hr hh hf]
  · rw [await_of_shutdown hr hh hf]
    exact ⟨_, rfl, rfl, rfl, rfl⟩

/-- Settles O59: both callers find nothing at first and wait, and `runUntilHalt_waits` and `awaitMessages_finds` say what
ends the wait. -/
theorem haltIsDetected : Obligations.HaltIsDetected := by
  refine ⟨fun u m h s hc hl hh hf hr ha hs hw => ?_, fun u ms s hc hm hh hf hr ha hs hw => ?_⟩
  · have hwait := exec_runUntilHalt hs hw
    rw [await_of_nothing ha hr hh hf] at hwait
    obtain ⟨heq, hne⟩ := runUntilHalt_waits (m := m)
      (s := { s with conn := { s.conn with waiting := some ⟨u, none⟩ }, ret := .blocked }) hc hl hh hf hr ha hs rfl
    exact ⟨_, rfl, hwait, rfl, heq, hne⟩
  · have hexec := exec_executeMessages ha hs hw hc hm
    rw [await_of_nothing (s := s.submitted ms) ha hr hh hf] at hexec
    exact ⟨_, hexec, rfl, rfl, rfl, rfl, fun t ht hta => awaitMessages_finds ht hta⟩

end Sys2Proof
end

section
/-! PROOFS. The Double Buffer and destruction (44_environment.md R205 to R213, R233, R234). -/

namespace Sys2Proof

open Machine

/-! ### Slots -/

theorem other_ne (i : SlotId) : i.other ≠ i := by
  cases i <;> decide

theorem other_other (i : SlotId) : i.other.other = i := by
  cases i <;> rfl

theorem eq_other_of_ne {i j : SlotId} (h : i ≠ j) : j = i.other := by
  cases i <;> cases j <;> simp_all [SlotId.other]

section
variable (b : DoubleBuffer) (i : SlotId) (ws : List Bits)

@[simp] theorem setSlot_count : (b.setSlot i ws).count = b.count := by cases i <;> rfl
@[simp] theorem setSlot_producer : (b.setSlot i ws).producer = b.producer := by cases i <;> rfl
@[simp] theorem setSlot_consumer : (b.setSlot i ws).consumer = b.consumer := by cases i <;> rfl
@[simp] theorem setSlot_run : (b.setSlot i ws).run = b.run := by cases i <;> rfl

@[simp] theorem setSlot_slot_same : (b.setSlot i ws).slot i = ws := by cases i <;> rfl

@[simp] theorem setSlot_slot_other : (b.setSlot i ws).slot i.other = b.slot i.other := by cases i <;> rfl

@[simp] theorem stopWrite_slot : b.stopWrite.slot i = b.slot i := by cases i <;> rfl
@[simp] theorem stopRead_slot : b.stopRead.slot i = b.slot i := by cases i <;> rfl

end

/-- The buffer once the words `ws` are collected and the slot is handed over (R208, R213). -/
def DoubleBuffer.written (b : DoubleBuffer) (ws : List Bits) : DoubleBuffer := (b.collect ws).stopWrite

/-- The buffer once the consumer's packet is read and its slot given back (R210, R213). -/
def DoubleBuffer.read (b : DoubleBuffer) : DoubleBuffer := (b.setSlot b.consumer []).stopRead

section
variable (b : DoubleBuffer) (ws : List Bits)

@[simp] theorem written_count : (DoubleBuffer.written b ws).count = b.count + 1 := by
  simp [DoubleBuffer.written, DoubleBuffer.collect]

@[simp] theorem written_producer : (DoubleBuffer.written b ws).producer = b.producer.other := by
  simp [DoubleBuffer.written, DoubleBuffer.collect]

@[simp] theorem written_consumer : (DoubleBuffer.written b ws).consumer = b.consumer := by
  simp [DoubleBuffer.written, DoubleBuffer.collect]

@[simp] theorem written_slot : (DoubleBuffer.written b ws).slot b.producer = b.slot b.producer ++ ws := by
  simp [DoubleBuffer.written, DoubleBuffer.collect]

@[simp] theorem written_slot_other :
    (DoubleBuffer.written b ws).slot b.producer.other = b.slot b.producer.other := by
  simp [DoubleBuffer.written, DoubleBuffer.collect]

@[simp] theorem read_count : (DoubleBuffer.read b).count = b.count - 1 := by simp [DoubleBuffer.read]

@[simp] theorem read_producer : (DoubleBuffer.read b).producer = b.producer := by simp [DoubleBuffer.read]

@[simp] theorem read_consumer : (DoubleBuffer.read b).consumer = b.consumer.other := by simp [DoubleBuffer.read]

@[simp] theorem read_slot_other : (DoubleBuffer.read b).slot b.consumer.other = b.slot b.consumer.other := by
  simp [DoubleBuffer.read]

end

/-! ### The producer's and the consumer's operations (R207 to R210) -/

section
variable {s : State}

theorem exec_startWrite_free (h : s.dbuf.count < 2) :
    execEnv .startWrite s = .next { s with ret := .slot (some s.dbuf.producer) } := by
  simp only [execEnv, DoubleBuffer.startWrite, if_pos h]
  rfl

theorem exec_startWrite_full (h : 2 ≤ s.dbuf.count) :
    execEnv .startWrite s = .next { s with ret := if s.dbuf.run then .blocked else .slot none } := by
  simp only [execEnv, DoubleBuffer.startWrite, if_neg (Nat.not_lt.2 h)]
  rfl

theorem exec_startRead_ready (h : 0 < s.dbuf.count) :
    execEnv .startRead s = .next { s with ret := .slot (some s.dbuf.consumer) } := by
  simp only [execEnv, DoubleBuffer.startRead, if_pos h]
  rfl

theorem exec_startRead_empty (h : s.dbuf.count = 0) :
    execEnv .startRead s = .next { s with ret := if s.dbuf.run then .blocked else .slot none } := by
  simp only [execEnv, DoubleBuffer.startRead, h, lt_irrefl, if_false]
  rfl

variable (ha : s.conn.alive = true)
include ha

/-- On a live connection a receive thread's operation is performed. -/
theorem onReceiveThread_of_live (o : Out) : s.onReceiveThread o = o := if_pos ha

theorem exec_available : execEnv .available s = .next { s with ret := .bool (!s.conn.inbox.isEmpty) } :=
  onReceiveThread_of_live ha _

theorem exec_fillSlot (n : Nat) (h : s.dbuf.count < 2) : execEnv (.fillSlot n) s = .next (s.filled n) :=
  (onReceiveThread_of_live ha _).trans (guarded_true (decide_eq_true h) _ _)

theorem exec_fillSlot_full (n : Nat) (h : 2 ≤ s.dbuf.count) : execEnv (.fillSlot n) s = .refused .environmentMisuse :=
  (onReceiveThread_of_live ha _).trans (guarded_false (decide_eq_false (Nat.not_lt.2 h)) _ _)

theorem exec_stopWrite (h : s.dbuf.count < 2) :
    execEnv .stopWrite s = .next { s with dbuf := s.dbuf.stopWrite, ret := .done } :=
  (onReceiveThread_of_live ha _).trans (guarded_true (decide_eq_true h) _ _)

theorem exec_stopWrite_full (h : 2 ≤ s.dbuf.count) : execEnv .stopWrite s = .refused .environmentMisuse :=
  (onReceiveThread_of_live ha _).trans (guarded_false (decide_eq_false (Nat.not_lt.2 h)) _ _)

/-- Writing a packet: up to `n` words that fit are collected, and the slot is handed over (R208, R213). -/
theorem exec_write_packet {n k : Nat} (h : s.dbuf.count < 2)
    (hk : k = min n (s.dbuf.capacity - (s.dbuf.slot s.dbuf.producer).length)) :
    ∃ t u, execEnv (.fillSlot n) s = .next t ∧ t.ret = .nat (s.conn.inbox.take k).length ∧
      execEnv .stopWrite t = .next u ∧ u.dbuf = DoubleBuffer.written s.dbuf (s.conn.inbox.take k) ∧
      u.conn = { s.conn with inbox := s.conn.inbox.drop k } ∧ u.pending = s.pending ∧ u.enc = s.enc ∧ u.dec = s.dec := by
  subst hk
  have hcount : (s.filled n).dbuf.count < 2 := by
    simpa [DoubleBuffer.collect] using h
  exact ⟨_, _, exec_fillSlot ha n h, rfl, exec_stopWrite (s := s.filled n) ha hcount, rfl, rfl, rfl, rfl, rfl⟩

/-- Reading a packet: its words become `DEC.decode` operations ahead of what is pending, and the emptied slot is given
back (R209, R210, R213). -/
theorem exec_read_packet (h : 0 < s.dbuf.count) :
    ∃ v w, execEnv .decodeSlot s = .next v ∧
      v.pending = (s.dbuf.slot s.dbuf.consumer).map (fun x => .op (.decDecode x)) ++ s.pending ∧
      execEnv .stopRead v = .next w ∧ w.dbuf = DoubleBuffer.read s.dbuf ∧ w.enc = s.enc ∧ w.dec = s.dec := by
  have hdecode := (onReceiveThread_of_live ha _).trans
    (guarded_true (decide_eq_true h) .environmentMisuse (.next { s with
      pending := (s.dbuf.slot s.dbuf.consumer).map (fun w => Command.op (.decDecode w)) ++ s.pending
      dbuf := s.dbuf.setSlot s.dbuf.consumer []
      ret := .done }))
  refine ⟨_, _, hdecode, rfl, (onReceiveThread_of_live (by exact ha) _).trans (guarded_true ?_ _ _), rfl, rfl, rfl⟩
  simp [h]

end

/-! ### Packets -/

/-- One packet through an empty buffer (R207 to R213). -/
theorem packet_through_empty_buffer {n k : Nat} {p : List Bits} {s : State} (hi : s.dbuf.Inv) (ha : s.conn.alive = true)
    (h0 : s.dbuf.count = 0) (hk : k = min n (s.dbuf.capacity - (s.dbuf.slot s.dbuf.producer).length))
    (hp : p = s.dbuf.slot s.dbuf.producer ++ s.conn.inbox.take k) :
    ∃ t u v w, execEnv (.fillSlot n) s = .next t ∧ t.ret = .nat (s.conn.inbox.take k).length ∧
      execEnv .stopWrite t = .next u ∧
      u.dbuf.count = 1 ∧ u.dbuf.producer ≠ s.dbuf.producer ∧ u.conn = { s.conn with inbox := s.conn.inbox.drop k } ∧
      execEnv .startRead u = .next { u with ret := .slot (some s.dbuf.producer) } ∧
      execEnv .decodeSlot u = .next v ∧
      v.pending = p.map (fun x => .op (.decDecode x)) ++ s.pending ∧
      execEnv .stopRead v = .next w ∧ w.dbuf.count = 0 ∧ w.dbuf.consumer = w.dbuf.producer ∧
      w.enc = s.enc ∧ w.dec = s.dec := by
  have hsame : s.dbuf.consumer = s.dbuf.producer := (hi.2.1.2 (by omega)).symm
  obtain ⟨t, u, hfill, hret, hstop, hub, huc, hup, hue, hud⟩ := exec_write_packet ha (by omega) hk
  have hready : 0 < u.dbuf.count := by simp [hub]
  obtain ⟨v, w, hdecode, hpend, hread, hwb, hwe, hwd⟩ := exec_read_packet (s := u) (by rw [huc]; exact ha) hready
  have hcons : u.dbuf.consumer = s.dbuf.producer := by simp [hub, hsame]
  refine ⟨t, u, v, w, hfill, hret, hstop, by simp [hub, h0], by simp [hub, other_ne], huc, ?_, hdecode, ?_, hread,
    by simp [hwb, hub, h0], by simp [hwb, hub, hsame], hwe.trans hue, hwd.trans hud⟩
  · rw [exec_startRead_ready hready, hcons]
  · rw [hpend, hcons, hup, hp, hub, written_slot]

/-- A second packet behind an outstanding one (R207, R212): both are read, each whole and in the order written. -/
theorem packet_behind_another {n k : Nat} {p q : List Bits} {s : State} (hi : s.dbuf.Inv) (ha : s.conn.alive = true)
    (h1 : s.dbuf.count = 1) (hk : k = min n (s.dbuf.capacity - (s.dbuf.slot s.dbuf.producer).length))
    (hp : p = s.dbuf.slot s.dbuf.consumer) (hq : q = s.dbuf.slot s.dbuf.producer ++ s.conn.inbox.take k) :
    ∃ t u v w, execEnv (.fillSlot n) s = .next t ∧ execEnv .stopWrite t = .next u ∧
      u.dbuf.count = 2 ∧ u.conn = { s.conn with inbox := s.conn.inbox.drop k } ∧
      execEnv .startWrite u = .next { u with ret := if u.dbuf.run then .blocked else .slot none } ∧
      (∀ j, execEnv (.fillSlot j) u = .refused .environmentMisuse) ∧
      execEnv .stopWrite u = .refused .environmentMisuse ∧
      execEnv .startRead u = .next { u with ret := .slot (some s.dbuf.consumer) } ∧
      execEnv .decodeSlot u = .next v ∧ v.pending = p.map (fun x => .op (.decDecode x)) ++ s.pending ∧
      execEnv .stopRead v = .next w ∧ w.dbuf.count = 1 ∧ w.enc = s.enc ∧ w.dec = s.dec ∧
      ∀ x : State, x.dbuf = w.dbuf → x.conn.alive = true →
        execEnv .startRead x = .next { x with ret := .slot (some s.dbuf.producer) } ∧
        ∃ y z, execEnv .decodeSlot x = .next y ∧ y.pending = q.map (fun b => .op (.decDecode b)) ++ x.pending ∧
          execEnv .stopRead y = .next z ∧ z.dbuf.count = 0 := by
  have hother : s.dbuf.consumer = s.dbuf.producer.other := eq_other_of_ne (fun h => hi.2.1.1 h h1)
  obtain ⟨t, u, hfill, -, hstop, hub, huc, hup, hue, hud⟩ := exec_write_packet ha (by omega) hk
  have hua : u.conn.alive = true := by rw [huc]; exact ha
  have hfull : u.dbuf.count = 2 := by simp [hub, h1]
  have hcons : u.dbuf.consumer = s.dbuf.producer.other := by simp [hub, hother]
  obtain ⟨v, w, hdecode, hpend, hread, hwb, hwe, hwd⟩ := exec_read_packet hua (by omega)
  refine ⟨t, u, v, w, hfill, hstop, hfull, huc, exec_startWrite_full hfull.ge,
    fun j => exec_fillSlot_full hua j hfull.ge, exec_stopWrite_full hua hfull.ge, ?_, hdecode, ?_, hread,
    by simp [hwb, hfull], hwe.trans hue, hwd.trans hud, fun x hx hxa => ?_⟩
  · rw [exec_startRead_ready (by omega), hcons, hother]
  · rw [hpend, hcons, hup, hp, hub, written_slot_other, hother]
  · have hxcount : x.dbuf.count = 1 := by simp [hx, hwb, hfull]
    have hxcons : x.dbuf.consumer = s.dbuf.producer := by simp [hx, hwb, hcons, other_other]
    have hxslot : x.dbuf.slot s.dbuf.producer = q := by
      have hkeep := read_slot_other u.dbuf
      rw [hcons, other_other] at hkeep
      rw [hx, hwb, hkeep, hub, written_slot, hq]
    obtain ⟨y, z, hy, hyp, hz, hzb, -⟩ := exec_read_packet hxa (by omega)
    refine ⟨?_, y, z, hy, ?_, hz, by simp [hzb, hxcount]⟩
    · rw [exec_startRead_ready (by omega), hxcons]
    · rw [hyp, hxcons, hxslot]

/-! ### Destruction -/

/-- What the destructor leaves (R233, R234), by itself or by closing this connection's endpoint. -/
theorem destruction_leaves (s : State) : ∃ t, execEnv .destroy s = .next t ∧ t.conn.alive = false ∧
    t.dbuf = { s.dbuf with run := false } ∧
    t.NoReceiveThread ∧ t.dec = s.dec ∧ t.enc = s.enc ∧ t.calls = s.calls ∧ t.conn.inbox = s.conn.inbox ∧
    (s.dbuf.count = 2 → execEnv .startWrite t = .next { t with ret := .slot none }) ∧
    (s.dbuf.count = 0 → execEnv .startRead t = .next { t with ret := .slot none }) ∧
    ∀ e, s.conn.endpoint = some e → execEnv (.closeConnection e) s = .next t ∧ t.conn.endpoint = none ∧
      t.conn.registry = s.conn.registry.erase e := by
  refine ⟨s.destroyed, rfl, rfl, rfl, fun c hc => ?_, rfl, rfl, rfl, rfl, fun h2 => ?_, fun h0 => ?_, fun e he => ?_⟩
  · simpa using (List.mem_filter.1 hc).2
  · exact exec_startWrite_full (s := s.destroyed) h2.ge
  · exact exec_startRead_empty (s := s.destroyed) h0
  · refine ⟨?_, rfl, ?_⟩
    · simp only [execEnv, State.closed, if_pos he]
    · simp only [State.destroyed, he]

/-- Once the destructor has begun no step touches what a receive thread would (R233). -/
theorem step_of_destroyed {s t : State} (ha : s.conn.alive = false) (hp : s.NoReceiveThread) (h : step s = .next t) :
    t.dec = s.dec ∧ t.calls = s.calls ∧ t.conn.inbox = s.conn.inbox ∧
      t.dbuf = { s.dbuf with run := t.dbuf.run } ∧ t.conn.alive = false ∧ t.NoReceiveThread := by
  have hfront : ∀ {c r}, s.pending = c :: r → c.ofReceiveThread = false ∧ ∀ c ∈ r, c.ofReceiveThread = false := by
    intro c r hcr
    unfold State.NoReceiveThread at hp
    rw [hcr] at hp
    exact List.forall_mem_cons.1 hp
  rcases step_kinds s t h with rfl | ⟨r, hr, rfl⟩ | ⟨i, r, h, hr | ⟨b, b', rest, hr, -, -⟩⟩ | ⟨a, r, h, hr⟩
  · exact ⟨rfl, rfl, rfl, rfl, ha, hp⟩
  · cases (hfront hr).1
  · obtain ⟨hi, hrest⟩ := hfront hr
    obtain ⟨hpend, hbuf, -, hdec, -, hconn, -⟩ := agentsShareNoState i _ t h
    refine ⟨(hdec hi).1, (hdec hi).2, by rw [hconn], by rw [hbuf], by rw [hconn]; exact ha, ?_⟩
    unfold State.NoReceiveThread
    rw [hpend]
    exact hrest
  · cases (hfront hr).1
  · obtain ⟨hcaller, hrest⟩ := hfront hr
    obtain ⟨hcalls, hinbox, hbuf, hpend, halive, hdec⟩ := env_callerFrame hcaller h
    exact ⟨hdec (Or.inr ha), hcalls, hinbox, hbuf, halive ha, fun c hc => hrest c (hpend c hc)⟩

/-- Settles O60, from its four parts. -/
theorem packetIsHandedOverInOrder : Obligations.PacketIsHandedOverInOrder := by
  refine ⟨fun n k p s hi ha h0 hk hp => ?_, fun n k p q s hi ha h1 hk hp hq => ?_, destruction_leaves,
    fun s t ha hp h => step_of_destroyed ha hp h⟩
  · exact ⟨exec_available ha, exec_startWrite_free (by omega), exec_startRead_empty h0,
      packet_through_empty_buffer hi ha h0 hk hp⟩
  · exact ⟨exec_startWrite_free (by omega), packet_behind_another hi ha h1 hk hp hq⟩

end Sys2Proof
end
